-- ==== Sys2Proof/Word.lean ====
section
/-! DEFINITION. The word types of the PCICFG block (R10, R12): every value is unsigned, bit 0 is the least significant. -/

namespace Sys2Proof

/-- A byte of configuration space. -/
abbrev Byte := BitVec 8

/-- `u32`: a configuration dword, a port datum, a working register (R12). -/
abbrev Word := BitVec 32

/-- `u64`: a command word (R88). -/
abbrev CommandWord := BitVec 64

/-- The 20-bit port-transaction descriptor (R87). -/
abbrev Descriptor := BitVec 20

/-- Bus number, 0 to 255 (R10). -/
abbrev Bus := BitVec 8

/-- Device number, 0 to 31 (R10). -/
abbrev Dev := BitVec 5

/-- Function number, 0 to 7 (R10). -/
abbrev Fn := BitVec 3

/-- Register byte offset, 0 to 255 (R10). -/
abbrev Off := BitVec 8

/-- Dword number within a function, 0 to 63 (R31). -/
abbrev DwordNo := BitVec 6

/-- BAR index operand, 0 to 7 (R92). -/
abbrev BarIdx := BitVec 3

/-- A bit position of a `u32`, 0 to 31 (R25, R200). -/
abbrev BitPos := BitVec 5

end Sys2Proof
end

