-- ==== Sys2Proof/Syntax.lean ====
section
/-! DEFINITION. The instructions: eight engine commands and three port transactions (R6, R17, R87, R89), and the
assembler's statements over unbounded operands (R94, R95, R96). -/

namespace Sys2Proof

/-- The two bit scans (R200, R201); also the info a BitScanZero fault records (R252). -/
inductive Scan
  /-- lowest_set_bit -/
  | lsb
  /-- highest_set_bit -/
  | msb
deriving DecidableEq, Repr

/-- One constructor per row of spec/opcode_table.json. Operands have the exact widths of R88 and R92. -/
inductive Instr
  /-- CFGRD: read_register (R118). -/
  | cfgrd (bus : Bus) (dev : Dev) (fn : Fn) (off : Off)
  /-- CFGWR: write_register (R119). -/
  | cfgwr (bus : Bus) (dev : Dev) (fn : Fn) (off : Off) (val : Word)
  /-- HASMF: has_multiple_functions (R140). -/
  | hasmf (bus : Bus) (dev : Dev)
  /-- PROBE: probe_function (R142). -/
  | probe (bus : Bus) (dev : Dev) (fn : Fn)
  /-- DECBAR: decode one BAR slot (R160). -/
  | decbar (bus : Bus) (dev : Dev) (fn : Fn) (idx : BarIdx)
  /-- LSB: lowest_set_bit (R200). -/
  | lsb (val : Word)
  /-- MSB: highest_set_bit (R201). -/
  | msb (val : Word)
  /-- ENUM: the full sweep (R220). -/
  | enum
  /-- OUTL_ADDR: the 32-bit write to port 0xCF8 (R111). -/
  | outlAddr (data : Word)
  /-- INL_DATA: the 32-bit read from port 0xCFC (R112). -/
  | inlData
  /-- OUTL_DATA: the 32-bit write to port 0xCFC (R113). -/
  | outlData (data : Word)
deriving DecidableEq, Repr

/-- What travels to the block: a 64-bit command word to the command interface (R88), or a 20-bit descriptor with the
32-bit datum carried beside it to the port interface (R87). -/
inductive Encoding
  | command (word : CommandWord)
  | transaction (desc : Descriptor) (data : Word)
deriving DecidableEq, Repr

/-- The decoder's rejections, by the names of R252. -/
inductive DecodeError
  /-- No row of R90 matches the command word (R91). -/
  | illegalCommand (word : CommandWord)
  /-- The descriptor is not one of the three of R111 to R113 (R114). -/
  | unadmittedPortAccess (desc : Descriptor) (data : Word)
deriving DecidableEq, Repr

/-- An assembler statement: R94's eight commands, R95's port forms, R96's pseudo-instructions. Operands are integers as
written; R94 says which are masked and which are refused. -/
inductive Asm
  | cfgrd (bus dev fn off : Nat)
  | cfgwr (bus dev fn off val : Nat)
  | hasmf (bus dev : Nat)
  | probe (bus dev fn : Nat)
  | decbar (bus dev fn idx : Nat)
  | lsb (val : Nat)
  | msb (val : Nat)
  | enum
  | outl (port val : Nat)
  | inl (port : Nat)
  | cfgrd8 (bus dev fn off : Nat)
  | cfgrd16 (bus dev fn off : Nat)
  | cfgrd32 (bus dev fn off : Nat)
  | cfgwr32 (bus dev fn off val : Nat)
deriving DecidableEq, Repr

end Sys2Proof
end

