-- ==== Sys2Proof/WellFormed.lean ====
section
/-! DEFINITION. Well-formedness. Every operand field of Instr has the exact width of its field in the command word, so an
Instr cannot be ill-formed; the checks with something to refuse are the assembler's (R94, R95). -/

namespace Sys2Proof

/-- A value operand fits `u32`: the assembler refuses one above 0xFFFFFFFF (R94). -/
def valFits (val : Nat) : Bool := val ≤ 0xFFFFFFFF

/-- A BAR index fits IDX: the assembler refuses one above 7 (R94, D33). -/
def idxFits (idx : Nat) : Bool := idx ≤ 7

/-- `outl` is written with port 0xCF8 or 0xCFC (R95). -/
def outPort (port : Nat) : Bool := port == 0xCF8 || port == 0xCFC

/-- `inl` is written with port 0xCFC only (R95, R114). -/
def inPort (port : Nat) : Bool := port == 0xCFC

/-- The operands the assembler accepts (R94 to R96). Bus, device, function and offset wrap and are never refused. -/
def Asm.wellFormed : Asm → Bool
  | .cfgrd _ _ _ _ => true
  | .cfgwr _ _ _ _ val => valFits val
  | .hasmf _ _ => true
  | .probe _ _ _ => true
  | .decbar _ _ _ idx => idxFits idx
  | .lsb val => valFits val
  | .msb val => valFits val
  | .enum => true
  | .outl port val => outPort port && valFits val
  | .inl port => inPort port
  | .cfgrd8 _ _ _ _ => true
  | .cfgrd16 _ _ _ _ => true
  | .cfgrd32 _ _ _ _ => true
  | .cfgwr32 _ _ _ _ val => valFits val

/-- Every Instr is well-formed: its fields have the widths of R88, R92 and R87, and no value of a field is reserved. -/
def Instr.wellFormed : Instr → Bool
  | .cfgrd _ _ _ _ | .cfgwr _ _ _ _ _ | .hasmf _ _ | .probe _ _ _ | .decbar _ _ _ _ => true
  | .lsb _ | .msb _ | .enum | .outlAddr _ | .inlData | .outlData _ => true

end Sys2Proof
end

