-- ==== Sys2Proof/Decode.lean ====
section
/-! DEFINITION. The decoder, total on every command word and descriptor (R87 to R93), and the encoder. -/

namespace Sys2Proof

/-! ## Port-transaction descriptors (R87) -/

/-- Port 0xCF8, "config-address" (R10, R50). -/
def configAddressPort : BitVec 16 := 0xCF8#16

/-- Port 0xCFC, "config-data" (R10, R50). -/
def configDataPort : BitVec 16 := 0xCFC#16

/-- DIR of a write (R87). -/
def dirOut : BitVec 1 := 1#1

/-- DIR of a read (R87). -/
def dirIn : BitVec 1 := 0#1

/-- SIZE of a 32-bit access (R87). -/
def size32 : BitVec 2 := 2#2

/-- A descriptor from its fields: bit 19 reserved zero, SIZE 18:17, DIR 16, PORT 15:0 (R87). -/
def descriptor (port : BitVec 16) (dir : BitVec 1) (size : BitVec 2) : Descriptor :=
  0#1 ++ size ++ dir ++ port

/-- 0x50CF8 (R111). -/
def outlAddrDesc : Descriptor := descriptor configAddressPort dirOut size32

/-- 0x40CFC (R112). -/
def inlDataDesc : Descriptor := descriptor configDataPort dirIn size32

/-- 0x50CFC (R113). -/
def outlDataDesc : Descriptor := descriptor configDataPort dirOut size32

/-- DIR of a descriptor: true for a write, which carries a datum (R87). -/
def descIsWrite (d : Descriptor) : Bool := d.getLsbD 16

/-- The port target's admitted set; everything else is rejected by name (R110, R114). -/
def decodePort (d : Descriptor) (data : Word) : Except DecodeError Instr :=
  if d = outlAddrDesc then .ok (.outlAddr data)
  else if d = inlDataDesc then .ok .inlData
  else if d = outlDataDesc then .ok (.outlData data)
  else .error (.unadmittedPortAccess d data)

/-! ## Command words (R88 to R92) -/

/-- VAL = w[63:32]. -/
def fieldVal (w : CommandWord) : Word := w.extractLsb' 32 32

/-- OP = w[31:28]. -/
def fieldOp (w : CommandWord) : BitVec 4 := w.extractLsb' 28 4

/-- IDX = w[27:25]. -/
def fieldIdx (w : CommandWord) : BarIdx := w.extractLsb' 25 3

/-- The reserved bit w[24]. -/
def fieldRsv (w : CommandWord) : BitVec 1 := w.extractLsb' 24 1

/-- BUS = w[23:16]. -/
def fieldBus (w : CommandWord) : Bus := w.extractLsb' 16 8

/-- DEV = w[15:11]. -/
def fieldDev (w : CommandWord) : Dev := w.extractLsb' 11 5

/-- FN = w[10:8]. -/
def fieldFn (w : CommandWord) : Fn := w.extractLsb' 8 3

/-- OFF = w[7:0]. -/
def fieldOff (w : CommandWord) : Off := w.extractLsb' 0 8

/-- A command word laid out as R88 lays it out. -/
def commandWord (val : Word) (op : BitVec 4) (idx : BarIdx) (bus : Bus) (dev : Dev) (fn : Fn) (off : Off) :
    CommandWord :=
  val ++ op ++ idx ++ 0#1 ++ bus ++ dev ++ fn ++ off

/-- `r` when every must-be-zero field is zero, else the rejection of R91. -/
def legalIf (ok : Bool) (w : CommandWord) (i : Instr) : Except DecodeError Instr :=
  if ok then .ok i else .error (.illegalCommand w)

/-- The command decoder, by the opcode map and its must-be-zero fields (R89, R91). -/
def decodeCommand (w : CommandWord) : Except DecodeError Instr :=
  let val := fieldVal w
  let bus := fieldBus w
  let dev := fieldDev w
  let fn := fieldFn w
  let off := fieldOff w
  let idx := fieldIdx w
  let rsv0 := fieldRsv w == 0#1
  let low0 := idx == 0#3 && rsv0 && bus == 0#8 && dev == 0#5 && fn == 0#3 && off == 0#8
  match (fieldOp w).toNat with
  | 1 => legalIf (val == 0#32 && idx == 0#3 && rsv0) w (.cfgrd bus dev fn off)
  | 2 => legalIf (idx == 0#3 && rsv0) w (.cfgwr bus dev fn off val)
  | 3 => legalIf (val == 0#32 && idx == 0#3 && rsv0 && fn == 0#3 && off == 0#8) w (.hasmf bus dev)
  | 4 => legalIf (val == 0#32 && idx == 0#3 && rsv0 && off == 0#8) w (.probe bus dev fn)
  | 5 => legalIf (val == 0#32 && rsv0 && off == 0#8) w (.decbar bus dev fn idx)
  | 6 => legalIf low0 w (.lsb val)
  | 7 => legalIf low0 w (.msb val)
  | 8 => legalIf (val == 0#32 && low0) w .enum
  | _ => .error (.illegalCommand w)

/-- The decoder over both interfaces: total, rejecting by name. -/
def decode : Encoding → Except DecodeError Instr
  | .command w => decodeCommand w
  | .transaction d data => decodePort d data

/-- The encoder, from the same tables (R87 to R89). INL_DATA carries no datum; zero stands beside its descriptor. -/
def encode : Instr → Encoding
  | .cfgrd bus dev fn off => .command (commandWord 0 1 0 bus dev fn off)
  | .cfgwr bus dev fn off val => .command (commandWord val 2 0 bus dev fn off)
  | .hasmf bus dev => .command (commandWord 0 3 0 bus dev 0 0)
  | .probe bus dev fn => .command (commandWord 0 4 0 bus dev fn 0)
  | .decbar bus dev fn idx => .command (commandWord 0 5 idx bus dev fn 0)
  | .lsb val => .command (commandWord val 6 0 0 0 0 0)
  | .msb val => .command (commandWord val 7 0 0 0 0 0)
  | .enum => .command (commandWord 0 8 0 0 0 0 0)
  | .outlAddr data => .transaction outlAddrDesc data
  | .inlData => .transaction inlDataDesc 0
  | .outlData data => .transaction outlDataDesc data

/-! ## The match/mask table (R90) -/

/-- One row of R90. -/
structure CommandRow where
  mnemonic : String
  pattern : CommandWord
  mask : CommandWord
deriving DecidableEq, Repr

/-- R90's rows, transcribed. -/
def commandRows : List CommandRow :=
  [⟨"CFGRD", 0x0000000010000000#64, 0xFFFFFFFFFF000000#64⟩,
   ⟨"CFGWR", 0x0000000020000000#64, 0x00000000FF000000#64⟩,
   ⟨"HASMF", 0x0000000030000000#64, 0xFFFFFFFFFF0007FF#64⟩,
   ⟨"PROBE", 0x0000000040000000#64, 0xFFFFFFFFFF0000FF#64⟩,
   ⟨"DECBAR", 0x0000000050000000#64, 0xFFFFFFFFF10000FF#64⟩,
   ⟨"LSB", 0x0000000060000000#64, 0x00000000FFFFFFFF#64⟩,
   ⟨"MSB", 0x0000000070000000#64, 0x00000000FFFFFFFF#64⟩,
   ⟨"ENUM", 0x0000000080000000#64, 0xFFFFFFFFFFFFFFFF#64⟩]

/-- A word selects a row when (w & mask) = match (R90). -/
def CommandRow.selects (r : CommandRow) (w : CommandWord) : Bool := w &&& r.mask == r.pattern

/-- No word is selected by both rows: they differ in a bit both masks cover. -/
def CommandRow.disjoint (r q : CommandRow) : Bool :=
  r.pattern &&& (r.mask &&& q.mask) != q.pattern &&& (r.mask &&& q.mask)

/-- The mnemonic of an instruction (R17, R89, R87). -/
def mnemonicOf : Instr → String
  | .cfgrd _ _ _ _ => "CFGRD"
  | .cfgwr _ _ _ _ _ => "CFGWR"
  | .hasmf _ _ => "HASMF"
  | .probe _ _ _ => "PROBE"
  | .decbar _ _ _ _ => "DECBAR"
  | .lsb _ => "LSB"
  | .msb _ => "MSB"
  | .enum => "ENUM"
  | .outlAddr _ => "OUTL_ADDR"
  | .inlData => "INL_DATA"
  | .outlData _ => "OUTL_DATA"

/-! ## Words as spec/opcode_table.json numbers them -/

/-- The encoding a table word stands for (log 17). The table's PORT20 rows have 20 bits, three whole bytes, so a word of at
most 24 bits is a descriptor with the datum 0 beside it; a longer one is a command word whose missing bits are 0. A number
that does not fit its format encodes nothing. -/
def tableEncoding (nbits w : Nat) : Option Encoding :=
  if nbits ≤ 24 then
    if w < 2 ^ 20 then some (.transaction (BitVec.ofNat 20 w) 0) else none
  else
    if w < 2 ^ 64 then some (.command (BitVec.ofNat 64 w)) else none

/-- The instruction the decoder reads from a table word. -/
def decodeTableWord (nbits w : Nat) : Option Instr :=
  match tableEncoding nbits w with
  | none => none
  | some e =>
    match decode e with
    | .ok i => some i
    | .error _ => none

end Sys2Proof
end

