-- ==== Sys2Proof/Config.lean ====
section
/-! DEFINITION. What the platform fixes and the spec leaves open (R11): the configuration backend's answers, the draw
of CA at reset, and where a sweep's cursor starts. All are opaque: nothing in Lean can tell their values. -/

namespace Sys2Proof

/-- One event at the platform's configuration backend that its later answers may depend on (R31, R58, R280). -/
inductive CfgOp
  /-- A configuration write of dword k (R113). -/
  | write (bus : Bus) (dev : Dev) (fn : Fn) (k : DwordNo) (v : Word)
  /-- A read of a dword outside R33's list, whose side effects are the backend's business (R58). -/
  | read (bus : Bus) (dev : Dev) (fn : Fn) (k : DwordNo)
  /-- A reset of the block, after which nothing is assumed of configuration space (R280). -/
  | reset
deriving DecidableEq, Repr

/-- `CfgBackend.read` with the backend state it depends on (R31, R61, D8, D9): what the platform answers a configuration
read of dword k of (bus, dev, fn) after the events in `log`, newest first. A free value (log 3). -/
opaque Config.cfgRead (log : List CfgOp) (bus : Bus) (dev : Dev) (fn : Fn) (k : DwordNo) : Word

/-- The draw `CA_reset` (R11, R20, D6): CA after the n-th reset. A free value (log 5). -/
opaque Config.caReset (n : Nat) : Word

/-- What ENUM sets FNC to at its start, which R30 has it set and no rule gives the value of; the number of resets and the
length of TR tell one start from another. A free value (log 25). -/
opaque Config.sweepFnc (resets records : Nat) : Fn

/-- Whether ENUM sets NFN to 8 or to 1 at its start, as for FNC (R30). A free value (log 25). -/
opaque Config.sweepNfn (resets records : Nat) : Bool

/-- What ENUM sets BARC to at its start, as for FNC (R30). A free value (log 25). -/
opaque Config.sweepBarc (resets records : Nat) : Fin 6

end Sys2Proof
end

