-- ==== Sys2Proof/Machine/State.lean ====
section
/-! DEFINITION. The state of the four agents as plain data (R20 to R37), its value after reset, and the reasons a step
can stop. Fields marked MODEL are the model's own and no register of the spec. -/

namespace Sys2Proof.Machine

/-! ## Result types (R26 to R30) -/

/-- The width tag of a memory BAR the block does not size (R27). -/
inductive MemWidth
  /-- memory type 1, reserved/20-bit (R170) -/
  | w20
  /-- memory type 2, 64-bit (R171) -/
  | w64
  /-- memory type 3, not named by the source (R172) -/
  | wres3
deriving DecidableEq, Repr

/-- The two malformed sub-kinds (R27, R253). -/
inductive MalformedKind
  /-- all-zero address bits with the prefetchable flag set (R168) -/
  | zeroPrefetchable
  /-- the writable-bit pattern violates a bound (R169) -/
  | badPattern
deriving DecidableEq, Repr

/-- `DecodeResult`, the per-BAR result (R27). -/
inductive DecodeResult
  | absent
  | unused
  | io (base : Word)
  | mem32 (prefetchable : Bool) (sizeLog2 : BitPos)
  | memUnsized (width : MemWidth) (prefetchable : Bool)
  | malformed (kind : MalformedKind)
deriving DecidableEq, Repr

/-- `IdRecord`, the identification fields of one function (R28). -/
structure IdRecord where
  bus : Bus
  dev : Dev
  fn : Fn
  vendorId : BitVec 16
  deviceId : BitVec 16
  classId : Byte
  subclassId : Byte
  interfaceId : Byte
  revision : Byte
  interruptLine : Byte
deriving DecidableEq, Repr

/-- The six BAR slots of a DeviceDescriptor, `bars[0..5]` (R29). -/
structure Bars where
  bar0 : DecodeResult
  bar1 : DecodeResult
  bar2 : DecodeResult
  bar3 : DecodeResult
  bar4 : DecodeResult
  bar5 : DecodeResult
deriving DecidableEq, Repr

/-- `DeviceDescriptor` (R29). -/
structure DeviceDescriptor where
  id : IdRecord
  bars : Bars
  portBase : Option Word
deriving DecidableEq, Repr

/-- A command's result with its tag (R26). -/
inductive Result
  | u32 (v : Word)
  | unit
  | bool (b : Bool)
  | idRecord (r : IdRecord)
  | decode (r : DecodeResult)
  | bitPos (p : BitPos)
  | sweep (devices : List DeviceDescriptor) (count : Nat)
deriving DecidableEq, Repr

/-! ## Trace, events, marks (R34, R35, R231, R252) -/

/-- The three admitted port transactions (R35, R87). -/
inductive PortKind
  | outlAddr
  | inlData
  | outlData
deriving DecidableEq, Repr

/-- One record of the port trace TR (R35). -/
structure PortRecord where
  kind : PortKind
  data : Word
deriving DecidableEq, Repr

/-- One event of the report stream EVT (R231). -/
inductive Event
  | device (desc : DeviceDescriptor)
  | bar (bus : Bus) (dev : Dev) (fn : Fn) (index : BarIdx) (r : DecodeResult)
  | total (n : Nat)
deriving DecidableEq, Repr

/-- The cause codes' names (R252). -/
inductive Cause
  | bitScanZero
  | illegalCommand
  | unadmittedPortAccess
deriving DecidableEq, Repr

/-- What the FAULT mark records: cause, info (which scan), CMD (R251, R252). -/
structure FaultRecord where
  cause : Cause
  info : Scan
  cmd : CommandWord
deriving DecidableEq, Repr

/-- What the REFUSED mark records (R250, R252). A read transaction carries no datum (log 10). -/
inductive RefusalRecord
  | illegalCommand (word : CommandWord)
  | unadmittedPortAccess (desc : Descriptor) (data : Option Word) (ca : Word)
deriving DecidableEq, Repr

/-! ## The configuration backend (R31) -/

/-- Configuration space as bytes: (address, byte) pairs, addresses strictly rising, no zero byte listed. The address of byte
`off` of (bus, dev, fn) is bus, dev, fn and off side by side, 24 bits (R51). -/
abbrev Memory := List Host.Cell

/-- One (bus, device, function) triple (R16). -/
structure FnAddr where
  bus : Bus
  dev : Dev
  fn : Fn
deriving DecidableEq, Repr

/-- The backend agent's state. Which backend the machine has is a parameter (R31, R122) and no step changes it. -/
inductive Backend
  /-- The platform's own, fully open: the events its answers may depend on, newest first (log 3). -/
  | platform (log : List CfgOp)
  /-- R31's reference backend: the functions whose presence flag P is set, the values V and the writable masks W (log 4). -/
  | reference (present : List FnAddr) (values : Memory) (masks : Memory)
deriving DecidableEq, Repr

/-! ## Registers -/

/-- Engine mode (R22). -/
inductive Mode
  | idle
  | busy
deriving DecidableEq, Repr

/-- NFN, the number of functions to probe: 1 or 8 (R30). -/
inductive FnCount
  | one
  | eight
deriving DecidableEq, Repr

/-- The engine's working registers (R25). -/
structure Regs where
  addrw : Word
  data : Word
  ht : BitVec 7
  maxbar : BitVec 3
  raw : Word
  save : Word
  rb : Word
  lo : BitPos
  hi : BitPos
deriving DecidableEq, Repr

/-- The enumeration state (R30). -/
structure Sweep where
  busc : Bus
  devc : Dev
  fnc : Fn
  nfn : FnCount
  barc : Fin 6
  devCount : Nat
  devList : List DeviceDescriptor
deriving DecidableEq, Repr

/-- MODEL. What the outside does to the block, in order (log 1, log 2). -/
inductive Input
  /-- The host writes a command word and no other agent touches the ports until it is done (R22, R283). -/
  | command (word : CommandWord)
  /-- The host writes a command word, and the engine then takes its steps one at a time (R22, R24). -/
  | issue (word : CommandWord)
  /-- Some agent other than the engine issues a port transaction (R62, R110, R283). -/
  | port (desc : Descriptor) (data : Word)
  /-- The engine takes one step before the next input lands. -/
  | turn
  /-- Reset of the block (R280). -/
  | reset
deriving DecidableEq, Repr

/-- The machine's state. -/
structure State where
  /-- CONFIG_ADDRESS latch CA (R20). -/
  ca : Word
  /-- MODE (R22). -/
  mode : Mode
  /-- Command register CMD (R23). -/
  cmd : CommandWord
  /-- Sequencer SEQ (R24, log 7). -/
  seq : Nat
  /-- Working registers ADDRW to HI (R25). -/
  regs : Regs
  /-- Result register RES (R26). -/
  res : Option Result
  /-- Enumeration state (R30). -/
  sweep : Sweep
  /-- FAULT mark (R34, R251). -/
  fault : Option FaultRecord
  /-- REFUSED mark (R34, R250, R114). -/
  refused : Option RefusalRecord
  /-- PROBE_OPEN (R36). -/
  probeOpen : Bool
  /-- Port trace TR, oldest record first (R35). -/
  tr : List PortRecord
  /-- Report-event stream EVT, oldest event first (R231). -/
  evt : List Event
  /-- Configuration space and its backend (R31). -/
  cfg : Backend
  /-- MODEL. What the outside still does (log 1). -/
  inputs : List Input
  /-- MODEL. The data the running command has read, oldest first: what its pseudocode's locals hold (log 12). -/
  got : List Word
  /-- MODEL. Resets so far; indexes the draw of CA (log 5). -/
  resets : Nat
deriving DecidableEq, Repr

/-! ## Reset (R37) -/

/-- Working registers after reset: unspecified by R37, named 0 (log 6). -/
def Regs.reset : Regs := ⟨0, 0, 0, 0, 0, 0, 0, 0, 0⟩

/-- Enumeration state after reset: DEVCOUNT 0 and DEVLIST empty by R37; the cursor unspecified, named 0 and NFN 1 (log 6). -/
def Sweep.reset : Sweep := ⟨0, 0, 0, .one, 0, 0, []⟩

/-- The machine right after reset (R37). -/
def State.reset : State where
  ca := Config.caReset 0
  mode := .idle
  cmd := 0
  seq := 0
  regs := Regs.reset
  res := none
  sweep := Sweep.reset
  fault := none
  refused := none
  probeOpen := false
  tr := []
  evt := []
  cfg := .platform []
  inputs := []
  got := []
  resets := 0

/-! ## Why a step can stop -/

/-- The spec's faults and refusals are entries that leave a next state (R250, R251, R114), so only one thing stops. -/
inductive Fault
  /-- Raised by the sequencer when MODE is BUSY but SEQ and the data read so far are no position of the program in CMD.
  No run from reset reaches such a state. Safe (log 15). -/
  | sequencerLost
deriving DecidableEq, Repr

/-- Reasons to refuse an instruction. -/
inductive Refusal
  /-- Raised by exec's arm of an instruction that has no meaning yet. No arm does so now. Safe. -/
  | notModelled (mnemonic : String)
deriving DecidableEq, Repr

end Sys2Proof.Machine
end

