-- ==== Sys2Proof/Machine/Flags.lean ====
section
/-! DEFINITION. The flag-like fields: what the engine tests in configuration dwords (R34, R82 to R84, R146) and the cause
codes of the marks (R252). The block has no condition-code register (R34). -/

namespace Sys2Proof.Machine

/-- MF, bit 7 of the header-type byte, tested in the CFGRD result of offset 0x0E (R82, R140). -/
def multiFunction (t : Word) : Bool := t.getLsbD 7

/-- KIND, BAR bit 0: true for I/O space (R83, R163). -/
def barIsIo (raw : Word) : Bool := raw.getLsbD 0

/-- TYPE, memory BAR bits 2:1 (R84, R165). -/
def barType (raw : Word) : BitVec 2 := raw.extractLsb' 1 2

/-- PF, memory BAR bit 3 (R84, R165). -/
def barPrefetchable (raw : Word) : Bool := raw.getLsbD 3

/-- A function is present exactly when its vendor_id is neither 0x0000 nor 0xFFFF (R146). -/
def vendorPresent (vendorId : BitVec 16) : Bool := vendorId != 0x0000#16 && vendorId != 0xFFFF#16

/-- The presence predicate on an IdRecord (R146, R223). -/
def IdRecord.present (r : IdRecord) : Bool := vendorPresent r.vendorId

/-- Cause codes (R252). -/
def Cause.code : Cause → Nat
  | .bitScanZero => 1
  | .illegalCommand => 2
  | .unadmittedPortAccess => 3

/-- The cause of a refusal (R252). -/
def RefusalRecord.cause : RefusalRecord → Cause
  | .illegalCommand _ => .illegalCommand
  | .unadmittedPortAccess _ _ _ => .unadmittedPortAccess

end Sys2Proof.Machine
end

