-- ==== Sys2Proof/Machine/Operands.lean ====
section
/-! DEFINITION. Every operand form: argument masking and the address word (R80, R115 to R117), the fields the port target
routes by (R81), the header-type byte and the BAR operands (R82 to R86, R161 to R169), field truncation (R143). -/

namespace Sys2Proof.Machine

/-! ## CONFIG_ADDRESS -/

/-- The address word (R116): 0x80000000 | (bus << 16) | (dev << 11) | (fn << 8) | (off & 0xFC). The fields carry their own
widths, so R115's masking has already happened (C3). -/
def addrWord (bus : Bus) (dev : Dev) (fn : Fn) (off : Off) : Word :=
  0x80000000#32 ||| (bus.setWidth 32 <<< 16) ||| (dev.setWidth 32 <<< 11) ||| (fn.setWidth 32 <<< 8)
    ||| (off &&& 0xFC#8).setWidth 32

/-- E = a[31] (R81). -/
def caEnable (a : Word) : Bool := a.getLsbD 31

/-- BUS = a[23:16] (R81). -/
def caBus (a : Word) : Bus := a.extractLsb' 16 8

/-- DEV = a[15:11] (R81). -/
def caDev (a : Word) : Dev := a.extractLsb' 11 5

/-- FN = a[10:8] (R81). -/
def caFn (a : Word) : Fn := a.extractLsb' 8 3

/-- k = a[7:2] (R81). -/
def caDword (a : Word) : DwordNo := a.extractLsb' 2 6

/-- The sub-word shift 8 * (off % 4) (R117). -/
def subwordShift (off : Off) : Nat := 8 * (off.toNat % 4)

/-- The dword number OFF >> 2 (R92). -/
def dwordOf (off : Off) : DwordNo := off.extractLsb' 2 6

/-- The accessor's integer arguments masked into their field widths (R115): bus & 0xFF, device & 0x1F, function & 0x7,
offset & 0xFF. -/
def maskArgs (bus dev fn off : Nat) : Bus × Dev × Fn × Off :=
  (BitVec.ofNat 8 bus, BitVec.ofNat 5 dev, BitVec.ofNat 3 fn, BitVec.ofNat 8 off)

/-! ## Header fields (R33) -/

/-- Offset of vendor_id. -/
def offVendorId : Off := 0x00#8

/-- Offset of device_id. -/
def offDeviceId : Off := 0x02#8

/-- Offset of revision. -/
def offRevision : Off := 0x08#8

/-- Offset of interface_id. -/
def offInterfaceId : Off := 0x09#8

/-- Offset of subclass_id. -/
def offSubclassId : Off := 0x0A#8

/-- Offset of class_id. -/
def offClassId : Off := 0x0B#8

/-- Offset of the header-type byte. -/
def offHeaderType : Off := 0x0E#8

/-- Offset of the interrupt line. -/
def offInterruptLine : Off := 0x3C#8

/-- The dwords whose reads have no side effect: 0, 2, 3, 4 to 9 and 15 (R33, R58). -/
def repeatableDword (k : DwordNo) : Bool := k ∈ [0#6, 2#6, 3#6, 4#6, 5#6, 6#6, 7#6, 8#6, 9#6, 15#6]

/-- trunc_8 of a CFGRD result (R53, R143). -/
def trunc8 (v : Word) : Byte := v.setWidth 8

/-- trunc_16 of a CFGRD result (R53, R143). -/
def trunc16 (v : Word) : BitVec 16 := v.setWidth 16

/-- TYPE, the header-type byte & 0x7F (R82, R161). -/
def headerType (t : Word) : BitVec 7 := (trunc8 t &&& 0x7F#8).setWidth 7

/-! ## BAR operands -/

/-- MAXBAR: 6 when HT = 0, else 2 (R161, C1). -/
def maxBar (ht : BitVec 7) : BitVec 3 := if ht = 0#7 then 6#3 else 2#3

/-- The BAR register offset 0x10 + 4*IDX (R162). -/
def barOffset (idx : BarIdx) : Off := 0x10#8 + 4#8 * idx.setWidth 8

/-- The sizing pattern and the read-back mask, 0xFFFFFFF0 (R86, C8). -/
def sizingPattern : Word := 0xFFFFFFF0#32

/-- The decoded base of an I/O BAR, raw & 0xFFFFFFFC (R85, R164). -/
def ioBase (raw : Word) : Word := raw &&& 0xFFFFFFFC#32

/-- The width tag of a memory type the block does not size; none for type 0, which it sizes (R165, R170 to R172). -/
def unsizedWidth (ty : BitVec 2) : Option MemWidth :=
  if ty = 1#2 then some .w20 else if ty = 2#2 then some .w64 else if ty = 3#2 then some .wres3 else none

/-- Classification of a zero read-back (R168). -/
def classifyZero (pf : Bool) : DecodeResult :=
  if pf then .malformed .zeroPrefetchable else .unused

/-- Classification of a nonzero read-back: HI must be exactly 31 and LO in [4, 31] (R169). -/
def classifyNonzero (pf : Bool) (lo hi : BitPos) : DecodeResult :=
  if hi ≠ 31#5 ∨ lo < 4#5 ∨ 31#5 < lo then .malformed .badPattern else .mem32 pf lo

/-- The size in bytes a result reports: 2^sizeLog2 for a sized memory BAR, none otherwise (R27, R169, R176). -/
def DecodeResult.sizeBytes : DecodeResult → Option Nat
  | .mem32 _ n => some (2 ^ n.toNat)
  | .absent | .unused | .io _ | .memUnsized _ _ | .malformed _ => none

/-! ## Bit scans (R200, R201) -/

/-- The position of the least-significant set bit, none for zero (R200). -/
def lowestSetBit (v : Word) : Option BitPos :=
  ((List.range 32).find? fun i => v.getLsbD i).map (BitVec.ofNat 5)

/-- The position of the most-significant set bit, none for zero (R201). -/
def highestSetBit (v : Word) : Option BitPos :=
  ((List.range 32).reverse.find? fun i => v.getLsbD i).map (BitVec.ofNat 5)

/-- The scan a command or DECBAR asks for (R200, R201). -/
def bitScan (which : Scan) (v : Word) : Option BitPos :=
  match which with
  | .lsb => lowestSetBit v
  | .msb => highestSetBit v

/-! ## Device descriptors (R225, R227, R29) -/

/-- The slots in ascending order with their indices (R224, R227). -/
def Bars.indexed (b : Bars) : List (BarIdx × DecodeResult) :=
  [(0, b.bar0), (1, b.bar1), (2, b.bar2), (3, b.bar3), (4, b.bar4), (5, b.bar5)]

/-- The base of an Io result (R225). -/
def DecodeResult.ioBase? : DecodeResult → Option Word
  | .io base => some base
  | .absent | .unused | .mem32 _ _ | .memUnsized _ _ | .malformed _ => none

/-- portBase: the base of the lowest-indexed slot whose result is Io (R225, C6). -/
def Bars.portBase (b : Bars) : Option Word := b.indexed.findSome? fun p => p.2.ioBase?

/-- The descriptor of a present function (R220). -/
def describe (id : IdRecord) (bars : Bars) : DeviceDescriptor := ⟨id, bars, bars.portBase⟩

/-- Bar events of a function: one per slot that is not Absent, ascending (R227, D34). -/
def barEvents (id : IdRecord) (bars : Bars) : List Event :=
  (bars.indexed.filter fun p => p.2 != .absent).map fun p => .bar id.bus id.dev id.fn p.1 p.2

/-- NFN from the multi-function flag: 8 if set, else 1 (R220). -/
def fnCount (mf : Bool) : FnCount := if mf then .eight else .one

/-- The functions to probe, ascending (R220, R222). -/
def FnCount.fns : FnCount → List Fn
  | .one => [0]
  | .eight => [0, 1, 2, 3, 4, 5, 6, 7]

/-- NFN as a number (R30). -/
def FnCount.toNat : FnCount → Nat
  | .one => 1
  | .eight => 8

/-- Buses 0 to 255, ascending (R222). -/
def allBuses : List Bus := (List.range 256).map (BitVec.ofNat 8)

/-- Devices 0 to 31, ascending (R222). -/
def allDevs : List Dev := (List.range 32).map (BitVec.ofNat 5)

end Sys2Proof.Machine
end

