-- ==== Sys2Proof/Machine/Ops.lean ====
section
/-! DEFINITION. The named operations: bytes and dwords of configuration space (R51, R52), the backend (R31), the port
target's transactions (R110 to R114), the engine's register accesses (R116 to R119), how a command ends, faults and is
refused (R22, R250, R251), and reset (R280). -/

namespace Sys2Proof.Machine

/-! ## Bytes of configuration space -/

/-- The number of byte addresses of configuration space: 256 * 32 * 8 * 256 (R51). -/
def cfgBytes : Nat := 16777216

/-- What an unlisted address reads as: 0 (95: "an unlisted V[k] or W[k] is 0"; log 4). -/
def unlistedByte : Byte := 0#8

/-- The canonical form from address `lo` on: addresses strictly rise and stay below 2^24, and no listed byte is what
an unlisted address reads as. -/
def Memory.wfFrom (lo : Nat) : Memory → Bool
  | [] => true
  | (a, v) :: rest => lo ≤ a && a < cfgBytes && v != unlistedByte && Memory.wfFrom (a + 1) rest

/-- The canonical form of a memory, so that equal contents are equal lists. -/
def Memory.wf (m : Memory) : Bool := Memory.wfFrom 0 m

/-- The byte at an address. -/
def Memory.readByte : Memory → Nat → Byte
  | [], _ => unlistedByte
  | (b, v) :: rest, a => if a = b then v else Memory.readByte rest a

/-- The memory with the byte at `a` set to `v`; writing what an unlisted address reads as removes the entry. -/
def Memory.writeByte : Memory → Nat → Byte → Memory
  | [], a, v => if v = unlistedByte then [] else [(a, v)]
  | (b, w) :: rest, a, v =>
    if a < b then
      if v = unlistedByte then (b, w) :: rest else (a, v) :: (b, w) :: rest
    else if a = b then
      if v = unlistedByte then rest else (a, v) :: rest
    else (b, w) :: Memory.writeByte rest a v

/-- The dword at a dword-aligned address, least significant byte first (R52). -/
def Memory.readDword (m : Memory) (a : Nat) : Word :=
  m.readByte (a + 3) ++ m.readByte (a + 2) ++ m.readByte (a + 1) ++ m.readByte a

/-- The memory with the dword at a dword-aligned address set to `v`, least significant byte first (R52). -/
def Memory.writeDword (m : Memory) (a : Nat) (v : Word) : Memory :=
  (((m.writeByte a (v.extractLsb' 0 8)).writeByte (a + 1) (v.extractLsb' 8 8)).writeByte (a + 2)
    (v.extractLsb' 16 8)).writeByte (a + 3) (v.extractLsb' 24 8)

/-- The address of dword k of (bus, dev, fn): ((bus*32 + dev)*8 + fn)*256 + 4*k (R51). -/
def cfgAddr (bus : Bus) (dev : Dev) (fn : Fn) (k : DwordNo) : Nat :=
  ((bus.toNat * 32 + dev.toNat) * 8 + fn.toNat) * 256 + 4 * k.toNat

/-! ## The backend -/

/-- What the reference backend answers for an absent function (R31). -/
def absentRead : Word := 0xFFFFFFFF#32

/-- Bits of v where the mask is set, bits of old elsewhere (R31's write rule). -/
def mergeMasked (old mask v : Word) : Word := (old &&& ~~~mask) ||| (v &&& mask)

/-- CfgRead(b, d, f, k): what the backend answers (R31, R61). -/
def Backend.read (c : Backend) (bus : Bus) (dev : Dev) (fn : Fn) (k : DwordNo) : Word :=
  match c with
  | .platform log => Config.cfgRead log bus dev fn k
  | .reference present values _ =>
    if ⟨bus, dev, fn⟩ ∈ present then values.readDword (cfgAddr bus dev fn k) else absentRead

/-- The backend after a read: a read of one of R33's dwords changes nothing; a read of another dword of the platform's may
(R58, log 3). -/
def Backend.afterRead (c : Backend) (bus : Bus) (dev : Dev) (fn : Fn) (k : DwordNo) : Backend :=
  match c with
  | .platform log => if repeatableDword k then .platform log else .platform (.read bus dev fn k :: log)
  | .reference present values masks => .reference present values masks

/-- CfgWrite(b, d, f, k, v): the backend after a write (R31). -/
def Backend.write (c : Backend) (bus : Bus) (dev : Dev) (fn : Fn) (k : DwordNo) (v : Word) : Backend :=
  match c with
  | .platform log => .platform (.write bus dev fn k v :: log)
  | .reference present values masks =>
    if ⟨bus, dev, fn⟩ ∈ present then
      let a := cfgAddr bus dev fn k
      .reference present (values.writeDword a (mergeMasked (values.readDword a) (masks.readDword a) v)) masks
    else .reference present values masks

/-- The backend after a reset of the block: the block does not reset it, and of the platform's nothing is assumed
(R280, log 14). -/
def Backend.afterReset (c : Backend) : Backend :=
  match c with
  | .platform log => .platform (.reset :: log)
  | .reference present values masks => .reference present values masks

/-- The reference backend's memories are canonical; the platform's state has no form to keep. -/
def Backend.wf : Backend → Bool
  | .platform _ => true
  | .reference _ values masks => values.wf && masks.wf

/-! ## The port target (R110 to R114) -/

/-- OUTL_ADDR: CA <- a, and one TR record (R111). -/
def State.outlAddr (s : State) (a : Word) : State :=
  { s with ca := a, tr := s.tr ++ [⟨.outlAddr, a⟩] }

/-- A data access is admitted while CA[31] = 1 (R112, R113). -/
def State.dataEnabled (s : State) : Bool := caEnable s.ca

/-- What the dword CA selects reads as (R112). -/
def State.selected (s : State) : Word :=
  s.cfg.read (caBus s.ca) (caDev s.ca) (caFn s.ca) (caDword s.ca)

/-- INL_DATA, admitted: the selected dword is returned and recorded (R112, R110). -/
def State.inlData (s : State) : State :=
  { s with
    cfg := s.cfg.afterRead (caBus s.ca) (caDev s.ca) (caFn s.ca) (caDword s.ca)
    tr := s.tr ++ [⟨.inlData, s.selected⟩] }

/-- OUTL_DATA, admitted: v is handed to the selected dword and recorded (R113, R110). -/
def State.outlData (s : State) (v : Word) : State :=
  { s with
    cfg := s.cfg.write (caBus s.ca) (caDev s.ca) (caFn s.ca) (caDword s.ca) v
    tr := s.tr ++ [⟨.outlData, v⟩] }

/-! ## How a command ends (R22, R250, R251) -/

/-- The engine leaves its command: MODE <- IDLE (R22). -/
def State.leave (s : State) : State := { s with mode := .idle, got := [] }

/-- `return r`: RES <- r and the engine is idle (R14, R22). -/
def State.finish (s : State) (r : Result) : State := { s.leave with res := some r }

/-- Setting REFUSED with its record, the one operation every refusal goes through (R34, R250, R114). -/
def State.setRefused (s : State) (r : RefusalRecord) : State := { s with refused := some r }

/-- `raise BitScanZero(which)`: FAULT is set with (cause, info, CMD), RES stays, the engine is idle (R251, R252). -/
def State.raise (s : State) (which : Scan) : State :=
  { s.leave with fault := some ⟨.bitScanZero, which, s.cmd⟩ }

/-- Refusal of a command word: REFUSED with the word, no transaction, RES stays, the engine is idle (R250). -/
def State.refuseCommand (s : State) (w : CommandWord) : State := s.leave.setRefused (.illegalCommand w)

/-- The datum of a transaction: a write carries one, a read does not (R87, log 10). -/
def portDatum (d : Descriptor) (data : Word) : Option Word := if descIsWrite d then some data else none

/-- Refusal of a port transaction by the port target: REFUSED with descriptor, datum and CA; no backend effect, no TR
record (R114). MODE is the engine's and stays (log 11). -/
def State.refusePort (s : State) (d : Descriptor) (data : Word) : State :=
  s.setRefused (.unadmittedPortAccess d (portDatum d data) s.ca)

/-- The engine's own transaction refused: the command stops there (R22, R114). It takes a foreign OUTL_ADDR, outside R283's
premise (log 11). -/
def State.refuseEngine (s : State) (d : Descriptor) (data : Word) : State := (s.refusePort d data).leave

/-! ## The engine's register accesses (R116 to R119) -/

/-- SEQ moves to the next step (R24, log 7). -/
def State.advance (s : State) : State := { s with seq := s.seq + 1 }

/-- ADDRW <- the address word (R116). -/
def State.buildAddr (s : State) (bus : Bus) (dev : Dev) (fn : Fn) (off : Off) : State :=
  { s with regs := { s.regs with addrw := addrWord bus dev fn off } }

/-- The engine's step `outl(0xCF8, ADDRW)` (R118, R119). -/
def State.sendAddr (s : State) : State := (s.outlAddr s.regs.addrw).advance

/-- DATA <- v (R25). -/
def State.latchData (s : State) (v : Word) : State := { s with regs := { s.regs with data := v } }

/-- The engine's step `DATA <- inl(0xCFC)` (R118). -/
def State.takeData (s : State) : State := (s.inlData.latchData s.selected).advance

/-- The engine's step `outl(0xCFC, v)` (R119). -/
def State.giveData (s : State) (v : Word) : State := (s.outlData v).advance

/-- The two transactions of a register read (R118, R121). -/
def State.readReg (s : State) (bus : Bus) (dev : Dev) (fn : Fn) (off : Off) : State :=
  (s.buildAddr bus dev fn off).sendAddr.takeData

/-- CFGRD's value: DATA >> (8 * (off % 4)), logical, no masking of width (R118). -/
def State.readValue (s : State) (off : Off) : Word := s.regs.data >>> subwordShift off

/-- The two transactions of a register write, value unshifted (R119, R121). -/
def State.writeReg (s : State) (bus : Bus) (dev : Dev) (fn : Fn) (off : Off) (v : Word) : State :=
  (s.buildAddr bus dev fn off).sendAddr.giveData v

/-! ## The command interface and reset -/

/-- The host writes CMD: MODE <- BUSY and SEQ starts at 0 (R22, R23, R24). -/
def State.writeCmd (s : State) (w : CommandWord) : State :=
  { s with cmd := w, mode := .busy, seq := 0, got := [] }

/-- A reset event: every piece of the block's state takes its value of R37, a running command is abandoned, configuration
space is not reset by the block, and CA is drawn afresh (R280, R281, log 14). -/
def State.resetBlock (s : State) : State :=
  { State.reset with
    ca := Config.caReset (s.resets + 1)
    cfg := s.cfg.afterReset
    inputs := s.inputs
    resets := s.resets + 1 }

end Sys2Proof.Machine
end

