-- ==== Sys2Proof/Machine/Prog.lean ====
section
/-! DEFINITION. The form in which the commands' pseudocode is written, and its two readings: `run` carries a command out
from start to end, and `settle`, `resume` and `stepAt` carry out one sequencer step (R24, R61). -/

namespace Sys2Proof.Machine

/-- The internal assignments of the pseudocode: they take no sequencer step (R160, R220). -/
inductive Assign
  | ht (v : BitVec 7)
  | maxbar (v : BitVec 3)
  | raw (v : Word)
  | save (v : Word)
  | rb (v : Word)
  | lo (p : BitPos)
  | hi (p : BitPos)
  | probeOpen (b : Bool)
  | busc (b : Bus)
  | devc (d : Dev)
  | fnc (f : Fn)
  | nfn (n : FnCount)
  | barc (i : Fin 6)
  /-- DEVCOUNT <- 0; DEVLIST <- [] (R221), and the whole cursor is set (R30). -/
  | startSweep
  /-- emit Device and Bar events, append to DEVLIST, count one more (R220, R227). -/
  | report (id : IdRecord) (bars : Bars)
  /-- emit Total(DEVCOUNT) (R220). -/
  | total

/-- The enumeration state at the start of a sweep: none of the old one is left. DEVCOUNT and DEVLIST are R221's, BUSC and DEVC
the first values of R220's loops; FNC, NFN and BARC, which R30 has ENUM set and no rule gives a value, are free (log 25). -/
def State.sweepStart (s : State) : Sweep where
  busc := 0
  devc := 0
  fnc := Config.sweepFnc s.resets s.tr.length
  nfn := fnCount (Config.sweepNfn s.resets s.tr.length)
  barc := Config.sweepBarc s.resets s.tr.length
  devCount := 0
  devList := []

/-- The state after an assignment. -/
def State.assign (s : State) : Assign → State
  | .ht v => { s with regs := { s.regs with ht := v } }
  | .maxbar v => { s with regs := { s.regs with maxbar := v } }
  | .raw v => { s with regs := { s.regs with raw := v } }
  | .save v => { s with regs := { s.regs with save := v } }
  | .rb v => { s with regs := { s.regs with rb := v } }
  | .lo p => { s with regs := { s.regs with lo := p } }
  | .hi p => { s with regs := { s.regs with hi := p } }
  | .probeOpen b => { s with probeOpen := b }
  | .busc b => { s with sweep := { s.sweep with busc := b } }
  | .devc d => { s with sweep := { s.sweep with devc := d } }
  | .fnc f => { s with sweep := { s.sweep with fnc := f } }
  | .nfn n => { s with sweep := { s.sweep with nfn := n } }
  | .barc i => { s with sweep := { s.sweep with barc := i } }
  | .startSweep => { s with sweep := s.sweepStart }
  | .report id bars =>
    { s with
      evt := s.evt ++ .device (describe id bars) :: barEvents id bars
      sweep := { s.sweep with
        devCount := s.sweep.devCount + 1
        devList := s.sweep.devList ++ [describe id bars] } }
  | .total => { s with evt := s.evt ++ [.total s.sweep.devCount] }

/-- Where the value of a register write comes from. -/
inductive Source
  /-- an operand or a constant -/
  | value (v : Word)
  /-- register SAVE, for the restoring write (R25, R166) -/
  | save

/-- The value written. -/
def Source.get (src : Source) (s : State) : Word :=
  match src with
  | .value v => v
  | .save => s.regs.save

/-- A command's pseudocode from one point on. A locals' value (t, id, bars, RAW, …) is bound by the continuation; a
register assignment stands beside it as `set` (log 13). -/
inductive Prog
  /-- `return r` -/
  | ret (r : State → Result)
  /-- an assignment, then the rest -/
  | set (a : Assign) (k : Prog)
  /-- `x <- CFGRD(bus, dev, fn, off)`: two sequencer steps (R118) -/
  | rd (bus : Bus) (dev : Dev) (fn : Fn) (off : Off) (k : Word → Prog)
  /-- `CFGWR(bus, dev, fn, off, v)`: two sequencer steps (R119) -/
  | wr (bus : Bus) (dev : Dev) (fn : Fn) (off : Off) (src : Source) (k : Prog)
  /-- `p <- LSB(v)` or `MSB(v)`: one sequencer step; raises BitScanZero when v = 0 (R200 to R202) -/
  | scan (which : Scan) (v : Word) (k : BitPos → Prog)

/-! ## From start to end -/

/-- The command carried out with no other agent at the ports (R283). Its own data accesses are never refused, because every
address word it sends has E = 1 (R114). -/
def Prog.run : Prog → State → State
  | .ret r, s => s.finish (r s)
  | .set a k, s => k.run (s.assign a)
  | .rd bus dev fn off k, s => (k ((s.readReg bus dev fn off).readValue off)).run (s.readReg bus dev fn off)
  | .wr bus dev fn off src k, s => k.run (s.writeReg bus dev fn off (src.get s))
  | .scan which v k, s =>
    match bitScan which v with
    | none => s.raise which
    | some p => (k p).run s.advance

/-! ## One sequencer step at a time -/

/-- The internal assignments up to the next sequencer step, or the command's end. -/
def Prog.settle : Prog → State → State
  | .ret r, s => s.finish (r s)
  | .set a k, s => k.settle (s.assign a)
  | .rd _ _ _ _ _, s => s
  | .wr _ _ _ _ _ _, s => s
  | .scan _ _ _, s => s

/-- The step that SEQ names: the access or scan it belongs to, and whether the access's OUTL_ADDR is already done. `n`
steps have been taken and the data read so far are `got`, no more and no fewer than those steps read. -/
def Prog.resume : Prog → Nat → List Word → Option (Prog × Bool)
  | .ret _, _, _ => none
  | .set _ k, n, got => k.resume n got
  | .rd bus dev fn off k, n, got =>
    match n, got with
    | 0, [] => some (.rd bus dev fn off k, false)
    | 1, [] => some (.rd bus dev fn off k, true)
    | n + 2, v :: got => (k (v >>> subwordShift off)).resume n got
    | 0, _ :: _ => none
    | 1, _ :: _ => none
    | _ + 2, [] => none
  | .wr bus dev fn off src k, n, got =>
    match n, got with
    | 0, [] => some (.wr bus dev fn off src k, false)
    | 1, [] => some (.wr bus dev fn off src k, true)
    | n + 2, got => k.resume n got
    | 0, _ :: _ => none
    | 1, _ :: _ => none
  | .scan which v k, n, got =>
    match n, got with
    | 0, [] => some (.scan which v k, false)
    | n + 1, got =>
      match bitScan which v with
      | none => none
      | some p => (k p).resume n got
    | 0, _ :: _ => none

/-- The running command's locals take in one more datum (log 12). -/
def State.pushGot (s : State) (v : Word) : State := { s with got := s.got ++ [v] }

/-- One sequencer step: a port transaction or a bit scan, with the assignments that follow it. A data access is refused
while CA[31] = 0 (R112, R113, log 11). -/
def Prog.stepAt (p : Prog) (addressed : Bool) (s : State) : State :=
  match p, addressed with
  | .rd bus dev fn off _, false => (s.buildAddr bus dev fn off).sendAddr
  | .rd _ _ _ off k, true =>
    if s.dataEnabled then
      (k (s.takeData.readValue off)).settle (s.takeData.pushGot s.selected)
    else s.refuseEngine inlDataDesc 0
  | .wr bus dev fn off _ _, false => (s.buildAddr bus dev fn off).sendAddr
  | .wr _ _ _ _ src k, true =>
    if s.dataEnabled then k.settle (s.giveData (src.get s)) else s.refuseEngine outlDataDesc (src.get s)
  | .scan which v k, _ =>
    match bitScan which v with
    | none => s.raise which
    | some q => (k q).settle s.advance
  | .ret r, _ => s.finish (r s)
  | .set a k, _ => k.settle (s.assign a)

end Sys2Proof.Machine
end

