-- ==== Sys2Proof/Machine/Accessor.lean ====
section
/-! DEFINITION. The accessor family: OUTL_ADDR, INL_DATA, OUTL_DATA, CFGRD and CFGWR (40_accessor.md). -/

namespace Sys2Proof.Machine

/-- OUTL_ADDR: stores any value whole; never refused (R111). -/
def execOutlAddr (data : Word) (s : State) : Host.Outcome State Fault Refusal :=
  .next (s.outlAddr data)

/-- INL_DATA: refused while CA[31] = 0 (R112, R114). The value returned to the issuing agent is in the TR record (log 16). -/
def execInlData (s : State) : Host.Outcome State Fault Refusal :=
  .next (if s.dataEnabled then s.inlData else s.refusePort inlDataDesc 0)

/-- OUTL_DATA: refused while CA[31] = 0 (R113, R114). -/
def execOutlData (data : Word) (s : State) : Host.Outcome State Fault Refusal :=
  .next (if s.dataEnabled then s.outlData data else s.refusePort outlDataDesc data)

/-- CFGRD's pseudocode (R118). -/
def progCfgrd (bus : Bus) (dev : Dev) (fn : Fn) (off : Off) : Prog :=
  .rd bus dev fn off fun v => .ret fun _ => .u32 v

/-- CFGWR's pseudocode (R119). -/
def progCfgwr (bus : Bus) (dev : Dev) (fn : Fn) (off : Off) (val : Word) : Prog :=
  .wr bus dev fn off (.value val) <| .ret fun _ => .unit

/-- CFGRD (R118). -/
def execCfgrd (bus : Bus) (dev : Dev) (fn : Fn) (off : Off) (s : State) : Host.Outcome State Fault Refusal :=
  .next ((progCfgrd bus dev fn off).run s)

/-- CFGWR (R119). -/
def execCfgwr (bus : Bus) (dev : Dev) (fn : Fn) (off : Off) (val : Word) (s : State) :
    Host.Outcome State Fault Refusal :=
  .next ((progCfgwr bus dev fn off val).run s)

end Sys2Proof.Machine
end

