-- ==== Sys2Proof/Machine/Bar.lean ====
section
/-! DEFINITION. DECBAR and its sizing probe (42_bar_decoder.md). -/

namespace Sys2Proof.Machine

/-- `p <- LSB(v)` or `MSB(v)` inside DECBAR: a step of SEQ when DECBAR is the command, none in a sweep, whose steps are its
port transactions alone (R169, R291, log 7). -/
def scanThen (counted : Bool) (which : Scan) (v : Word) (k : BitPos → Prog) : Prog :=
  if counted then .scan which v k
  else
    match bitScan which v with
    | none => .scan which v k
    | some p => k p

/-- The sizing probe of a type-0 memory BAR and the classification of its read-back (R166 to R169). PROBE_OPEN rises with
the OUTL_DATA of the sizing write and falls with the OUTL_DATA of the restoring write (R36, R167, log 8). -/
def sizingThen (counted : Bool) (bus : Bus) (dev : Dev) (fn : Fn) (off : Off) (raw : Word) (pf : Bool)
    (k : DecodeResult → Prog) : Prog :=
  .set (.save raw) <|
  .wr bus dev fn off (.value sizingPattern) <|
  .set (.probeOpen true) <|
  .rd bus dev fn off fun readBack =>
  let rb := readBack &&& sizingPattern
  .set (.rb rb) <|
  .wr bus dev fn off .save <|
  .set (.probeOpen false) <|
  if rb = 0#32 then k (classifyZero pf)
  else
    scanThen counted .lsb rb fun lo =>
    .set (.lo lo) <|
    scanThen counted .msb rb fun hi =>
    .set (.hi hi) <|
    k (classifyNonzero pf lo hi)

/-- DECBAR's pseudocode, its result handed on: the checks in R175's order (R160 to R172). `counted` says whether its bit scans
are steps of SEQ (log 7); nothing else depends on it. -/
def decbarThen (counted : Bool) (bus : Bus) (dev : Dev) (fn : Fn) (idx : BarIdx) (k : DecodeResult → Prog) : Prog :=
  .rd bus dev fn offHeaderType fun t =>
  let ht := headerType t
  .set (.ht ht) <|
  .set (.maxbar (maxBar ht)) <|
  if maxBar ht ≤ idx then k .absent
  else
    .rd bus dev fn (barOffset idx) fun raw =>
    .set (.raw raw) <|
    if barIsIo raw then k (.io (ioBase raw))
    else
      match unsizedWidth (barType raw) with
      | some width => k (.memUnsized width (barPrefetchable raw))
      | none => sizingThen counted bus dev fn (barOffset idx) raw (barPrefetchable raw) k

/-- DECBAR as a command (R160). -/
def progDecbar (bus : Bus) (dev : Dev) (fn : Fn) (idx : BarIdx) : Prog :=
  decbarThen true bus dev fn idx fun r => .ret fun _ => .decode r

/-- DECBAR (R160). -/
def execDecbar (bus : Bus) (dev : Dev) (fn : Fn) (idx : BarIdx) (s : State) : Host.Outcome State Fault Refusal :=
  .next ((progDecbar bus dev fn idx).run s)

end Sys2Proof.Machine
end

