-- ==== Sys2Proof/Machine/BitScan.lean ====
section
/-! DEFINITION. The bit scans as commands: LSB and MSB (43_bitscan.md). -/

namespace Sys2Proof.Machine

/-- LSB as a command: a zero operand raises BitScanZero(LSB) (R200, R202). -/
def progLsb (val : Word) : Prog := .scan .lsb val fun p => .ret fun _ => .bitPos p

/-- MSB as a command: a zero operand raises BitScanZero(MSB) (R201, R202). -/
def progMsb (val : Word) : Prog := .scan .msb val fun p => .ret fun _ => .bitPos p

/-- LSB (R200). -/
def execLsb (val : Word) (s : State) : Host.Outcome State Fault Refusal := .next ((progLsb val).run s)

/-- MSB (R201). -/
def execMsb (val : Word) (s : State) : Host.Outcome State Fault Refusal := .next ((progMsb val).run s)

end Sys2Proof.Machine
end

