-- ==== Sys2Proof/Machine/Probe.lean ====
section
/-! DEFINITION. The probe family: HASMF and PROBE (41_probe.md). -/

namespace Sys2Proof.Machine

/-- HASMF's pseudocode, its answer handed on: function 0 is read whether or not it is present (R140, R141). -/
def hasmfThen (bus : Bus) (dev : Dev) (k : Bool → Prog) : Prog :=
  .rd bus dev 0 offHeaderType fun t => k (multiFunction t)

/-- PROBE's pseudocode, its record handed on: seven CFGRDs in R142's order, each truncated to its width (R142, R143). -/
def probeThen (bus : Bus) (dev : Dev) (fn : Fn) (k : IdRecord → Prog) : Prog :=
  .rd bus dev fn offVendorId fun vendor =>
  .rd bus dev fn offDeviceId fun device =>
  .rd bus dev fn offRevision fun revision =>
  .rd bus dev fn offInterfaceId fun interface =>
  .rd bus dev fn offSubclassId fun subclass =>
  .rd bus dev fn offClassId fun cls =>
  .rd bus dev fn offInterruptLine fun line =>
  k { bus := bus
      dev := dev
      fn := fn
      vendorId := trunc16 vendor
      deviceId := trunc16 device
      classId := trunc8 cls
      subclassId := trunc8 subclass
      interfaceId := trunc8 interface
      revision := trunc8 revision
      interruptLine := trunc8 line }

/-- HASMF as a command (R140). -/
def progHasmf (bus : Bus) (dev : Dev) : Prog :=
  hasmfThen bus dev fun b => .ret fun _ => .bool b

/-- PROBE as a command (R142). -/
def progProbe (bus : Bus) (dev : Dev) (fn : Fn) : Prog :=
  probeThen bus dev fn fun r => .ret fun _ => .idRecord r

/-- HASMF (R140). -/
def execHasmf (bus : Bus) (dev : Dev) (s : State) : Host.Outcome State Fault Refusal :=
  .next ((progHasmf bus dev).run s)

/-- PROBE (R142). -/
def execProbe (bus : Bus) (dev : Dev) (fn : Fn) (s : State) : Host.Outcome State Fault Refusal :=
  .next ((progProbe bus dev fn).run s)

end Sys2Proof.Machine
end

