-- ==== Sys2Proof/Machine/Enumeration.lean ====
section
/-! DEFINITION. ENUM, the full sweep (44_enumeration.md). -/

namespace Sys2Proof.Machine

/-- `for x in xs: body`, then `k`; the body gets what follows it, so that `continue` is that rest. -/
def forEach {α : Type} (xs : List α) (body : α → Prog → Prog) (k : Prog) : Prog := xs.foldr body k

/-- `bars[BARC] <- DECBAR(BUSC, DEVC, FNC, BARC)` for one slot (R224); a sweep's bit scans are no steps of SEQ (R291, log 7). -/
def slotThen (bus : Bus) (dev : Dev) (fn : Fn) (barc : Fin 6) (k : DecodeResult → Prog) : Prog :=
  .set (.barc barc) <| decbarThen false bus dev fn (BitVec.ofNat 3 barc.val) k

/-- The six slots in ascending order (R224). -/
def barsThen (bus : Bus) (dev : Dev) (fn : Fn) (k : Bars → Prog) : Prog :=
  slotThen bus dev fn 0 fun r0 =>
  slotThen bus dev fn 1 fun r1 =>
  slotThen bus dev fn 2 fun r2 =>
  slotThen bus dev fn 3 fun r3 =>
  slotThen bus dev fn 4 fun r4 =>
  slotThen bus dev fn 5 fun r5 =>
  k ⟨r0, r1, r2, r3, r4, r5⟩

/-- One function: PROBE; an absent function is skipped, a present one has its slots decoded and is reported (R223, R224,
R227). -/
def sweepFn (bus : Bus) (dev : Dev) (fn : Fn) (rest : Prog) : Prog :=
  .set (.fnc fn) <|
  probeThen bus dev fn fun id =>
  if id.present then barsThen bus dev fn fun bars => .set (.report id bars) rest else rest

/-- One device: HASMF once, then its functions in ascending order (R222, R232). -/
def sweepDev (bus : Bus) (dev : Dev) (rest : Prog) : Prog :=
  .set (.devc dev) <|
  hasmfThen bus dev fun mf =>
  .set (.nfn (fnCount mf)) <|
  forEach (fnCount mf).fns (sweepFn bus dev) rest

/-- One bus: its devices in ascending order (R222). -/
def sweepBus (bus : Bus) (rest : Prog) : Prog :=
  .set (.busc bus) <| forEach allDevs (sweepDev bus) rest

/-- ENUM's pseudocode (R220). -/
def progEnum : Prog :=
  .set .startSweep <|
  forEach allBuses sweepBus <|
  .set .total <|
  .ret fun s => .sweep s.sweep.devList s.sweep.devCount

/-- ENUM (R220). -/
def execEnum (s : State) : Host.Outcome State Fault Refusal := .next (progEnum.run s)

end Sys2Proof.Machine
end

