-- ==== Sys2Proof/Machine/Dispatch.lean ====
section
/-! DEFINITION. One arm per instruction. -/

namespace Sys2Proof.Machine

def exec (i : Instr) (s : State) : Host.Outcome State Fault Refusal :=
  match i with
  | .cfgrd bus dev fn off => Sys2Proof.Machine.execCfgrd bus dev fn off s
  | .cfgwr bus dev fn off val => Sys2Proof.Machine.execCfgwr bus dev fn off val s
  | .hasmf bus dev => Sys2Proof.Machine.execHasmf bus dev s
  | .probe bus dev fn => Sys2Proof.Machine.execProbe bus dev fn s
  | .decbar bus dev fn idx => Sys2Proof.Machine.execDecbar bus dev fn idx s
  | .lsb val => Sys2Proof.Machine.execLsb val s
  | .msb val => Sys2Proof.Machine.execMsb val s
  | .enum => Sys2Proof.Machine.execEnum s
  | .outlAddr data => Sys2Proof.Machine.execOutlAddr data s
  | .inlData => Sys2Proof.Machine.execInlData s
  | .outlData data => Sys2Proof.Machine.execOutlData data s

end Sys2Proof.Machine
end

