-- ==== Sys2Proof/Machine/Sequencer.lean ====
section
/-! DEFINITION. The engine's sequencer: the command in CMD one step at a time, each step a port transaction or a bit scan,
so that other events can land between two steps (R22, R24, R57, R62). -/

namespace Sys2Proof.Machine

/-- The pseudocode of a command; the three port transactions are the port target's and have none (R110). -/
def program : Instr → Option Prog
  | .cfgrd bus dev fn off => some (progCfgrd bus dev fn off)
  | .cfgwr bus dev fn off val => some (progCfgwr bus dev fn off val)
  | .hasmf bus dev => some (progHasmf bus dev)
  | .probe bus dev fn => some (progProbe bus dev fn)
  | .decbar bus dev fn idx => some (progDecbar bus dev fn idx)
  | .lsb val => some (progLsb val)
  | .msb val => some (progMsb val)
  | .enum => some progEnum
  | .outlAddr _ => none
  | .inlData => none
  | .outlData _ => none

/-- The pseudocode of the command word in CMD (R23, R91). -/
def State.currentProg (s : State) : Option Prog :=
  match decodeCommand s.cmd with
  | .error _ => none
  | .ok i => program i

/-- The step SEQ names in the command in CMD (R24). -/
def State.position (s : State) : Option (Prog × Bool) :=
  match s.currentProg with
  | none => none
  | some p => p.resume s.seq s.got

/-- The engine takes one step (R24). -/
def State.tick (s : State) : Host.Outcome State Fault Refusal :=
  match s.position with
  | none => .fault .sequencerLost
  | some (p, addressed) => .next (p.stepAt addressed s)

/-- The host writes a command word and the engine stands before its first step: an illegal word is refused at once (R250),
and the assignments before the first step are made (R221). -/
def State.issue (s : State) (w : CommandWord) : State :=
  match decodeCommand w with
  | .error _ => (s.writeCmd w).refuseCommand w
  | .ok i =>
    match program i with
    | none => (s.writeCmd w).refuseCommand w
    | some p => p.settle (s.writeCmd w)

end Sys2Proof.Machine
end

