-- ==== Sys2Proof/Machine/Interface.lean ====
section
/-! DEFINITION. The command interface and the port interface (R5): how the outside's next input is taken in. -/

namespace Sys2Proof.Machine

/-- The host writes a command word and no other agent touches the ports until the engine is idle again (R22, R283): an
illegal word is refused (R250), a legal one is carried out. -/
def State.runCommand (s : State) (w : CommandWord) : Host.Outcome State Fault Refusal :=
  match decodeCommand w with
  | .error _ => .next ((s.writeCmd w).refuseCommand w)
  | .ok i => exec i (s.writeCmd w)

/-- A transaction arrives at the port target: one of the admitted three is performed, any other refused (R110, R114). -/
def State.runPort (s : State) (d : Descriptor) (data : Word) : Host.Outcome State Fault Refusal :=
  match decodePort d data with
  | .error _ => .next (s.refusePort d data)
  | .ok i => exec i s

/-- The machine's step. While the engine is BUSY a host's write of CMD is held and the engine moves (R22, R290); a foreign
port transaction or a reset lands where it stands in the list of inputs (R62, R280); with nothing to come, the engine goes
on or idles (R265, R291). -/
def nextStep (s : State) : Host.Outcome State Fault Refusal :=
  match s.inputs, s.mode with
  | [], .idle => .next s
  | [], .busy => s.tick
  | .command w :: rest, .idle => State.runCommand { s with inputs := rest } w
  | .command _ :: _, .busy => s.tick
  | .issue w :: rest, .idle => .next (State.issue { s with inputs := rest } w)
  | .issue _ :: _, .busy => s.tick
  | .port d data :: rest, _ => State.runPort { s with inputs := rest } d data
  | .turn :: rest, .idle => .next { s with inputs := rest }
  | .turn :: rest, .busy => State.tick { s with inputs := rest }
  | .reset :: rest, _ => .next (State.resetBlock { s with inputs := rest })

/-- The input an encoding arrives as. -/
def inputOf : Encoding → Input
  | .command w => .command w
  | .transaction d data => .port d data

/-- The state with a table word as the very next input, the engine idle so that nothing holds it (log 1, log 17). -/
def State.place (s : State) (nbits w : Nat) : State :=
  match tableEncoding nbits w with
  | none => s
  | some e => { s with mode := .idle, inputs := inputOf e :: s.inputs }

end Sys2Proof.Machine
end

