-- ==== Sys2Proof/Machine/Assembler.lean ====
section
/-! DEFINITION. The assembler: from a line of text to a statement, from a statement to an instruction, and what the host
makes of a result (R94 to R96, R115). -/

namespace Sys2Proof.Machine

/-! ## Statements to instructions -/

/-- An instruction over (bus, dev, fn, off) from integer arguments, masked (R94, R115). -/
def withArgs (bus dev fn off : Nat) (mk : Bus → Dev → Fn → Off → Instr) : Instr :=
  let (b, d, f, o) := maskArgs bus dev fn off
  mk b d f o

/-- The instruction a well-formed statement stands for, its pseudo-instructions expanded (R94 to R96). -/
def Asm.expand : Asm → Instr
  | .cfgrd bus dev fn off => withArgs bus dev fn off .cfgrd
  | .cfgwr bus dev fn off val => withArgs bus dev fn off fun b d f o => .cfgwr b d f o (BitVec.ofNat 32 val)
  | .hasmf bus dev => withArgs bus dev 0 0 fun b d _ _ => .hasmf b d
  | .probe bus dev fn => withArgs bus dev fn 0 fun b d f _ => .probe b d f
  | .decbar bus dev fn idx => withArgs bus dev fn 0 fun b d f _ => .decbar b d f (BitVec.ofNat 3 idx)
  | .lsb val => .lsb (BitVec.ofNat 32 val)
  | .msb val => .msb (BitVec.ofNat 32 val)
  | .enum => .enum
  | .outl port val =>
    if port = 0xCF8 then .outlAddr (BitVec.ofNat 32 val) else .outlData (BitVec.ofNat 32 val)
  | .inl _ => .inlData
  | .cfgrd8 bus dev fn off => withArgs bus dev fn off .cfgrd
  | .cfgrd16 bus dev fn off => withArgs bus dev fn off .cfgrd
  | .cfgrd32 bus dev fn off => withArgs bus dev fn off fun b d f o => .cfgrd b d f (o &&& 0xFC#8)
  | .cfgwr32 bus dev fn off val =>
    withArgs bus dev fn off fun b d f o => .cfgwr b d f (o &&& 0xFC#8) (BitVec.ofNat 32 val)

/-- Assembling: an ill-formed statement is refused (R94, D33). -/
def assemble (a : Asm) : Option Encoding :=
  if a.wellFormed then some (encode (Asm.expand a)) else none

/-- What the host makes of RES: cfgrd8 and cfgrd16 truncate it (R96). -/
def hostResult (a : Asm) (r : Result) : Result :=
  match a, r with
  | .cfgrd8 _ _ _ _, .u32 v => .u32 ((trunc8 v).setWidth 32)
  | .cfgrd16 _ _ _ _, .u32 v => .u32 ((trunc16 v).setWidth 32)
  | _, r => r

/-! ## Lines to statements (R94, R95; what they leave open is log 22) -/

/-- The value of a digit below `base`. -/
def digitValue (base : Nat) (c : Char) : Option Nat :=
  let n := c.toNat
  let d := if 48 ≤ n ∧ n ≤ 57 then n - 48 else if 97 ≤ n ∧ n ≤ 102 then n - 87 else if 65 ≤ n ∧ n ≤ 70 then n - 55 else base
  if d < base then some d else none

/-- The value of a digit string read on from `acc`. -/
def digitsFrom (base acc : Nat) : List Char → Option Nat
  | [] => some acc
  | c :: cs =>
    match digitValue base c with
    | none => none
    | some d => digitsFrom base (acc * base + d) cs

/-- A number: decimal, or hexadecimal after `0x` (R94). -/
def parseNumber : List Char → Option Nat
  | '0' :: 'x' :: c :: cs => digitsFrom 16 0 (c :: cs)
  | c :: cs => digitsFrom 10 0 (c :: cs)
  | [] => none

/-- The pieces between commas. -/
def splitCommas : List Char → List (List Char)
  | [] => [[]]
  | ',' :: cs => [] :: splitCommas cs
  | c :: cs =>
    match splitCommas cs with
    | [] => [[c]]
    | p :: ps => (c :: p) :: ps

/-- Characters without the spaces before and after them. -/
def trimSpaces (cs : List Char) : List Char :=
  ((cs.dropWhile (· == ' ')).reverse.dropWhile (· == ' ')).reverse

/-- Operands are separated by commas (R94). DESIGN CHOICE (log 22), R94 being silent on white space: spaces around an operand
do not count, and a space inside a number is no digit, so that the line is refused. -/
def parseOperands (cs : List Char) : Option (List Nat) :=
  match trimSpaces cs with
  | [] => some []
  | ds => ((splitCommas ds).map trimSpaces).mapM parseNumber

/-- A statement from its lower-case mnemonic and its operands (R94 to R96). -/
def statementOf (mn : List Char) (ops : List Nat) : Option Asm :=
  match mn, ops with
  | ['c', 'f', 'g', 'r', 'd'], [b, d, f, o] => some (.cfgrd b d f o)
  | ['c', 'f', 'g', 'w', 'r'], [b, d, f, o, v] => some (.cfgwr b d f o v)
  | ['h', 'a', 's', 'm', 'f'], [b, d] => some (.hasmf b d)
  | ['p', 'r', 'o', 'b', 'e'], [b, d, f] => some (.probe b d f)
  | ['d', 'e', 'c', 'b', 'a', 'r'], [b, d, f, i] => some (.decbar b d f i)
  | ['l', 's', 'b'], [v] => some (.lsb v)
  | ['m', 's', 'b'], [v] => some (.msb v)
  | ['e', 'n', 'u', 'm'], [] => some .enum
  | ['o', 'u', 't', 'l'], [p, v] => some (.outl p v)
  | ['i', 'n', 'l'], [p] => some (.inl p)
  | ['c', 'f', 'g', 'r', 'd', '8'], [b, d, f, o] => some (.cfgrd8 b d f o)
  | ['c', 'f', 'g', 'r', 'd', '1', '6'], [b, d, f, o] => some (.cfgrd16 b d f o)
  | ['c', 'f', 'g', 'r', 'd', '3', '2'], [b, d, f, o] => some (.cfgrd32 b d f o)
  | ['c', 'f', 'g', 'w', 'r', '3', '2'], [b, d, f, o, v] => some (.cfgwr32 b d f o v)
  | _, _ => none

/-- A line of assembly: mnemonic, then operands (R94, R95). -/
def parseLine (line : List Char) : Option Asm :=
  match parseOperands (line.dropWhile (· != ' ')) with
  | none => none
  | some ops => statementOf (line.takeWhile (· != ' ')) ops

/-- A line to its encoding. -/
def assembleLine (line : List Char) : Option Encoding :=
  match parseLine line with
  | none => none
  | some a => assemble a

end Sys2Proof.Machine
end

