-- ==== Sys2Proof/Safety.lean ====
section
/-! DEFINITION. What counts as a good state, the invariant every step keeps, and the frames the statements are made in. -/

namespace Sys2Proof.Machine

/-- No fault and no refusal is recorded: R251's premise on a good final state. -/
def State.good (s : State) : Bool := s.fault.isNone && s.refused.isNone

/-- While the engine is BUSY, SEQ names a step of the command in CMD (R24). -/
def State.placed (s : State) : Bool := s.mode == .idle || s.position.isSome

/-- No foreign port transaction and no reset arrives at this step (R283, R284). -/
def State.undisturbed (s : State) : Bool :=
  match s.inputs with
  | .port _ _ :: _ | .reset :: _ => false
  | [] | .command _ :: _ | .issue _ :: _ | .turn :: _ => true

/-- A FAULT record holds the one cause there is (R252). -/
def FaultRecord.genuine (r : FaultRecord) : Bool := r.cause == .bitScanZero

/-- The invariant: the memories are canonical, DEVCOUNT counts DEVLIST (R229), a descriptor's port base is that of its first
I/O slot (R225), an idle engine holds no locals, a busy one stands at a step, and only BitScanZero is ever recorded as a
fault (R252). -/
def State.Inv (s : State) : Prop :=
  s.cfg.wf = true ∧
  s.sweep.devCount = s.sweep.devList.length ∧
  (∀ d ∈ s.sweep.devList, d.portBase = d.bars.portBase) ∧
  (s.mode = .idle → s.got = []) ∧
  s.placed = true ∧
  (∀ r, s.fault = some r → r.genuine = true)

/-! ## Frames -/

/-- What no command writes, whatever it does: CMD, the marks, and what is still to come from outside. -/
def commandFrame (s t : State) : Prop :=
  t.cmd = s.cmd ∧ t.fault = s.fault ∧ t.refused = s.refused ∧ t.inputs = s.inputs ∧ t.resets = s.resets

/-- What a command other than DECBAR and ENUM leaves unchanged besides: the enumeration state, EVT, PROBE_OPEN and every
working register but ADDRW and DATA. -/
def accessFrame (s t : State) : Prop :=
  commandFrame s t ∧ t.sweep = s.sweep ∧ t.evt = s.evt ∧ t.probeOpen = s.probeOpen ∧
  t.regs = { s.regs with addrw := t.regs.addrw, data := t.regs.data }

/-- What DECBAR leaves unchanged besides: the enumeration state and EVT. -/
def decbarFrame (s t : State) : Prop :=
  commandFrame s t ∧ t.sweep = s.sweep ∧ t.evt = s.evt

/-- What DECBAR leaves in HT, MAXBAR, CA, ADDRW and DATA (R25, R116, R161): the header type and the BAR count of the function,
the address word of its last register access, at `off`, and the last dword read, `v`. -/
def decbarRegs (s t : State) (bus : Bus) (dev : Dev) (fn : Fn) (off : Off) (v : Word) : Prop :=
  t.regs.ht = (s.cfg.read bus dev fn 3).extractLsb' 16 7 ∧
  t.regs.maxbar = (if (s.cfg.read bus dev fn 3).extractLsb' 16 7 = 0 then 6 else 2) ∧
  t.ca = addrWord bus dev fn off ∧ t.regs.addrw = addrWord bus dev fn off ∧ t.regs.data = v

/-- What a bit scan leaves unchanged: everything but MODE, SEQ, RES, FAULT and the model's own locals. -/
def scanFrame (s t : State) : Prop :=
  t.ca = s.ca ∧ t.cmd = s.cmd ∧ t.regs = s.regs ∧ t.sweep = s.sweep ∧ t.refused = s.refused ∧
  t.probeOpen = s.probeOpen ∧ t.tr = s.tr ∧ t.evt = s.evt ∧ t.cfg = s.cfg ∧ t.inputs = s.inputs ∧ t.resets = s.resets

/-- The TR records of a register read: its OUTL_ADDR, then its INL_DATA (R118, R121). -/
def readRecords (bus : Bus) (dev : Dev) (fn : Fn) (off : Off) (v : Word) : List PortRecord :=
  [⟨.outlAddr, addrWord bus dev fn off⟩, ⟨.inlData, v⟩]

/-- The TR records of a register write: its OUTL_ADDR, then its OUTL_DATA (R119, R121). -/
def writeRecords (bus : Bus) (dev : Dev) (fn : Fn) (off : Off) (v : Word) : List PortRecord :=
  [⟨.outlAddr, addrWord bus dev fn off⟩, ⟨.outlData, v⟩]

/-! ## The shape of the engine's trace (R80, R121) -/

/-- An address word of R80's format: E = 1, bits 30:24 and 1:0 zero. -/
def addressFormat (a : Word) : Bool :=
  a.getLsbD 31 && a.extractLsb' 24 7 == 0#7 && a.extractLsb' 0 2 == 0#2

/-- Pairs of an OUTL_ADDR with an address word and the data transaction after it, and nothing else (R121). -/
def pairedTrace : List PortRecord → Bool
  | [] => true
  | [_] => false
  | a :: d :: rest => a.kind == .outlAddr && addressFormat a.data && d.kind != .outlAddr && pairedTrace rest

/-- The data of the OUTL_DATA records, in order. -/
def dataWritten (tr : List PortRecord) : List Word :=
  (tr.filter fun r => r.kind == .outlData).map fun r => r.data

/-! ## Order of a sweep (R222, R229) -/

/-- The place of a function in the sweep: ascending bus, then device, then function. -/
def IdRecord.place (r : IdRecord) : Nat := (r.bus.toNat * 32 + r.dev.toNat) * 8 + r.fn.toNat

/-- The event of slot `i` of a function, none when it is Absent (R227). -/
def slotEvent (id : IdRecord) (i : BarIdx) (r : DecodeResult) : List Event :=
  if r = .absent then [] else [.bar id.bus id.dev id.fn i r]

/-- The events of one reported function: its Device, then those of its six slots in ascending order (R227). -/
def deviceEvents (d : DeviceDescriptor) : List Event :=
  .device d :: slotEvent d.id 0 d.bars.bar0 ++ slotEvent d.id 1 d.bars.bar1 ++ slotEvent d.id 2 d.bars.bar2 ++
    slotEvent d.id 3 d.bars.bar3 ++ slotEvent d.id 4 d.bars.bar4 ++ slotEvent d.id 5 d.bars.bar5

/-! ## Results -/

/-- The tag R26's table gives each command's result; a port transaction has no result in RES. -/
def resultTag (i : Instr) (r : Result) : Bool :=
  match i, r with
  | .cfgrd _ _ _ _, .u32 _ => true
  | .cfgwr _ _ _ _ _, .unit => true
  | .hasmf _ _, .bool _ => true
  | .probe _ _ _, .idRecord _ => true
  | .decbar _ _ _ _, .decode _ => true
  | .lsb _, .bitPos _ => true
  | .msb _, .bitPos _ => true
  | .enum, .sweep _ _ => true
  | _, _ => false

/-- The number of steps of SEQ that are port transactions, at most, by R291's table. -/
def transactionBound : Instr → Nat
  | .cfgrd _ _ _ _ => 2
  | .cfgwr _ _ _ _ _ => 2
  | .hasmf _ _ => 2
  | .probe _ _ _ => 14
  | .decbar _ _ _ _ => 10
  | .lsb _ => 0
  | .msb _ => 0
  | .enum => 4866048
  | .outlAddr _ => 1
  | .inlData => 1
  | .outlData _ => 1

/-- The number of steps of a command, at most, by R291's table: its port transactions and the other steps the table lists. A
port transaction of the port target is no step of a command. -/
def stepBound : Instr → Nat
  | .cfgrd _ _ _ _ => 2
  | .cfgwr _ _ _ _ _ => 2
  | .hasmf _ _ => 2
  | .probe _ _ _ => 14
  | .decbar _ _ _ _ => 12
  | .lsb _ => 32
  | .msb _ => 32
  | .enum => 4866048
  | .outlAddr _ => 0
  | .inlData => 0
  | .outlData _ => 0

end Sys2Proof.Machine
end

