-- ==== Sys2Proof/Certificates/Slice0/Obligations.lean ====
section
/-! DEFINITION. The statements for the provers. -/

open Sys2Proof Sys2Proof.Machine

/-! ## Reset, decoding, the step -/

/-- R37: the values the spec gives for the state after reset; CA is the draw CA_reset. -/
def Obligations.ResetLeavesSpecifiedValues : Prop :=
  State.reset.mode = .idle ∧ State.reset.seq = 0 ∧ State.reset.res = none ∧
  State.reset.sweep.devCount = 0 ∧ State.reset.sweep.devList = [] ∧
  State.reset.fault = none ∧ State.reset.refused = none ∧ State.reset.probeOpen = false ∧
  State.reset.tr = [] ∧ State.reset.evt = [] ∧ State.reset.ca = Config.caReset 0

/-- R22, R91, R110: an idle engine takes the next command word, latches it in CMD and carries out the instruction it decodes
to; a transaction at the port target is carried out in any mode. What stands around exec: the input is used up, and the
host's write of CMD sets MODE, SEQ and the locals (log 1, log 2, log 12). -/
def Obligations.StepRunsDecodedInstruction : Prop :=
  (∀ (s : State) (w : CommandWord) (rest : List Input) (i : Instr),
    s.mode = .idle → s.inputs = .command w :: rest → decodeCommand w = .ok i →
      step s = exec i { s with inputs := rest, cmd := w, mode := .busy, seq := 0, got := [] }) ∧
  (∀ (s : State) (d : Descriptor) (v : Word) (rest : List Input) (i : Instr),
    s.inputs = .port d v :: rest → decodePort d v = .ok i → step s = exec i { s with inputs := rest })

/-- R97, R87: the encoding examples and the three descriptors decode as the spec says. -/
def Obligations.SpecEncodingExamplesDecode : Prop :=
  decodeCommand 0x0000000010011310#64 = .ok (.cfgrd 1 2 3 0x10) ∧
  decodeCommand 0xFFFFFFF020001810#64 = .ok (.cfgwr 0 3 0 0x10 0xFFFFFFF0) ∧
  decodeCommand 0x000000003000F800#64 = .ok (.hasmf 0 31) ∧
  decodeCommand 0x0000000040001100#64 = .ok (.probe 0 2 1) ∧
  decodeCommand 0x000000005A001800#64 = .ok (.decbar 0 3 0 5) ∧
  decodeCommand 0x0000001060000000#64 = .ok (.lsb 0x10) ∧
  decodeCommand 0x8000000070000000#64 = .ok (.msb 0x80000000) ∧
  decodeCommand 0x0000000080000000#64 = .ok .enum ∧
  decodePort 0x50CF8#20 0x80011310 = .ok (.outlAddr 0x80011310) ∧
  decodePort 0x40CFC#20 0 = .ok .inlData ∧
  decodePort 0x50CFC#20 1 = .ok (.outlData 1)

/-- R88, R89, R92, R87: no bit of an encoding is dropped, for any instruction and any operands. -/
def Obligations.DecodeEncodeRoundTrip : Prop :=
  ∀ i : Instr, i.wellFormed = true → decode (encode i) = .ok i

/-- R91, R92: a command word has one meaning and every bit of it counts. -/
def Obligations.EncodeDecodedCommandWord : Prop :=
  ∀ (w : CommandWord) (i : Instr), decodeCommand w = .ok i → encode i = .command w

/-- R90, R91: the decoder returns a row's mnemonic exactly when (w & mask) = match, with the operand fields of that word;
a word no row selects is illegal; and no two rows select one word. -/
def Obligations.DecoderFollowsMatchMaskTable : Prop :=
  (∀ (w : CommandWord), ∀ r ∈ commandRows,
    (r.selects w = true ↔
      ∃ i, decodeCommand w = .ok i ∧ mnemonicOf i = r.mnemonic ∧ encode i = .command w)) ∧
  (∀ w : CommandWord, (∀ r ∈ commandRows, r.selects w = false) → decodeCommand w = .error (.illegalCommand w)) ∧
  commandRows.Pairwise fun r q => ∀ w, ¬ (r.selects w = true ∧ q.selects w = true)

/-! ## Faults and refusals -/

/-- R250: an illegal command word is refused: no port transaction, REFUSED with the cause IllegalCommand and the word, RES
unchanged, MODE = IDLE; nothing else but CMD and SEQ (the host wrote the word) changes. Both ways the host can write. -/
def Obligations.IllegalWordIsRefused : Prop :=
  ∀ (s : State) (w : CommandWord) (x : Input) (rest : List Input), s.mode = .idle → s.inputs = x :: rest →
    x = .command w ∨ x = .issue w → (∀ r ∈ commandRows, r.selects w = false) →
    ∃ t, step s = .next t ∧ t.refused = some (.illegalCommand w) ∧
      (RefusalRecord.illegalCommand w).cause.code = 2 ∧ t.mode = .idle ∧
      t.tr = s.tr ∧ t.ca = s.ca ∧ t.cfg = s.cfg ∧ t.res = s.res ∧ t.regs = s.regs ∧ t.sweep = s.sweep ∧
      t.fault = s.fault ∧ t.probeOpen = s.probeOpen ∧ t.evt = s.evt ∧ t.inputs = rest ∧ t.resets = s.resets

/-- R114: a descriptor outside the three is refused; a data access with CA[31] = 0 is refused; a refusal sets REFUSED with
descriptor, datum (none for a read, log 10) and CA and changes nothing else; the engine's own commands are never refused. That
MODE stays as it was, BUSY included, is the model's reading (log 11, DEDUCED): R114 is silent on MODE, and R22 read literally
would have every refusal set it to IDLE. -/
def Obligations.PortTargetRefusals : Prop :=
  (∀ (s : State) (d : Descriptor) (v : Word) (rest : List Input), s.inputs = .port d v :: rest →
    d ≠ 0x50CF8#20 → d ≠ 0x40CFC#20 → d ≠ 0x50CFC#20 →
    step s = .next { s with
      inputs := rest
      refused := some (.unadmittedPortAccess d (if d.getLsbD 16 then some v else none) s.ca) }) ∧
  (∀ s : State, s.ca.getLsbD 31 = false →
    exec .inlData s = .next { s with refused := some (.unadmittedPortAccess 0x40CFC#20 none s.ca) }) ∧
  (∀ (s : State) (v : Word), s.ca.getLsbD 31 = false →
    exec (.outlData v) s = .next { s with refused := some (.unadmittedPortAccess 0x50CFC#20 (some v) s.ca) }) ∧
  (∀ (w : CommandWord) (i : Instr) (s t : State), decodeCommand w = .ok i → exec i s = .next t →
    t.refused = s.refused)

/-- R200 to R202, R251, R252, R257: LSB and MSB of zero take the fault entry: FAULT with (BitScanZero, which scan, CMD),
MODE = IDLE, and RES, CA, TR, the backend and everything else as they were. That SEQ stays as it was is the model's choice of
what counts as a step (log 7, DESIGN CHOICE); no rule says it. -/
def Obligations.ZeroScanTakesFault : Prop :=
  ∀ s : State,
    (∃ t, exec (.lsb 0#32) s = .next t ∧ t.fault = some ⟨.bitScanZero, .lsb, s.cmd⟩ ∧ t.mode = .idle ∧
      t.res = s.res ∧ t.seq = s.seq ∧ scanFrame s t) ∧
    (∃ t, exec (.msb 0#32) s = .next t ∧ t.fault = some ⟨.bitScanZero, .msb, s.cmd⟩ ∧ t.mode = .idle ∧
      t.res = s.res ∧ t.seq = s.seq ∧ scanFrame s t) ∧
    Cause.bitScanZero.code = 1

/-- R34, R251, R258: FAULT and REFUSED, once set, stay set through every step but a reset. -/
def Obligations.MarksStayUntilReset : Prop :=
  ∀ s t : State, step s = .next t → s.inputs.head? ≠ some .reset →
    (s.fault.isSome = true → t.fault.isSome = true) ∧ (s.refused.isSome = true → t.refused.isSome = true)

/-! ## Port transactions -/

/-- R111: OUTL_ADDR stores any 32-bit value whole in CA, appends its record, and changes nothing else. -/
def Obligations.OutlAddrStoresLatch : Prop :=
  ∀ (s : State) (a : Word),
    decodePort 0x50CF8#20 a = .ok (.outlAddr a) ∧
    exec (.outlAddr a) s = .next { s with ca := a, tr := s.tr ++ [⟨.outlAddr, a⟩] }

/-- R112: with CA[31] = 1, INL_DATA returns (in its TR record, log 16) the dword that CA[23:16], CA[15:11], CA[10:8] and
CA[7:2] select; nothing else changes, but that the read of a dword outside R33's list is the platform backend's business (R58). -/
def Obligations.InlDataReadsSelectedDword : Prop :=
  ∀ s : State, s.ca.getLsbD 31 = true →
    ∃ t, exec .inlData s = .next t ∧
      t = { s with
        cfg := t.cfg
        tr := s.tr ++ [⟨.inlData, s.cfg.read (s.ca.extractLsb' 16 8) (s.ca.extractLsb' 11 5) (s.ca.extractLsb' 8 3)
          (s.ca.extractLsb' 2 6)⟩] } ∧
      (repeatableDword (s.ca.extractLsb' 2 6) = true → t.cfg = s.cfg) ∧
      (∀ p v m, s.cfg = .reference p v m → t.cfg = s.cfg)

/-- R113: with CA[31] = 1, OUTL_DATA hands its value, whole, to the dword CA selects and appends its record. -/
def Obligations.OutlDataWritesSelectedDword : Prop :=
  ∀ (s : State) (v : Word), s.ca.getLsbD 31 = true →
    exec (.outlData v) s = .next { s with
      cfg := s.cfg.write (s.ca.extractLsb' 16 8) (s.ca.extractLsb' 11 5) (s.ca.extractLsb' 8 3)
        (s.ca.extractLsb' 2 6) v
      tr := s.tr ++ [⟨.outlData, v⟩] }

/-- R81: bits 30:24 and 1:0 of CA take no part in routing: two latches that agree in the other bits route alike. -/
def Obligations.RoutingIgnoresReservedBits : Prop :=
  ∀ (s t : State) (a a' v : Word), a &&& 0x80FFFFFC#32 = a' &&& 0x80FFFFFC#32 → a.getLsbD 31 = true →
    (exec .inlData { s with ca := a } = .next t → exec .inlData { s with ca := a' } = .next { t with ca := a' }) ∧
    (exec (.outlData v) { s with ca := a } = .next t →
      exec (.outlData v) { s with ca := a' } = .next { t with ca := a' })

/-- R62: a data transaction of the engine goes where CA points when it is performed: after a foreign OUTL_ADDR of a, the
register read the engine is in the middle of returns the dword a selects, and a register write lands there. -/
def Obligations.ForeignAddressRedirectsAccess : Prop :=
  ∀ (s : State) (a : Word) (rest : List Input) (b : Bus) (d : Dev) (f : Fn) (o : Off),
    s.mode = .busy → a.getLsbD 31 = true → s.inputs = .port 0x50CF8#20 a :: .turn :: rest →
    (∀ (k : Word → Prog) (v : Word), s.position = some (.rd b d f o k, true) →
      v = s.cfg.read (a.extractLsb' 16 8) (a.extractLsb' 11 5) (a.extractLsb' 8 3) (a.extractLsb' 2 6) →
      ∃ s1 t, step s = .next s1 ∧ step s1 = .next t ∧
        t.tr = s.tr ++ [⟨.outlAddr, a⟩, ⟨.inlData, v⟩] ∧ t.regs.data = v) ∧
    (∀ (src : Source) (k : Prog), s.position = some (.wr b d f o src k, true) →
      ∃ s1 t, step s = .next s1 ∧ step s1 = .next t ∧
        t.tr = s.tr ++ [⟨.outlAddr, a⟩, ⟨.outlData, src.get s⟩] ∧
        t.cfg = s.cfg.write (a.extractLsb' 16 8) (a.extractLsb' 11 5) (a.extractLsb' 8 3) (a.extractLsb' 2 6) (src.get s))

/-! ## CFGRD and CFGWR -/

/-- R118, R116, R117: CFGRD's result, its two transactions and its frame, for every operand. -/
def Obligations.CfgrdReturnsShiftedDword : Prop :=
  ∀ (s : State) (b : Bus) (d : Dev) (f : Fn) (o : Off),
    ∃ t, exec (.cfgrd b d f o) s = .next t ∧
      t.res = some (.u32 (s.cfg.read b d f (o.extractLsb' 2 6) >>> (8 * (o.toNat % 4)))) ∧
      t.tr = s.tr ++ readRecords b d f o (s.cfg.read b d f (o.extractLsb' 2 6)) ∧
      t.ca = addrWord b d f o ∧ t.regs.addrw = addrWord b d f o ∧
      t.regs.data = s.cfg.read b d f (o.extractLsb' 2 6) ∧ t.mode = .idle ∧
      (repeatableDword (o.extractLsb' 2 6) = true → t.cfg = s.cfg) ∧
      (∀ p v m, s.cfg = .reference p v m → t.cfg = s.cfg) ∧ accessFrame s t

/-- R53: a caller's 8-bit and 16-bit views of a CFGRD result, and the zero fill above them. -/
def Obligations.CfgrdResultViews : Prop :=
  ∀ (s : State) (b : Bus) (d : Dev) (f : Fn) (o : Off), ∃ t v, exec (.cfgrd b d f o) s = .next t ∧ t.res = some (.u32 v) ∧
    v.setWidth 8 = (s.cfg.read b d f (o.extractLsb' 2 6)).extractLsb' (8 * (o.toNat % 4)) 8 ∧
    (o.toNat % 4 ≤ 2 →
      v.setWidth 16 = (s.cfg.read b d f (o.extractLsb' 2 6)).extractLsb' (8 * (o.toNat % 4)) 16) ∧
    (o.toNat % 4 = 3 → v.extractLsb' 8 24 = 0 ∧ v.setWidth 16 = (v.setWidth 8).setWidth 16) ∧
    (o.toNat % 4 = 2 → v.extractLsb' 16 16 = 0)

/-- R119, R54: CFGWR offers its value, unshifted whatever the offset, to the whole dword; its transactions and frame. -/
def Obligations.CfgwrWritesWholeDword : Prop :=
  ∀ (s : State) (b : Bus) (d : Dev) (f : Fn) (o : Off) (v : Word),
    ∃ t, exec (.cfgwr b d f o v) s = .next t ∧ t.res = some .unit ∧
      t.cfg = s.cfg.write b d f (o.extractLsb' 2 6) v ∧
      t.tr = s.tr ++ writeRecords b d f o v ∧
      t.ca = addrWord b d f o ∧ t.regs.addrw = addrWord b d f o ∧ t.regs.data = s.regs.data ∧
      t.mode = .idle ∧ accessFrame s t

/-- R54: bits 1:0 of an offset never reach the address word; a CFGRD reads and a CFGWR writes, unshifted, the whole aligned
dword; an unaligned offset raises nothing. -/
def Obligations.UnalignedOffsetUsesAlignedDword : Prop :=
  ∀ (s : State) (b : Bus) (d : Dev) (f : Fn) (o : Off) (v : Word),
    (∃ t, exec (.cfgrd b d f o) s = .next t ∧ t.ca = addrWord b d f (o &&& 0xFC#8) ∧ t.ca.extractLsb' 0 2 = 0 ∧
      t.regs.data = s.cfg.read b d f (BitVec.ofNat 6 (o.toNat / 4)) ∧ t.fault = s.fault ∧ t.refused = s.refused) ∧
    (∃ t, exec (.cfgwr b d f o v) s = .next t ∧ t.ca = addrWord b d f (o &&& 0xFC#8) ∧ t.ca.extractLsb' 0 2 = 0 ∧
      t.cfg = s.cfg.write b d f (BitVec.ofNat 6 (o.toNat / 4)) v ∧ t.fault = s.fault ∧ t.refused = s.refused)

/-- R31, R119: under the reference backend a CFGWR changes exactly the writable bits of its dword of a present function and
no other dword of configuration space; a write to an absent function changes nothing. -/
def Obligations.ReferenceWriteIsMaskedAndLocal : Prop :=
  ∀ (s t : State) (b : Bus) (d : Dev) (f : Fn) (o : Off) (v : Word) (present : List FnAddr) (values masks : Memory),
    s.cfg = .reference present values masks → s.cfg.wf = true → exec (.cfgwr b d f o v) s = .next t →
    (⟨b, d, f⟩ ∈ present → t.cfg.read b d f (o.extractLsb' 2 6) =
      (s.cfg.read b d f (o.extractLsb' 2 6) &&& ~~~ masks.readDword (cfgAddr b d f (o.extractLsb' 2 6))) |||
        (v &&& masks.readDword (cfgAddr b d f (o.extractLsb' 2 6)))) ∧
    (∀ b' d' f' k', (b', d', f', k') ≠ (b, d, f, o.extractLsb' 2 6) →
      t.cfg.read b' d' f' k' = s.cfg.read b' d' f' k') ∧
    (⟨b, d, f⟩ ∉ present → t.cfg = s.cfg)

/-! ## HASMF and PROBE -/

/-- R140, R141: HASMF reads dword 3 of function 0, present or not, and answers its bit 23 (bit 7 of the header-type byte); ADDRW and DATA
as that read leaves them (R25, R116). -/
def Obligations.HasmfTestsMultiFunctionFlag : Prop :=
  ∀ (s : State) (b : Bus) (d : Dev),
    ∃ t, exec (.hasmf b d) s = .next t ∧
      t.res = some (.bool ((s.cfg.read b d 0 3).getLsbD 23)) ∧
      t.tr = s.tr ++ readRecords b d 0 0x0E (s.cfg.read b d 0 3) ∧
      t.ca = addrWord b d 0 0x0E ∧ t.regs.addrw = addrWord b d 0 0x0E ∧ t.regs.data = s.cfg.read b d 0 3 ∧
      t.mode = .idle ∧ t.cfg = s.cfg ∧ accessFrame s t

/-- R142, R143, R33: PROBE's record holds the fields at the places of R33's table; its seven reads, in order; no
configuration write; ADDRW and DATA as the last read leaves them (R25, R116); its frame. -/
def Obligations.ProbeReadsIdentification : Prop :=
  ∀ (s : State) (b : Bus) (d : Dev) (f : Fn) (w0 w2 w15 : Word),
    w0 = s.cfg.read b d f 0 → w2 = s.cfg.read b d f 2 → w15 = s.cfg.read b d f 15 →
    ∃ t, exec (.probe b d f) s = .next t ∧
      t.res = some (.idRecord
        { bus := b, dev := d, fn := f
          vendorId := w0.extractLsb' 0 16, deviceId := w0.extractLsb' 16 16
          classId := w2.extractLsb' 24 8, subclassId := w2.extractLsb' 16 8
          interfaceId := w2.extractLsb' 8 8, revision := w2.extractLsb' 0 8
          interruptLine := w15.extractLsb' 0 8 }) ∧
      t.tr = s.tr ++ readRecords b d f 0x00 w0 ++ readRecords b d f 0x02 w0 ++ readRecords b d f 0x08 w2
        ++ readRecords b d f 0x09 w2 ++ readRecords b d f 0x0A w2 ++ readRecords b d f 0x0B w2
        ++ readRecords b d f 0x3C w15 ∧
      t.ca = addrWord b d f 0x3C ∧ t.regs.addrw = addrWord b d f 0x3C ∧ t.regs.data = w15 ∧ t.mode = .idle ∧ t.cfg = s.cfg ∧ accessFrame s t

/-- R145: HASMF and PROBE have no side effect beyond their reads, and are repeatable: against an unchanged backend, whatever
the rest of the state, they give the same result and the same TR records. -/
def Obligations.HasmfAndProbeRepeatable : Prop :=
  ∀ (i : Instr) (s s' t t' : State), (∃ b d, i = .hasmf b d) ∨ (∃ b d f, i = .probe b d f) → s'.cfg = s.cfg →
    exec i s = .next t → exec i s' = .next t' →
    t.cfg = s.cfg ∧ accessFrame s t ∧ t'.res = t.res ∧ ∃ l, t.tr = s.tr ++ l ∧ t'.tr = s'.tr ++ l

/-! ## DECBAR -/

/-- R161, R175: an index at or above the BAR count (6 for header type 0, else 2) gives Absent after the header read alone;
the BAR register is neither read nor written. HT and MAXBAR hold the header type and that count (R25). -/
def Obligations.DecbarAbsentAfterHeaderRead : Prop :=
  ∀ (s : State) (b : Bus) (d : Dev) (f : Fn) (idx : BarIdx),
    (if (s.cfg.read b d f 3).extractLsb' 16 7 = 0 then 6 else 2) ≤ idx.toNat →
    ∃ t, exec (.decbar b d f idx) s = .next t ∧ t.res = some (.decode .absent) ∧
      t.tr = s.tr ++ readRecords b d f 0x0E (s.cfg.read b d f 3) ∧ t.cfg = s.cfg ∧
      decbarRegs s t b d f 0x0E (s.cfg.read b d f 3) ∧ t.regs.raw = s.regs.raw ∧ t.regs.save = s.regs.save ∧
      t.regs.rb = s.regs.rb ∧ t.regs.lo = s.regs.lo ∧ t.regs.hi = s.regs.hi ∧
      t.probeOpen = s.probeOpen ∧ t.mode = .idle ∧ decbarFrame s t

/-- R162 to R164, R175: a BAR with bit 0 set decodes as Io with its low two bits cleared, whatever bits 3:1 hold, after four
transactions and no write; HT, MAXBAR, CA, ADDRW and DATA as its two reads leave them (R25, R116). -/
def Obligations.DecbarIoBar : Prop :=
  ∀ (s : State) (b : Bus) (d : Dev) (f : Fn) (idx : BarIdx) (raw : Word),
    idx.toNat < (if (s.cfg.read b d f 3).extractLsb' 16 7 = 0 then 6 else 2) →
    raw = s.cfg.read b d f (4 + idx.setWidth 6) → raw.getLsbD 0 = true →
    ∃ t, exec (.decbar b d f idx) s = .next t ∧ t.res = some (.decode (.io (raw &&& 0xFFFFFFFC#32))) ∧
      t.tr = s.tr ++ readRecords b d f 0x0E (s.cfg.read b d f 3)
        ++ readRecords b d f (0x10 + 4 * idx.setWidth 8) raw ∧ t.cfg = s.cfg ∧
      decbarRegs s t b d f (0x10 + 4 * idx.setWidth 8) raw ∧
      t.regs.raw = raw ∧ t.regs.save = s.regs.save ∧ t.regs.rb = s.regs.rb ∧ t.regs.lo = s.regs.lo ∧
      t.regs.hi = s.regs.hi ∧ t.probeOpen = s.probeOpen ∧ t.mode = .idle ∧ decbarFrame s t

/-- R165, R170 to R172, R175: a memory BAR of type 1, 2 or 3 is MemUnsized with its width tag and prefetchable flag, with no
sizing probe, no write and no further read; HT, MAXBAR, CA, ADDRW and DATA as its two reads leave them (R25, R116). -/
def Obligations.DecbarUnsizedMemoryBar : Prop :=
  ∀ (s : State) (b : Bus) (d : Dev) (f : Fn) (idx : BarIdx) (raw : Word),
    idx.toNat < (if (s.cfg.read b d f 3).extractLsb' 16 7 = 0 then 6 else 2) →
    raw = s.cfg.read b d f (4 + idx.setWidth 6) → raw.getLsbD 0 = false → raw.extractLsb' 1 2 ≠ 0 →
    ∃ t, exec (.decbar b d f idx) s = .next t ∧
      t.res = some (.decode (.memUnsized
        (if raw.extractLsb' 1 2 = 1 then .w20 else if raw.extractLsb' 1 2 = 2 then .w64 else .wres3)
        (raw.getLsbD 3))) ∧
      t.tr = s.tr ++ readRecords b d f 0x0E (s.cfg.read b d f 3)
        ++ readRecords b d f (0x10 + 4 * idx.setWidth 8) raw ∧ t.cfg = s.cfg ∧
      decbarRegs s t b d f (0x10 + 4 * idx.setWidth 8) raw ∧
      t.regs.raw = raw ∧ t.regs.save = s.regs.save ∧ t.regs.rb = s.regs.rb ∧ t.regs.lo = s.regs.lo ∧
      t.regs.hi = s.regs.hi ∧ t.probeOpen = s.probeOpen ∧ t.mode = .idle ∧ decbarFrame s t

/-- R168: a zero read-back is Unused, or Malformed(ZeroPrefetchable) when the prefetchable flag is set, and the bit scans are
not called: LO and HI stay. -/
def Obligations.DecbarZeroReadBack : Prop :=
  ∀ (s : State) (b : Bus) (d : Dev) (f : Fn) (idx : BarIdx) (raw : Word),
    idx.toNat < (if (s.cfg.read b d f 3).extractLsb' 16 7 = 0 then 6 else 2) →
    raw = s.cfg.read b d f (4 + idx.setWidth 6) → raw.getLsbD 0 = false → raw.extractLsb' 1 2 = 0 →
    (s.cfg.write b d f (4 + idx.setWidth 6) 0xFFFFFFF0#32).read b d f (4 + idx.setWidth 6) &&& 0xFFFFFFF0#32 = 0 →
    ∃ t, exec (.decbar b d f idx) s = .next t ∧
      (raw.getLsbD 3 = false → t.res = some (.decode .unused)) ∧
      (raw.getLsbD 3 = true → t.res = some (.decode (.malformed .zeroPrefetchable))) ∧
      t.regs.lo = s.regs.lo ∧ t.regs.hi = s.regs.hi ∧ t.regs.rb = 0 ∧ decbarRegs s t b d f (0x10 + 4 * idx.setWidth 8)
        ((s.cfg.write b d f (4 + idx.setWidth 6) 0xFFFFFFF0#32).read b d f (4 + idx.setWidth 6))

/-- R166 to R169, R173: the sizing probe of a type-0 memory BAR: its ten transactions, the two writes, the registers, and the
result: Unused or Malformed(ZeroPrefetchable) for a zero read-back, Mem32 with the position of the lowest set bit when bit
31 is set, Malformed(BadPattern) otherwise. LO and HI hold the positions of the lowest and the highest set bit of a nonzero
read-back, whichever of the two results it gives, and stay for a zero one. -/
def Obligations.DecbarSizingProbe : Prop :=
  ∀ (s : State) (b : Bus) (d : Dev) (f : Fn) (idx : BarIdx) (raw : Word) (c1 : Backend) (back rb : Word),
    idx.toNat < (if (s.cfg.read b d f 3).extractLsb' 16 7 = 0 then 6 else 2) →
    raw = s.cfg.read b d f (4 + idx.setWidth 6) → raw.getLsbD 0 = false → raw.extractLsb' 1 2 = 0 →
    c1 = s.cfg.write b d f (4 + idx.setWidth 6) 0xFFFFFFF0#32 →
    back = c1.read b d f (4 + idx.setWidth 6) → rb = back &&& 0xFFFFFFF0#32 →
    ∃ t r, exec (.decbar b d f idx) s = .next t ∧ t.res = some (.decode r) ∧
      t.cfg = c1.write b d f (4 + idx.setWidth 6) raw ∧
      t.tr = s.tr ++ readRecords b d f 0x0E (s.cfg.read b d f 3)
        ++ readRecords b d f (0x10 + 4 * idx.setWidth 8) raw
        ++ writeRecords b d f (0x10 + 4 * idx.setWidth 8) 0xFFFFFFF0#32
        ++ readRecords b d f (0x10 + 4 * idx.setWidth 8) back
        ++ writeRecords b d f (0x10 + 4 * idx.setWidth 8) raw ∧
      decbarRegs s t b d f (0x10 + 4 * idx.setWidth 8) back ∧
      t.regs.raw = raw ∧ t.regs.save = raw ∧ t.regs.rb = rb ∧ t.probeOpen = false ∧ t.mode = .idle ∧
      decbarFrame s t ∧
      (rb = 0 → r = (if raw.getLsbD 3 then .malformed .zeroPrefetchable else .unused)) ∧
      (rb ≠ 0 → rb.getLsbD t.regs.lo.toNat = true ∧ (∀ j < t.regs.lo.toNat, rb.getLsbD j = false) ∧
        rb.getLsbD t.regs.hi.toNat = true ∧ ∀ j, t.regs.hi.toNat < j → rb.getLsbD j = false) ∧
      (rb = 0 → t.regs.lo = s.regs.lo ∧ t.regs.hi = s.regs.hi) ∧
      (rb ≠ 0 → rb.getLsbD 31 = false → r = .malformed .badPattern) ∧
      (rb ≠ 0 → rb.getLsbD 31 = true → ∃ lo : BitPos, r = .mem32 (raw.getLsbD 3) lo ∧
        t.regs.lo = lo ∧ t.regs.hi = 31 ∧ r.sizeBytes = some (2 ^ lo.toNat) ∧ 4 ≤ lo.toNat ∧
        rb.getLsbD lo.toNat = true ∧ ∀ j < lo.toNat, rb.getLsbD j = false)

/-- R160, R167, R173, R174: DECBAR always returns a DecodeResult, and its transactions are the header read alone, that and the
raw read of the slot's BAR, or those and then, all at the address word of that BAR, the pattern write, the read-back and the
restoring write of the value the raw read returned; no window is left open. -/
def Obligations.DecbarWritesPatternThenRaw : Prop :=
  ∀ (s : State) (b : Bus) (d : Dev) (f : Fn) (idx : BarIdx),
    ∃ t r l, exec (.decbar b d f idx) s = .next t ∧ t.res = some (.decode r) ∧
      t.tr = s.tr ++ readRecords b d f 0x0E (s.cfg.read b d f 3) ++ l ∧
      (l = [] ∨ ∃ raw back,
        raw = s.cfg.read b d f (4 + idx.setWidth 6) ∧
        (l = readRecords b d f (0x10 + 4 * idx.setWidth 8) raw ∨
          l = readRecords b d f (0x10 + 4 * idx.setWidth 8) raw
            ++ writeRecords b d f (0x10 + 4 * idx.setWidth 8) 0xFFFFFFF0#32
            ++ readRecords b d f (0x10 + 4 * idx.setWidth 8) back
            ++ writeRecords b d f (0x10 + 4 * idx.setWidth 8) raw)) ∧
      (dataWritten l = [] ∨ ∃ raw, dataWritten l = [0xFFFFFFF0#32, raw]) ∧
      (s.probeOpen = false → t.probeOpen = false)

/-- R167, R177: under the reference backend DECBAR leaves configuration space exactly as it was, and done again it gives the
same result. -/
def Obligations.DecbarKeepsReferenceBackend : Prop :=
  ∀ (s : State) (b : Bus) (d : Dev) (f : Fn) (idx : BarIdx) (present : List FnAddr) (values masks : Memory),
    s.cfg = .reference present values masks → s.cfg.wf = true →
    ∃ t u, exec (.decbar b d f idx) s = .next t ∧ t.cfg = s.cfg ∧
      exec (.decbar b d f idx) t = .next u ∧ u.res = t.res ∧ u.cfg = s.cfg

/-! ## LSB and MSB -/

/-- R200, R201: of a nonzero operand LSB returns the position of its lowest and MSB of its highest set bit; nothing else
changes but MODE and SEQ, and no transaction is made. -/
def Obligations.ScansReturnBitPositions : Prop :=
  ∀ (s : State) (v : Word), v ≠ 0#32 →
    (∃ t p, exec (.lsb v) s = .next t ∧ t.res = some (.bitPos p) ∧ v.getLsbD p.toNat = true ∧
      (∀ j < p.toNat, v.getLsbD j = false) ∧ t.mode = .idle ∧ t.fault = s.fault ∧ scanFrame s t) ∧
    (∃ t p, exec (.msb v) s = .next t ∧ t.res = some (.bitPos p) ∧ v.getLsbD p.toNat = true ∧
      (∀ j, p.toNat < j → v.getLsbD j = false) ∧ t.mode = .idle ∧ t.fault = s.fault ∧ scanFrame s t)

/-- R205: the laws of the two scans of a nonzero value. -/
def Obligations.BitScanLaws : Prop :=
  ∀ v : Word, v ≠ 0#32 → ∃ lo hi : BitPos, lowestSetBit v = some lo ∧ highestSetBit v = some hi ∧
    lo ≤ hi ∧ v.getLsbD lo.toNat = true ∧ v.getLsbD hi.toNat = true ∧
    v &&& ((1#32 <<< lo.toNat) - 1) = 0 ∧ (hi.toNat < 31 → v >>> (hi.toNat + 1) = 0) ∧
    (lo = hi ↔ ∃ n < 32, v = 1#32 <<< n) ∧ (lo = hi → v = 1#32 <<< lo.toNat) ∧
    (v &&& 0xFFFFFFF0#32 ≠ 0 → ∃ p, lowestSetBit (v &&& 0xFFFFFFF0#32) = some p ∧ 4 ≤ p.toNat)

/-! ## ENUM -/

/-- R220, R221, R229, R230: ENUM always completes, whatever the backend returns: no fault, no refusal, RES = (DEVLIST,
DEVCOUNT), DEVCOUNT = length(DEVLIST), counted from zero; its frame. -/
def Obligations.EnumCompletes : Prop :=
  ∀ s : State, ∃ t, exec .enum s = .next t ∧ t.mode = .idle ∧
    t.res = some (.sweep t.sweep.devList t.sweep.devCount) ∧ t.sweep.devCount = t.sweep.devList.length ∧
    commandFrame s t ∧ (s.probeOpen = false → t.probeOpen = false)

/-- R223, R225, R222, R229: DEVLIST holds present functions only, in ascending order of bus, then device, then function,
each with the port base of its first I/O slot; at most 65536 of them. -/
def Obligations.EnumListsPresentFunctionsInOrder : Prop :=
  ∀ s t : State, exec .enum s = .next t →
    (∀ x ∈ t.sweep.devList, x.id.vendorId ≠ 0x0000#16 ∧ x.id.vendorId ≠ 0xFFFF#16 ∧ x.portBase = x.bars.portBase) ∧
    t.sweep.devList.Pairwise (fun x y => x.id.place < y.id.place) ∧ t.sweep.devList.length ≤ 65536

/-- R227, R231: ENUM appends to EVT, for each listed device in order, its Device event and a Bar event for each slot that is
not Absent, and then Total(DEVCOUNT). -/
def Obligations.EnumReportsEveryDevice : Prop :=
  ∀ s t : State, exec .enum s = .next t →
    t.evt = s.evt ++ t.sweep.devList.flatMap deviceEvents ++ [.total t.sweep.devCount]

/-- R228, R291: a sweep makes between 131,072 and 4,866,048 port transactions. -/
def Obligations.EnumTransactionBounds : Prop :=
  ∀ s t : State, exec .enum s = .next t →
    s.tr.length + 131072 ≤ t.tr.length ∧ t.tr.length ≤ s.tr.length + 4866048

/-- R167, R230 and the source's restore property: under the reference backend a whole sweep, with every sizing probe in it,
leaves configuration space exactly as it was. -/
def Obligations.EnumKeepsReferenceBackend : Prop :=
  ∀ (s t : State) (present : List FnAddr) (values masks : Memory),
    s.cfg = .reference present values masks → s.cfg.wf = true → exec .enum s = .next t → t.cfg = s.cfg

/-- R225: portBase is the base of the lowest-indexed Io slot, None when there is none, and ENUM fills it so. -/
def Obligations.PortBaseIsFirstIoSlot : Prop :=
  (∀ (bars : Bars) (slots : List DecodeResult),
    slots = [bars.bar0, bars.bar1, bars.bar2, bars.bar3, bars.bar4, bars.bar5] →
    (∀ v, bars.portBase = some v ↔
      ∃ i : Nat, slots[i]? = some (DecodeResult.io v) ∧ ∀ j < i, ∀ w, slots[j]? ≠ some (DecodeResult.io w)) ∧
    (bars.portBase = none ↔ ∀ v, DecodeResult.io v ∉ slots)) ∧
  ∀ s t : State, exec .enum s = .next t → ∀ x ∈ t.sweep.devList, x.portBase = x.bars.portBase

/-- The source's first worked example (R223, R228): with no function present a sweep lists nothing, reports Total(0) alone and
makes 933,888 port transactions, the last pair at offset 0x3C of (255, 31, 7). -/
def Obligations.EnumOfEmptySpace : Prop :=
  ∀ (s t : State) (values masks : Memory), s.cfg = .reference [] values masks → exec .enum s = .next t →
    t.sweep.devList = [] ∧ t.sweep.devCount = 0 ∧ t.evt = s.evt ++ [.total 0] ∧
    t.tr.length = s.tr.length + 933888 ∧ t.ca = 0x80FFFF3C#32

/-- R220, R223, R224, R232: against a backend that keeps its values (the reference backend) a sweep lists exactly what the
single commands answer: a function below NFN whose PROBE shows a vendor is listed, and a listed one has PROBE's record and,
in slot i, DECBAR's result for index i. -/
def Obligations.EnumListsWhatItsCommandsAnswer : Prop :=
  ∀ (s t : State) (present : List FnAddr) (values masks : Memory),
    s.cfg = .reference present values masks → s.cfg.wf = true → exec .enum s = .next t →
    (∀ x ∈ t.sweep.devList,
      (∃ u, exec (.probe x.id.bus x.id.dev x.id.fn) s = .next u ∧ u.res = some (.idRecord x.id)) ∧
      (∀ p ∈ x.bars.indexed, ∃ u, exec (.decbar x.id.bus x.id.dev x.id.fn p.1) s = .next u ∧
        u.res = some (.decode p.2)) ∧
      (x.id.fn = 0 ∨ ∃ u, exec (.hasmf x.id.bus x.id.dev) s = .next u ∧ u.res = some (.bool true))) ∧
    (∀ (b : Bus) (d : Dev) (f : Fn) (u : State) (r : IdRecord),
      exec (.probe b d f) s = .next u → u.res = some (.idRecord r) → r.vendorId ≠ 0x0000#16 → r.vendorId ≠ 0xFFFF#16 →
      (f = 0 ∨ ∃ w, exec (.hasmf b d) s = .next w ∧ w.res = some (.bool true)) →
      ∃ x ∈ t.sweep.devList, x.id = r)

/-! ## Over all commands -/

/-- R26: RES after a command that does not fault has the tag R26's table gives that command. -/
def Obligations.ResultTagPerCommand : Prop :=
  ∀ (w : CommandWord) (i : Instr) (s : State), decodeCommand w = .ok i → i ≠ .lsb 0#32 → i ≠ .msb 0#32 →
    ∃ t r, exec i s = .next t ∧ t.res = some r ∧ resultTag i r = true

/-- R80, R121: whatever a command does, the records it appends to TR are pairs of an OUTL_ADDR with an address word of R80's
format and one data transaction right after it. -/
def Obligations.EngineTracePaired : Prop :=
  ∀ (w : CommandWord) (i : Instr) (s t : State), decodeCommand w = .ok i → exec i s = .next t →
    ∃ l, t.tr = s.tr ++ l ∧ pairedTrace l = true ∧ l.length ≤ transactionBound i

/-- R30, R231: only ENUM writes the enumeration state and the event stream. -/
def Obligations.OnlyEnumWritesSweepAndEvents : Prop :=
  ∀ (i : Instr) (s t : State), i ≠ .enum → exec i s = .next t → t.sweep = s.sweep ∧ t.evt = s.evt

/-- R20, R23, R25, R26, D6: no command's result, trace or effect on configuration space depends on what the spec leaves
unspecified at reset: CA, CMD, the working registers, RES and the sweep cursor. -/
def Obligations.UnspecifiedRegistersDoNotMatter : Prop :=
  ∀ (w : CommandWord) (i : Instr) (s t t' : State) (ca : Word) (cmd : CommandWord) (regs : Regs) (res : Option Result)
    (sweep : Sweep),
    decodeCommand w = .ok i → i ≠ .lsb 0#32 → i ≠ .msb 0#32 → exec i s = .next t →
    exec i { s with ca := ca, cmd := cmd, regs := regs, res := res, sweep := sweep } = .next t' →
    t'.res = t.res ∧ t'.tr = t.tr ∧ t'.cfg = t.cfg ∧ t'.evt = t.evt

/-! ## Over all steps -/

/-- The invariant holds at reset. -/
def Obligations.InvariantAtReset : Prop := State.reset.Inv

/-- Every step keeps the invariant: canonical memory, DEVCOUNT = length(DEVLIST) (R229), port bases (R225), a BUSY engine at
a step of its command (R24), only BitScanZero as a fault (R252). -/
def Obligations.StepKeepsInvariant : Prop :=
  ∀ s t : State, s.Inv → step s = .next t → t.Inv

/-- R251, R250, R114: no step stops the machine: from a state of the invariant there is always a next state. -/
def Obligations.StepNeverStops : Prop :=
  ∀ s : State, s.Inv → ∃ t, step s = .next t

/-- R35, R231: TR and EVT are append-only through every step but a reset. -/
def Obligations.TraceAndEventsAppendOnly : Prop :=
  ∀ s t : State, step s = .next t → s.inputs.head? ≠ some .reset → s.tr <+: t.tr ∧ s.evt <+: t.evt

/-- R31, R122: the backend is a parameter: no step changes which it is, nor the reference backend's presence flags and
masks. -/
def Obligations.BackendIsAParameter : Prop :=
  ∀ s t : State, step s = .next t →
    (∀ log, s.cfg = .platform log → ∃ l, t.cfg = .platform (l ++ log)) ∧
    (∀ p v m, s.cfg = .reference p v m → ∃ v', t.cfg = .reference p v' m)

/-- R22, R290: while the engine is BUSY a host's write of a command word is held: CMD does not change, the input stays, and
the engine takes its step. -/
def Obligations.BusyEngineHoldsHost : Prop :=
  ∀ (s : State) (x : Input) (rest : List Input), s.mode = .busy → s.placed = true → s.inputs = x :: rest →
    (∃ w, x = .command w ∨ x = .issue w) →
    ∃ t, step s = .next t ∧ t.cmd = s.cmd ∧ t.inputs = s.inputs ∧ step s = s.tick ∧ t.tr.length ≤ s.tr.length + 1

/-- R280, R281: a reset abandons a running command and puts the block's state to R37's values; it makes no transaction and
no configuration write, even inside a sizing window. -/
def Obligations.ResetAbandonsCommand : Prop :=
  ∀ (s : State) (rest : List Input), s.inputs = .reset :: rest →
    ∃ t, step s = .next t ∧ t.mode = .idle ∧ t.seq = 0 ∧ t.fault = none ∧ t.refused = none ∧
      t.sweep.devCount = 0 ∧ t.sweep.devList = [] ∧ t.tr = [] ∧ t.evt = [] ∧ t.probeOpen = false ∧ t.res = none ∧
      t.ca = Config.caReset (s.resets + 1) ∧ t.inputs = rest ∧
      (∀ p v m, s.cfg = .reference p v m → t.cfg = s.cfg) ∧
      (∀ log, s.cfg = .platform log → t.cfg = .platform (.reset :: log))

/-- R24, R35: a step of the engine moves SEQ on by one, whether its command then goes on or ends, and makes at most one port
transaction. Two steps end their command without moving SEQ: a bit scan of zero, which faults (log 7), and a data access the
port target refuses after a foreign OUTL_ADDR with E = 0 (log 11). What counts as a step is log 7. -/
def Obligations.EngineStepAdvancesSequencer : Prop :=
  ∀ (s t : State) (p : Prog) (addressed : Bool), s.mode = .busy → s.undisturbed = true →
    s.position = some (p, addressed) → step s = .next t →
    (t.mode = .busy → t.seq = s.seq + 1) ∧ (∃ l, t.tr = s.tr ++ l ∧ l.length ≤ 1) ∧
    (∀ which v k, p = .scan which v k →
      (v ≠ 0#32 → t.seq = s.seq + 1) ∧
      (v = 0#32 → t.seq = s.seq ∧ t.mode = .idle ∧ t.fault = some ⟨.bitScanZero, which, s.cmd⟩)) ∧
    ((∀ which v k, p ≠ .scan which v k) →
      (addressed = false ∨ s.ca.getLsbD 31 = true → t.seq = s.seq + 1) ∧
      (addressed = true → s.ca.getLsbD 31 = false →
        t.seq = s.seq ∧ t.mode = .idle ∧ ∃ d datum, t.refused = some (.unadmittedPortAccess d datum s.ca)))

/-- R24, R61, R291: one step at a time, undisturbed, the sequencer carries out exactly what exec says of the whole command,
within R291's number of steps for it and the host's write. What counts as a step, so that the bit scans of a sweep are none, is
the model's choice (log 7, DESIGN CHOICE), and the bound rests on it; so are the two ways a host's write can be taken in, the
whole command at once or step by step, which are here said to agree (log 2, DESIGN CHOICE). -/
def Obligations.SequencerRefinesExec : Prop :=
  ∀ (s t : State) (w : CommandWord) (i : Instr), s.mode = .idle → s.inputs = [.issue w] → decodeCommand w = .ok i →
    exec i (State.writeCmd { s with inputs := [] } w) = .next t →
    ∃ n ≤ stepBound i + 1, Host.Core.run Sys2Proof.core n s = .next t

/-! ## The assembler -/

/-- R94, R95, R115, C3: what each statement assembles to. Bus, device, function and offset wrap into their widths; an index
above 7 or a value above 0xFFFFFFFF is refused. That this holds of the value of an outl too, and that other ports than R95's
are refused, is the model's choice (log 22). -/
def Obligations.AssemblerMasksAndRefuses : Prop :=
  (∀ b d f o : Nat, assemble (.cfgrd b d f o) =
    some (encode (.cfgrd (BitVec.ofNat 8 b) (BitVec.ofNat 5 d) (BitVec.ofNat 3 f) (BitVec.ofNat 8 o)))) ∧
  (∀ b d f o v : Nat, assemble (.cfgwr b d f o v) = if v ≤ 0xFFFFFFFF then
    some (encode (.cfgwr (BitVec.ofNat 8 b) (BitVec.ofNat 5 d) (BitVec.ofNat 3 f) (BitVec.ofNat 8 o) (BitVec.ofNat 32 v)))
    else none) ∧
  (∀ b d : Nat, assemble (.hasmf b d) = some (encode (.hasmf (BitVec.ofNat 8 b) (BitVec.ofNat 5 d)))) ∧
  (∀ b d f : Nat, assemble (.probe b d f) =
    some (encode (.probe (BitVec.ofNat 8 b) (BitVec.ofNat 5 d) (BitVec.ofNat 3 f)))) ∧
  (∀ b d f i : Nat, assemble (.decbar b d f i) = if i ≤ 7 then
    some (encode (.decbar (BitVec.ofNat 8 b) (BitVec.ofNat 5 d) (BitVec.ofNat 3 f) (BitVec.ofNat 3 i))) else none) ∧
  (∀ v : Nat, assemble (.lsb v) = if v ≤ 0xFFFFFFFF then some (encode (.lsb (BitVec.ofNat 32 v))) else none) ∧
  (∀ v : Nat, assemble (.msb v) = if v ≤ 0xFFFFFFFF then some (encode (.msb (BitVec.ofNat 32 v))) else none) ∧
  assemble .enum = some (encode .enum) ∧
  (∀ v : Nat, assemble (.outl 0xCF8 v) =
    if v ≤ 0xFFFFFFFF then some (encode (.outlAddr (BitVec.ofNat 32 v))) else none) ∧
  (∀ v : Nat, assemble (.outl 0xCFC v) =
    if v ≤ 0xFFFFFFFF then some (encode (.outlData (BitVec.ofNat 32 v))) else none) ∧
  assemble (.inl 0xCFC) = some (encode .inlData) ∧
  (∀ p v : Nat, p ≠ 0xCF8 → p ≠ 0xCFC → assemble (.outl p v) = none) ∧
  (∀ p : Nat, p ≠ 0xCFC → assemble (.inl p) = none) ∧
  (∀ b d f o v i : Nat,
    assemble (.cfgrd b d f o) = assemble (.cfgrd (b % 256) (d % 32) (f % 8) (o % 256)) ∧
    assemble (.cfgwr b d f o v) = assemble (.cfgwr (b % 256) (d % 32) (f % 8) (o % 256) v) ∧
    assemble (.hasmf b d) = assemble (.hasmf (b % 256) (d % 32)) ∧
    assemble (.probe b d f) = assemble (.probe (b % 256) (d % 32) (f % 8)) ∧
    assemble (.decbar b d f i) = assemble (.decbar (b % 256) (d % 32) (f % 8) i))

/-- R96: the pseudo-instructions' expansions and the host-side truncation, of cfgrd8 and cfgrd16 alone. -/
def Obligations.PseudoInstructionsExpand : Prop :=
  (∀ b d f o : Nat, assemble (.cfgrd8 b d f o) = assemble (.cfgrd b d f o) ∧
    assemble (.cfgrd16 b d f o) = assemble (.cfgrd b d f o) ∧
    assemble (.cfgrd32 b d f o) = assemble (.cfgrd b d f (o &&& 0xFC))) ∧
  (∀ b d f o v : Nat, assemble (.cfgwr32 b d f o v) = assemble (.cfgwr b d f (o &&& 0xFC) v)) ∧
  (∀ (b d f o : Nat) (v : Word), hostResult (.cfgrd8 b d f o) (.u32 v) = .u32 (v &&& 0xFF#32) ∧
    hostResult (.cfgrd16 b d f o) (.u32 v) = .u32 (v &&& 0xFFFF#32) ∧
    hostResult (.cfgrd32 b d f o) (.u32 v) = .u32 v) ∧
  (∀ (a : Asm) (r : Result), (∀ b d f o, a ≠ .cfgrd8 b d f o) → (∀ b d f o, a ≠ .cfgrd16 b d f o) → hostResult a r = r)

/-! ## The sizing window, the cursor and the bounds of SEQ -/

/-- R36, R167: the OUTL_DATA of the sizing write sets PROBE_OPEN and leaves the BAR to what the backend makes of the pattern;
the steps up to the restoring write's OUTL_ADDR leave PROBE_OPEN as it is; the OUTL_DATA of the restoring write writes SAVE
and clears it. Stated for a DECBAR at each of these steps, in any state it can be in there; that the two assignments go with
the OUTL_DATA is log 8, the numbers of the steps and the data read so far are logs 7 and 12. -/
def Obligations.SizingWriteOpensWindow : Prop :=
  ∀ (s : State) (b : Bus) (d : Dev) (f : Fn) (idx : BarIdx) (hdr raw a : Word),
    s.mode = .busy → s.undisturbed = true → decodeCommand s.cmd = .ok (.decbar b d f idx) →
    idx.toNat < (if hdr.extractLsb' 16 7 = 0 then 6 else 2) → raw.getLsbD 0 = false → raw.extractLsb' 1 2 = 0 →
    a = addrWord b d f (0x10 + 4 * idx.setWidth 8) →
    (s.got = [hdr, raw] → s.seq = 5 → s.ca = a →
      ∃ t, step s = .next t ∧ t.probeOpen = true ∧ t.cfg = s.cfg.write b d f (4 + idx.setWidth 6) 0xFFFFFFF0#32 ∧
        t.tr = s.tr ++ [⟨.outlData, 0xFFFFFFF0#32⟩] ∧ t.seq = 6 ∧ t.mode = .busy) ∧
    (s.got = [hdr, raw] → s.seq = 4 ∨ s.seq = 6 →
      ∃ t, step s = .next t ∧ t.probeOpen = s.probeOpen ∧ t.cfg = s.cfg ∧ t.ca = a ∧
        t.tr = s.tr ++ [⟨.outlAddr, a⟩] ∧ t.seq = s.seq + 1 ∧ t.mode = .busy) ∧
    (s.got = [hdr, raw] → s.seq = 7 → s.ca = a →
      ∃ t v, v = s.cfg.read b d f (4 + idx.setWidth 6) ∧ step s = .next t ∧ t.probeOpen = s.probeOpen ∧ t.cfg = s.cfg ∧
        t.tr = s.tr ++ [⟨.inlData, v⟩] ∧ t.regs.rb = v &&& 0xFFFFFFF0#32 ∧ t.got = [hdr, raw, v] ∧ t.seq = 8 ∧
        t.mode = .busy) ∧
    (∀ back : Word, s.got = [hdr, raw, back] → s.seq = 8 →
      ∃ t, step s = .next t ∧ t.probeOpen = s.probeOpen ∧ t.cfg = s.cfg ∧ t.ca = a ∧
        t.tr = s.tr ++ [⟨.outlAddr, a⟩] ∧ t.seq = 9 ∧ t.mode = .busy) ∧
    (∀ back : Word, s.got = [hdr, raw, back] → s.seq = 9 → s.ca = a →
      ∃ t, step s = .next t ∧ t.probeOpen = false ∧ t.cfg = s.cfg.write b d f (4 + idx.setWidth 6) s.regs.save ∧
        t.tr = s.tr ++ [⟨.outlData, s.regs.save⟩] ∧ t.seq = 10)

/-- R36, R166, R167, R281: an undisturbed DECBAR of a type-0 memory BAR, one step at a time: after its first n transactions
PROBE_OPEN is true exactly from the sizing write's OUTL_DATA (the sixth) until the restoring write's (the tenth), and the BAR
is then left to what the backend makes of the pattern, before it untouched, after it restored (logs 7 and 8 place the steps).
-/
def Obligations.SizingWindowSpansProbe : Prop :=
  ∀ (s : State) (w : CommandWord) (b : Bus) (d : Dev) (f : Fn) (idx : BarIdx) (raw : Word) (c1 : Backend),
    s.mode = .idle → s.inputs = [.issue w] → decodeCommand w = .ok (.decbar b d f idx) → s.probeOpen = false →
    idx.toNat < (if (s.cfg.read b d f 3).extractLsb' 16 7 = 0 then 6 else 2) →
    raw = s.cfg.read b d f (4 + idx.setWidth 6) → raw.getLsbD 0 = false → raw.extractLsb' 1 2 = 0 →
    c1 = s.cfg.write b d f (4 + idx.setWidth 6) 0xFFFFFFF0#32 →
    ∀ n ≤ 10, ∃ t, Host.Core.run Sys2Proof.core (n + 1) s = .next t ∧ t.seq = n ∧ t.tr.length = s.tr.length + n ∧
      (t.probeOpen = true ↔ 6 ≤ n ∧ n ≤ 9) ∧
      t.cfg = (if n ≤ 5 then s.cfg else if n ≤ 9 then c1 else c1.write b d f (4 + idx.setWidth 6) raw)

/-- R30, R220, R222, R224: where ENUM leaves its cursor: BUSC and DEVC at the last device, NFN and FNC at the last function
probed there, BARC at the last slot if any function was decoded; under the reference backend NFN is what the multi-function
flag of (255, 31) says. Nothing of the enumeration state from before is left, because ENUM sets all of it at its start (R30,
R221; what it sets FNC, NFN and BARC to is a free value, log 25). -/
def Obligations.EnumLeavesCursorAtLastDevice : Prop :=
  ∀ s t : State, exec .enum s = .next t →
    t.sweep.busc = 255 ∧ t.sweep.devc = 31 ∧
    (t.sweep.nfn = .one ∧ t.sweep.fnc = 0 ∨ t.sweep.nfn = .eight ∧ t.sweep.fnc = 7) ∧
    (t.sweep.devList ≠ [] → t.sweep.barc = 5) ∧
    (∀ p v m, s.cfg = .reference p v m → s.cfg.wf = true →
      t.sweep.nfn = if (s.cfg.read 255 31 0 3).getLsbD 23 = true then .eight else .one) ∧
    ∀ w : Sweep, exec .enum { s with sweep := w } = .next t

/-- R291, R24: SEQ of a BUSY engine is below the bound of its command in R291's table, and a command moves SEQ on by no more
than that bound. What counts as a step is log 7, which takes R291's "below" to speak of the step SEQ names while the command
runs. -/
def Obligations.SequencerStaysBelowItsBound : Prop :=
  (∀ (s : State) (i : Instr), s.mode = .busy → s.placed = true → decodeCommand s.cmd = .ok i → s.seq < stepBound i) ∧
  (∀ (w : CommandWord) (i : Instr) (s t : State), decodeCommand w = .ok i → exec i s = .next t →
    s.seq ≤ t.seq ∧ t.seq ≤ s.seq + stepBound i)
end

