-- ==== Sys2Proof/Laws/Memory.lean ====
section
/-! SUPPORT. Configuration space as canonical memory: read after write, and every operation keeps the form. -/

namespace Sys2Proof.Machine

theorem Memory.wfFrom_mono {m : Memory} {lo lo' : Nat} (h : Memory.wfFrom lo m = true) (hl : lo' ≤ lo) :
    Memory.wfFrom lo' m = true := by
  cases m with
  | nil => rfl
  | cons c rest =>
    obtain ⟨a, v⟩ := c
    simp only [Memory.wfFrom, Bool.and_eq_true, decide_eq_true_eq] at h ⊢
    exact ⟨⟨⟨by omega, h.1.1.2⟩, h.1.2⟩, h.2⟩

/-- Below the form's start nothing is listed. -/
theorem Memory.readByte_of_lt {m : Memory} {lo a : Nat} (h : Memory.wfFrom lo m = true) (ha : a < lo) :
    m.readByte a = unlistedByte := by
  induction m generalizing lo with
  | nil => rfl
  | cons c rest ih =>
    obtain ⟨b, v⟩ := c
    simp only [Memory.wfFrom, Bool.and_eq_true, decide_eq_true_eq] at h
    have : a ≠ b := by omega
    simp only [Memory.readByte, this, if_false]
    exact ih h.2 (by omega)

theorem Memory.writeByte_wfFrom {m : Memory} {lo a : Nat} (v : Byte) (h : Memory.wfFrom lo m = true) (hl : lo ≤ a)
    (ha : a < cfgBytes) : Memory.wfFrom lo (m.writeByte a v) = true := by
  induction m generalizing lo with
  | nil =>
    simp only [Memory.writeByte]
    split
    · rfl
    · next hv => simp [Memory.wfFrom, hl, ha, hv]
  | cons c rest ih =>
    obtain ⟨b, w⟩ := c
    simp only [Memory.wfFrom, Bool.and_eq_true, decide_eq_true_eq, bne_iff_ne, ne_eq] at h
    obtain ⟨⟨⟨h1, h2⟩, h3⟩, h4⟩ := h
    simp only [Memory.writeByte]
    split
    · next hlt =>
      split
      · simp [Memory.wfFrom, h1, h2, h3, h4]
      · next hv => simp [Memory.wfFrom, h2, h3, h4, hl, ha, hv, Nat.succ_le_of_lt hlt]
    · split
      · next hab =>
        subst hab
        split
        · exact Memory.wfFrom_mono h4 (by omega)
        · next hv => simp [Memory.wfFrom, h2, h4, hl, hv]
      · simp [Memory.wfFrom, h1, h2, h3, ih h4 (by omega)]

/-- A write keeps the canonical form. -/
theorem Memory.writeByte_wf {m : Memory} {a : Nat} (v : Byte) (h : m.wf = true) (ha : a < cfgBytes) :
    (m.writeByte a v).wf = true :=
  Memory.writeByte_wfFrom v h (Nat.zero_le a) ha

theorem Memory.readByte_writeByte_from {m : Memory} {lo : Nat} (a b : Nat) (v : Byte) (h : Memory.wfFrom lo m = true) :
    (m.writeByte a v).readByte b = if b = a then v else m.readByte b := by
  induction m generalizing lo with
  | nil =>
    simp only [Memory.writeByte]
    split
    · next hv => subst hv; simp [Memory.readByte]
    · simp [Memory.readByte]
  | cons c rest ih =>
    obtain ⟨x, w⟩ := c
    simp only [Memory.wfFrom, Bool.and_eq_true, decide_eq_true_eq] at h
    obtain ⟨⟨⟨h1, h2⟩, h3⟩, h4⟩ := h
    simp only [Memory.writeByte]
    split
    · next hlt =>
      split
      · next hv =>
        subst hv
        split
        · next hb =>
          subst hb
          have hb : b ≠ x := by omega
          simp only [Memory.readByte, hb, if_false]
          exact Memory.readByte_of_lt h4 (by omega)
        · rfl
      · simp [Memory.readByte]
    · split
      · next hab =>
        subst hab
        split
        · next hv =>
          subst hv
          by_cases hb : b = a
          · subst hb
            simpa using Memory.readByte_of_lt h4 (Nat.lt_succ_self b)
          · simp [Memory.readByte, hb]
        · by_cases hb : b = a <;> simp [Memory.readByte, hb]
      · next hne =>
        simp only [Memory.readByte]
        by_cases hb : b = x
        · subst hb
          have : ¬ b = a := fun h => hne h.symm
          simp [this]
        · simp [hb, ih h4]

/-- A read after a write: the byte written there, every other byte as before. -/
theorem Memory.readByte_writeByte {m : Memory} (a b : Nat) (v : Byte) (h : m.wf = true) :
    (m.writeByte a v).readByte b = if b = a then v else m.readByte b :=
  Memory.readByte_writeByte_from a b v h

theorem Memory.ext_from {m n : Memory} {lo lo' : Nat} (hm : Memory.wfFrom lo m = true) (hn : Memory.wfFrom lo' n = true)
    (h : ∀ a, m.readByte a = n.readByte a) : m = n := by
  induction m generalizing n lo lo' with
  | nil =>
    cases n with
    | nil => rfl
    | cons c rest =>
      obtain ⟨b, v⟩ := c
      simp only [Memory.wfFrom, Bool.and_eq_true, bne_iff_ne] at hn
      have := h b
      simp [Memory.readByte] at this
      exact absurd this.symm hn.1.2
  | cons c rest ih =>
    obtain ⟨b, v⟩ := c
    have hm' := hm
    simp only [Memory.wfFrom, Bool.and_eq_true, bne_iff_ne, decide_eq_true_eq] at hm
    cases n with
    | nil =>
      have := h b
      simp [Memory.readByte] at this
      exact absurd this hm.1.2
    | cons e rest' =>
      obtain ⟨b', v'⟩ := e
      have hn' := hn
      simp only [Memory.wfFrom, Bool.and_eq_true, bne_iff_ne, decide_eq_true_eq] at hn
      have hb : b = b' := by
        rcases Nat.lt_trichotomy b b' with hlt | heq | hgt
        · have h1 := h b
          simp only [Memory.readByte, if_true, Nat.ne_of_lt hlt, if_false] at h1
          rw [Memory.readByte_of_lt hn.2 (by omega)] at h1
          exact absurd h1 hm.1.2
        · exact heq
        · have h1 := h b'
          simp only [Memory.readByte, if_true, Nat.ne_of_lt hgt, if_false] at h1
          rw [Memory.readByte_of_lt hm.2 (by omega)] at h1
          exact absurd h1.symm hn.1.2
      subst hb
      have hv : v = v' := by simpa [Memory.readByte] using h b
      subst hv
      congr 1
      refine ih hm.2 hn.2 fun a => ?_
      have h1 := h a
      by_cases hab : a = b
      · subst hab
        rw [Memory.readByte_of_lt hm.2 (Nat.lt_succ_self a), Memory.readByte_of_lt hn.2 (Nat.lt_succ_self a)]
      · simpa [Memory.readByte, hab] using h1

/-- Canonical memories with equal bytes are equal. -/
theorem Memory.ext {m n : Memory} (hm : m.wf = true) (hn : n.wf = true) (h : ∀ a, m.readByte a = n.readByte a) :
    m = n :=
  Memory.ext_from hm hn h

/-! ## Dwords -/

theorem Memory.writeDword_wf {m : Memory} {a : Nat} (v : Word) (h : m.wf = true) (ha : a + 3 < cfgBytes) :
    (m.writeDword a v).wf = true := by
  unfold Memory.writeDword
  exact writeByte_wf _ (writeByte_wf _ (writeByte_wf _ (writeByte_wf _ h (by omega)) (by omega)) (by omega)) ha

/-- The bytes after a dword write: little-endian inside, unchanged outside (R52). -/
theorem Memory.readByte_writeDword {m : Memory} {a : Nat} (b : Nat) (v : Word) (h : m.wf = true)
    (ha : a + 3 < cfgBytes) :
    (m.writeDword a v).readByte b =
      if b = a + 3 then v.extractLsb' 24 8 else if b = a + 2 then v.extractLsb' 16 8
      else if b = a + 1 then v.extractLsb' 8 8 else if b = a then v.extractLsb' 0 8 else m.readByte b := by
  unfold Memory.writeDword
  have h1 := Memory.writeByte_wf (v.extractLsb' 0 8) h (show a < cfgBytes by omega)
  have h2 := Memory.writeByte_wf (v.extractLsb' 8 8) h1 (show a + 1 < cfgBytes by omega)
  have h3 := Memory.writeByte_wf (v.extractLsb' 16 8) h2 (show a + 2 < cfgBytes by omega)
  rw [readByte_writeByte _ _ _ h3, readByte_writeByte _ _ _ h2, readByte_writeByte _ _ _ h1, readByte_writeByte _ _ _ h]

/-- A dword is its four bytes. -/
theorem word_of_bytes (v : Word) :
    v.extractLsb' 24 8 ++ v.extractLsb' 16 8 ++ v.extractLsb' 8 8 ++ v.extractLsb' 0 8 = v := by
  apply BitVec.eq_of_getLsbD_eq
  intro i hi
  simp only [BitVec.getLsbD_append, BitVec.getLsbD_extractLsb']
  interval_cases i <;> simp

theorem Memory.readDword_writeDword_same {m : Memory} {a : Nat} (v : Word) (h : m.wf = true) (ha : a + 3 < cfgBytes) :
    (m.writeDword a v).readDword a = v := by
  simp only [Memory.readDword, Memory.readByte_writeDword _ _ h ha]
  simp [word_of_bytes]

theorem Memory.readDword_writeDword_ne {m : Memory} {a b : Nat} (v : Word) (h : m.wf = true) (ha : a + 3 < cfgBytes)
    (hab : a + 3 < b ∨ b + 3 < a) : (m.writeDword a v).readDword b = m.readDword b := by
  simp only [Memory.readDword, Memory.readByte_writeDword _ _ h ha]
  have e : ∀ i j : Nat, i ≤ 3 → j ≤ 3 → b + i ≠ a + j := by intro i j hi hj; omega
  have e0 : ∀ i : Nat, i ≤ 3 → b + i ≠ a := by intro i hi; omega
  have e1 : ∀ j : Nat, j ≤ 3 → b ≠ a + j := by intro j hj; omega
  have e2 : b ≠ a := by omega
  simp [e, e0, e1, e2]

/-- Writing back the dword that is there changes nothing. -/
theorem Memory.writeDword_writeDword {m : Memory} {a : Nat} (v : Word) (h : m.wf = true) (ha : a + 3 < cfgBytes) :
    (m.writeDword a v).writeDword a (m.readDword a) = m := by
  have h1 := Memory.writeDword_wf v h ha
  refine Memory.ext (Memory.writeDword_wf _ h1 ha) h fun b => ?_
  rw [Memory.readByte_writeDword _ _ h1 ha, Memory.readByte_writeDword _ _ h ha]
  have b3 : (m.readDword a).extractLsb' 24 8 = m.readByte (a + 3) := by
    apply BitVec.eq_of_getLsbD_eq; intro i hi
    simp only [Memory.readDword, BitVec.getLsbD_append, BitVec.getLsbD_extractLsb']; interval_cases i <;> simp
  have b2 : (m.readDword a).extractLsb' 16 8 = m.readByte (a + 2) := by
    apply BitVec.eq_of_getLsbD_eq; intro i hi
    simp only [Memory.readDword, BitVec.getLsbD_append, BitVec.getLsbD_extractLsb']; interval_cases i <;> simp
  have b1 : (m.readDword a).extractLsb' 8 8 = m.readByte (a + 1) := by
    apply BitVec.eq_of_getLsbD_eq; intro i hi
    simp only [Memory.readDword, BitVec.getLsbD_append, BitVec.getLsbD_extractLsb']; interval_cases i <;> simp
  have b0 : (m.readDword a).extractLsb' 0 8 = m.readByte a := by
    apply BitVec.eq_of_getLsbD_eq; intro i hi
    simp only [Memory.readDword, BitVec.getLsbD_append, BitVec.getLsbD_extractLsb']; interval_cases i <;> simp
  rw [b3, b2, b1, b0]
  split <;> [skip; split <;> [skip; split <;> [skip; split]]] <;> simp_all

/-! ## Addresses -/

theorem cfgAddr_lt (b : Bus) (d : Dev) (f : Fn) (k : DwordNo) : cfgAddr b d f k + 3 < cfgBytes := by
  have h1 := b.isLt; have h2 := d.isLt; have h3 := f.isLt; have h4 := k.isLt
  simp only [cfgAddr, cfgBytes]; omega

/-- Two different dwords do not overlap. -/
theorem cfgAddr_apart {b b' : Bus} {d d' : Dev} {f f' : Fn} {k k' : DwordNo}
    (h : (b, d, f, k) ≠ (b', d', f', k')) :
    cfgAddr b d f k + 3 < cfgAddr b' d' f' k' ∨ cfgAddr b' d' f' k' + 3 < cfgAddr b d f k := by
  have h1 := b.isLt; have h2 := d.isLt; have h3 := f.isLt; have h4 := k.isLt
  have g1 := b'.isLt; have g2 := d'.isLt; have g3 := f'.isLt; have g4 := k'.isLt
  by_contra hc
  apply h
  simp only [cfgAddr, not_or, not_lt] at hc
  simp only [Prod.mk.injEq]
  refine ⟨?_, ?_, ?_, ?_⟩ <;> apply BitVec.eq_of_toNat_eq <;> omega

end Sys2Proof.Machine
end

