-- ==== Sys2Proof/Laws/Operands.lean ====
section
/-! SUPPORT. What the port target reads from an address word the engine builds (R80, R81, R116), and the bit scans' laws. -/

namespace Sys2Proof.Machine

variable (b : Bus) (d : Dev) (f : Fn) (o : Off)

/-- The address word is its fields side by side (R80). -/
theorem addrWord_eq_append : addrWord b d f o = 0x80#8 ++ b ++ d ++ f ++ dwordOf o ++ 0#2 := by
  apply BitVec.eq_of_getLsbD_eq
  intro i hi
  simp only [addrWord, dwordOf, BitVec.getLsbD_append, BitVec.getLsbD_or, BitVec.getLsbD_shiftLeft,
    BitVec.getLsbD_setWidth, BitVec.getLsbD_and, BitVec.getLsbD_extractLsb']
  interval_cases i <;> simp

@[simp] theorem caEnable_addrWord : caEnable (addrWord b d f o) = true := by
  simp [caEnable, addrWord]

@[simp] theorem caBus_addrWord : caBus (addrWord b d f o) = b := by
  apply BitVec.eq_of_getLsbD_eq
  intro i hi
  simp only [caBus, addrWord, BitVec.getLsbD_or, BitVec.getLsbD_shiftLeft, BitVec.getLsbD_setWidth,
    BitVec.getLsbD_and, BitVec.getLsbD_extractLsb']
  interval_cases i <;> simp

@[simp] theorem caDev_addrWord : caDev (addrWord b d f o) = d := by
  apply BitVec.eq_of_getLsbD_eq
  intro i hi
  simp only [caDev, addrWord, BitVec.getLsbD_or, BitVec.getLsbD_shiftLeft, BitVec.getLsbD_setWidth,
    BitVec.getLsbD_and, BitVec.getLsbD_extractLsb']
  interval_cases i <;> simp

@[simp] theorem caFn_addrWord : caFn (addrWord b d f o) = f := by
  apply BitVec.eq_of_getLsbD_eq
  intro i hi
  simp only [caFn, addrWord, BitVec.getLsbD_or, BitVec.getLsbD_shiftLeft, BitVec.getLsbD_setWidth,
    BitVec.getLsbD_and, BitVec.getLsbD_extractLsb']
  interval_cases i <;> simp

@[simp] theorem caDword_addrWord : caDword (addrWord b d f o) = dwordOf o := by
  apply BitVec.eq_of_getLsbD_eq
  intro i hi
  simp only [caDword, dwordOf, addrWord, BitVec.getLsbD_or, BitVec.getLsbD_shiftLeft, BitVec.getLsbD_setWidth,
    BitVec.getLsbD_and, BitVec.getLsbD_extractLsb']
  interval_cases i <;> simp

/-- A BAR register is dword 4 + IDX (R162). -/
theorem dwordOf_barOffset (idx : BarIdx) : dwordOf (barOffset idx) = 4 + idx.setWidth 6 := by
  revert idx; decide

/-- A BAR register is dword-aligned (R162). -/
@[simp] theorem subwordShift_barOffset (idx : BarIdx) : subwordShift (barOffset idx) = 0 := by
  revert idx; decide

/-- Reads of the BAR dwords a function can have are free of side effects (R33, R58). -/
theorem repeatable_barOffset (idx : BarIdx) (h : idx < 6#3) : repeatableDword (dwordOf (barOffset idx)) = true := by
  revert idx; decide

/-- MAXBAR is 6 or 2 (R161). -/
theorem maxBar_le (ht : BitVec 7) : maxBar ht ≤ 6#3 := by
  unfold maxBar; split <;> decide

/-- A slot below MAXBAR is below 6 (R161). -/
theorem lt_six_of_lt_maxBar {ht : BitVec 7} {idx : BarIdx} (h : ¬ maxBar ht ≤ idx) : idx < 6#3 := by
  have := maxBar_le ht
  simp only [BitVec.le_def, BitVec.lt_def] at *
  omega

/-! ## Bit scans -/

/-- What LSB finds (R200): a set bit with none below it. -/
theorem lowestSetBit_eq_some {v : Word} {p : BitPos} :
    lowestSetBit v = some p ↔ v.getLsbD p.toNat = true ∧ ∀ j < p.toNat, v.getLsbD j = false := by
  simp only [lowestSetBit, Option.map_eq_some_iff, List.find?_range_eq_some]
  constructor
  · rintro ⟨i, ⟨h1, h2, h3⟩, rfl⟩
    have hi : i < 32 := by simpa using h2
    have : (BitVec.ofNat 5 i).toNat = i := by simp; omega
    rw [this]
    exact ⟨h1, fun j hj => by simpa using h3 j hj⟩
  · rintro ⟨h1, h2⟩
    have := p.isLt
    exact ⟨p.toNat, ⟨h1, by simpa using this, fun j hj => by simp [h2 j hj]⟩, by simp⟩

/-- The scans find nothing only in zero (R200, R201). -/
theorem bitScan_eq_none {w : Scan} {v : Word} : bitScan w v = none ↔ v = 0#32 := by
  have key : (∀ i < 32, v.getLsbD i = false) ↔ v = 0#32 :=
    ⟨fun h => BitVec.eq_of_getLsbD_eq fun i hi => by simpa using h i hi, fun h => by simp [h]⟩
  cases w <;> simpa [bitScan, lowestSetBit, highestSetBit] using key

/-- What MSB finds (R201): a set bit with none above it. -/
theorem highestSetBit_eq_some {v : Word} {p : BitPos} :
    highestSetBit v = some p ↔ v.getLsbD p.toNat = true ∧ ∀ j, p.toNat < j → v.getLsbD j = false := by
  have hr : (List.range 32).reverse = (List.range 32).map (31 - ·) := by decide
  simp only [highestSetBit, Option.map_eq_some_iff, hr, List.find?_map, List.find?_range_eq_some]
  constructor
  · rintro ⟨_, ⟨i, ⟨h1, h2, h3⟩, rfl⟩, rfl⟩
    have hi : i < 32 := by simpa using h2
    have : (BitVec.ofNat 5 (31 - i)).toNat = 31 - i := by simp; omega
    rw [this]
    refine ⟨by simpa using h1, fun j hj => ?_⟩
    by_cases h32 : j < 32
    · have := h3 (31 - j) (by omega)
      simpa [show 31 - (31 - j) = j by omega] using this
    · exact BitVec.getLsbD_of_ge _ _ (by omega)
  · rintro ⟨h1, h2⟩
    have := p.isLt
    refine ⟨p.toNat, ⟨31 - p.toNat, ⟨?_, ?_, fun j hj => ?_⟩, by omega⟩, by simp⟩
    · simpa [show 31 - (31 - p.toNat) = p.toNat by omega] using h1
    · simp; omega
    · simp [h2 (31 - j) (by omega)]

end Sys2Proof.Machine
end

