-- ==== Sys2Proof/Laws/State.lean ====
section
/-! SUPPORT. Beside State: one lemma per field per update, each true by computation. -/

namespace Sys2Proof.Machine

variable (s : State)

/-! ## State.outlAddr -/

@[simp] theorem State.outlAddr_ca (a : Word) : (s.outlAddr a).ca = a := rfl
@[simp] theorem State.outlAddr_mode (a : Word) : (s.outlAddr a).mode = s.mode := rfl
@[simp] theorem State.outlAddr_cmd (a : Word) : (s.outlAddr a).cmd = s.cmd := rfl
@[simp] theorem State.outlAddr_seq (a : Word) : (s.outlAddr a).seq = s.seq := rfl
@[simp] theorem State.outlAddr_regs (a : Word) : (s.outlAddr a).regs = s.regs := rfl
@[simp] theorem State.outlAddr_res (a : Word) : (s.outlAddr a).res = s.res := rfl
@[simp] theorem State.outlAddr_sweep (a : Word) : (s.outlAddr a).sweep = s.sweep := rfl
@[simp] theorem State.outlAddr_fault (a : Word) : (s.outlAddr a).fault = s.fault := rfl
@[simp] theorem State.outlAddr_refused (a : Word) : (s.outlAddr a).refused = s.refused := rfl
@[simp] theorem State.outlAddr_probeOpen (a : Word) : (s.outlAddr a).probeOpen = s.probeOpen := rfl
@[simp] theorem State.outlAddr_tr (a : Word) : (s.outlAddr a).tr = s.tr ++ [⟨.outlAddr, a⟩] := rfl
@[simp] theorem State.outlAddr_evt (a : Word) : (s.outlAddr a).evt = s.evt := rfl
@[simp] theorem State.outlAddr_cfg (a : Word) : (s.outlAddr a).cfg = s.cfg := rfl
@[simp] theorem State.outlAddr_inputs (a : Word) : (s.outlAddr a).inputs = s.inputs := rfl
@[simp] theorem State.outlAddr_got (a : Word) : (s.outlAddr a).got = s.got := rfl
@[simp] theorem State.outlAddr_resets (a : Word) : (s.outlAddr a).resets = s.resets := rfl

/-! ## State.inlData -/

@[simp] theorem State.inlData_ca : (s.inlData).ca = s.ca := rfl
@[simp] theorem State.inlData_mode : (s.inlData).mode = s.mode := rfl
@[simp] theorem State.inlData_cmd : (s.inlData).cmd = s.cmd := rfl
@[simp] theorem State.inlData_seq : (s.inlData).seq = s.seq := rfl
@[simp] theorem State.inlData_regs : (s.inlData).regs = s.regs := rfl
@[simp] theorem State.inlData_res : (s.inlData).res = s.res := rfl
@[simp] theorem State.inlData_sweep : (s.inlData).sweep = s.sweep := rfl
@[simp] theorem State.inlData_fault : (s.inlData).fault = s.fault := rfl
@[simp] theorem State.inlData_refused : (s.inlData).refused = s.refused := rfl
@[simp] theorem State.inlData_probeOpen : (s.inlData).probeOpen = s.probeOpen := rfl
@[simp] theorem State.inlData_tr : (s.inlData).tr = s.tr ++ [⟨.inlData, s.selected⟩] := rfl
@[simp] theorem State.inlData_evt : (s.inlData).evt = s.evt := rfl
@[simp] theorem State.inlData_cfg : (s.inlData).cfg = s.cfg.afterRead (caBus s.ca) (caDev s.ca) (caFn s.ca) (caDword s.ca) := rfl
@[simp] theorem State.inlData_inputs : (s.inlData).inputs = s.inputs := rfl
@[simp] theorem State.inlData_got : (s.inlData).got = s.got := rfl
@[simp] theorem State.inlData_resets : (s.inlData).resets = s.resets := rfl

/-! ## State.outlData -/

@[simp] theorem State.outlData_ca (v : Word) : (s.outlData v).ca = s.ca := rfl
@[simp] theorem State.outlData_mode (v : Word) : (s.outlData v).mode = s.mode := rfl
@[simp] theorem State.outlData_cmd (v : Word) : (s.outlData v).cmd = s.cmd := rfl
@[simp] theorem State.outlData_seq (v : Word) : (s.outlData v).seq = s.seq := rfl
@[simp] theorem State.outlData_regs (v : Word) : (s.outlData v).regs = s.regs := rfl
@[simp] theorem State.outlData_res (v : Word) : (s.outlData v).res = s.res := rfl
@[simp] theorem State.outlData_sweep (v : Word) : (s.outlData v).sweep = s.sweep := rfl
@[simp] theorem State.outlData_fault (v : Word) : (s.outlData v).fault = s.fault := rfl
@[simp] theorem State.outlData_refused (v : Word) : (s.outlData v).refused = s.refused := rfl
@[simp] theorem State.outlData_probeOpen (v : Word) : (s.outlData v).probeOpen = s.probeOpen := rfl
@[simp] theorem State.outlData_tr (v : Word) : (s.outlData v).tr = s.tr ++ [⟨.outlData, v⟩] := rfl
@[simp] theorem State.outlData_evt (v : Word) : (s.outlData v).evt = s.evt := rfl
@[simp] theorem State.outlData_cfg (v : Word) : (s.outlData v).cfg = s.cfg.write (caBus s.ca) (caDev s.ca) (caFn s.ca) (caDword s.ca) v := rfl
@[simp] theorem State.outlData_inputs (v : Word) : (s.outlData v).inputs = s.inputs := rfl
@[simp] theorem State.outlData_got (v : Word) : (s.outlData v).got = s.got := rfl
@[simp] theorem State.outlData_resets (v : Word) : (s.outlData v).resets = s.resets := rfl

/-! ## State.leave -/

@[simp] theorem State.leave_ca : (s.leave).ca = s.ca := rfl
@[simp] theorem State.leave_mode : (s.leave).mode = .idle := rfl
@[simp] theorem State.leave_cmd : (s.leave).cmd = s.cmd := rfl
@[simp] theorem State.leave_seq : (s.leave).seq = s.seq := rfl
@[simp] theorem State.leave_regs : (s.leave).regs = s.regs := rfl
@[simp] theorem State.leave_res : (s.leave).res = s.res := rfl
@[simp] theorem State.leave_sweep : (s.leave).sweep = s.sweep := rfl
@[simp] theorem State.leave_fault : (s.leave).fault = s.fault := rfl
@[simp] theorem State.leave_refused : (s.leave).refused = s.refused := rfl
@[simp] theorem State.leave_probeOpen : (s.leave).probeOpen = s.probeOpen := rfl
@[simp] theorem State.leave_tr : (s.leave).tr = s.tr := rfl
@[simp] theorem State.leave_evt : (s.leave).evt = s.evt := rfl
@[simp] theorem State.leave_cfg : (s.leave).cfg = s.cfg := rfl
@[simp] theorem State.leave_inputs : (s.leave).inputs = s.inputs := rfl
@[simp] theorem State.leave_got : (s.leave).got = [] := rfl
@[simp] theorem State.leave_resets : (s.leave).resets = s.resets := rfl

/-! ## State.finish -/

@[simp] theorem State.finish_ca (r : Result) : (s.finish r).ca = s.ca := rfl
@[simp] theorem State.finish_mode (r : Result) : (s.finish r).mode = .idle := rfl
@[simp] theorem State.finish_cmd (r : Result) : (s.finish r).cmd = s.cmd := rfl
@[simp] theorem State.finish_seq (r : Result) : (s.finish r).seq = s.seq := rfl
@[simp] theorem State.finish_regs (r : Result) : (s.finish r).regs = s.regs := rfl
@[simp] theorem State.finish_res (r : Result) : (s.finish r).res = some r := rfl
@[simp] theorem State.finish_sweep (r : Result) : (s.finish r).sweep = s.sweep := rfl
@[simp] theorem State.finish_fault (r : Result) : (s.finish r).fault = s.fault := rfl
@[simp] theorem State.finish_refused (r : Result) : (s.finish r).refused = s.refused := rfl
@[simp] theorem State.finish_probeOpen (r : Result) : (s.finish r).probeOpen = s.probeOpen := rfl
@[simp] theorem State.finish_tr (r : Result) : (s.finish r).tr = s.tr := rfl
@[simp] theorem State.finish_evt (r : Result) : (s.finish r).evt = s.evt := rfl
@[simp] theorem State.finish_cfg (r : Result) : (s.finish r).cfg = s.cfg := rfl
@[simp] theorem State.finish_inputs (r : Result) : (s.finish r).inputs = s.inputs := rfl
@[simp] theorem State.finish_got (r : Result) : (s.finish r).got = [] := rfl
@[simp] theorem State.finish_resets (r : Result) : (s.finish r).resets = s.resets := rfl

/-! ## State.setRefused -/

@[simp] theorem State.setRefused_ca (r : RefusalRecord) : (s.setRefused r).ca = s.ca := rfl
@[simp] theorem State.setRefused_mode (r : RefusalRecord) : (s.setRefused r).mode = s.mode := rfl
@[simp] theorem State.setRefused_cmd (r : RefusalRecord) : (s.setRefused r).cmd = s.cmd := rfl
@[simp] theorem State.setRefused_seq (r : RefusalRecord) : (s.setRefused r).seq = s.seq := rfl
@[simp] theorem State.setRefused_regs (r : RefusalRecord) : (s.setRefused r).regs = s.regs := rfl
@[simp] theorem State.setRefused_res (r : RefusalRecord) : (s.setRefused r).res = s.res := rfl
@[simp] theorem State.setRefused_sweep (r : RefusalRecord) : (s.setRefused r).sweep = s.sweep := rfl
@[simp] theorem State.setRefused_fault (r : RefusalRecord) : (s.setRefused r).fault = s.fault := rfl
@[simp] theorem State.setRefused_refused (r : RefusalRecord) : (s.setRefused r).refused = some r := rfl
@[simp] theorem State.setRefused_probeOpen (r : RefusalRecord) : (s.setRefused r).probeOpen = s.probeOpen := rfl
@[simp] theorem State.setRefused_tr (r : RefusalRecord) : (s.setRefused r).tr = s.tr := rfl
@[simp] theorem State.setRefused_evt (r : RefusalRecord) : (s.setRefused r).evt = s.evt := rfl
@[simp] theorem State.setRefused_cfg (r : RefusalRecord) : (s.setRefused r).cfg = s.cfg := rfl
@[simp] theorem State.setRefused_inputs (r : RefusalRecord) : (s.setRefused r).inputs = s.inputs := rfl
@[simp] theorem State.setRefused_got (r : RefusalRecord) : (s.setRefused r).got = s.got := rfl
@[simp] theorem State.setRefused_resets (r : RefusalRecord) : (s.setRefused r).resets = s.resets := rfl

/-! ## State.raise -/

@[simp] theorem State.raise_ca (w : Scan) : (s.raise w).ca = s.ca := rfl
@[simp] theorem State.raise_mode (w : Scan) : (s.raise w).mode = .idle := rfl
@[simp] theorem State.raise_cmd (w : Scan) : (s.raise w).cmd = s.cmd := rfl
@[simp] theorem State.raise_seq (w : Scan) : (s.raise w).seq = s.seq := rfl
@[simp] theorem State.raise_regs (w : Scan) : (s.raise w).regs = s.regs := rfl
@[simp] theorem State.raise_res (w : Scan) : (s.raise w).res = s.res := rfl
@[simp] theorem State.raise_sweep (w : Scan) : (s.raise w).sweep = s.sweep := rfl
@[simp] theorem State.raise_fault (w : Scan) : (s.raise w).fault = some ⟨.bitScanZero, w, s.cmd⟩ := rfl
@[simp] theorem State.raise_refused (w : Scan) : (s.raise w).refused = s.refused := rfl
@[simp] theorem State.raise_probeOpen (w : Scan) : (s.raise w).probeOpen = s.probeOpen := rfl
@[simp] theorem State.raise_tr (w : Scan) : (s.raise w).tr = s.tr := rfl
@[simp] theorem State.raise_evt (w : Scan) : (s.raise w).evt = s.evt := rfl
@[simp] theorem State.raise_cfg (w : Scan) : (s.raise w).cfg = s.cfg := rfl
@[simp] theorem State.raise_inputs (w : Scan) : (s.raise w).inputs = s.inputs := rfl
@[simp] theorem State.raise_got (w : Scan) : (s.raise w).got = [] := rfl
@[simp] theorem State.raise_resets (w : Scan) : (s.raise w).resets = s.resets := rfl

/-! ## State.refuseCommand -/

@[simp] theorem State.refuseCommand_ca (w : CommandWord) : (s.refuseCommand w).ca = s.ca := rfl
@[simp] theorem State.refuseCommand_mode (w : CommandWord) : (s.refuseCommand w).mode = .idle := rfl
@[simp] theorem State.refuseCommand_cmd (w : CommandWord) : (s.refuseCommand w).cmd = s.cmd := rfl
@[simp] theorem State.refuseCommand_seq (w : CommandWord) : (s.refuseCommand w).seq = s.seq := rfl
@[simp] theorem State.refuseCommand_regs (w : CommandWord) : (s.refuseCommand w).regs = s.regs := rfl
@[simp] theorem State.refuseCommand_res (w : CommandWord) : (s.refuseCommand w).res = s.res := rfl
@[simp] theorem State.refuseCommand_sweep (w : CommandWord) : (s.refuseCommand w).sweep = s.sweep := rfl
@[simp] theorem State.refuseCommand_fault (w : CommandWord) : (s.refuseCommand w).fault = s.fault := rfl
@[simp] theorem State.refuseCommand_refused (w : CommandWord) : (s.refuseCommand w).refused = some (.illegalCommand w) := rfl
@[simp] theorem State.refuseCommand_probeOpen (w : CommandWord) : (s.refuseCommand w).probeOpen = s.probeOpen := rfl
@[simp] theorem State.refuseCommand_tr (w : CommandWord) : (s.refuseCommand w).tr = s.tr := rfl
@[simp] theorem State.refuseCommand_evt (w : CommandWord) : (s.refuseCommand w).evt = s.evt := rfl
@[simp] theorem State.refuseCommand_cfg (w : CommandWord) : (s.refuseCommand w).cfg = s.cfg := rfl
@[simp] theorem State.refuseCommand_inputs (w : CommandWord) : (s.refuseCommand w).inputs = s.inputs := rfl
@[simp] theorem State.refuseCommand_got (w : CommandWord) : (s.refuseCommand w).got = [] := rfl
@[simp] theorem State.refuseCommand_resets (w : CommandWord) : (s.refuseCommand w).resets = s.resets := rfl

/-! ## State.refusePort -/

@[simp] theorem State.refusePort_ca (d : Descriptor) (x : Word) : (s.refusePort d x).ca = s.ca := rfl
@[simp] theorem State.refusePort_mode (d : Descriptor) (x : Word) : (s.refusePort d x).mode = s.mode := rfl
@[simp] theorem State.refusePort_cmd (d : Descriptor) (x : Word) : (s.refusePort d x).cmd = s.cmd := rfl
@[simp] theorem State.refusePort_seq (d : Descriptor) (x : Word) : (s.refusePort d x).seq = s.seq := rfl
@[simp] theorem State.refusePort_regs (d : Descriptor) (x : Word) : (s.refusePort d x).regs = s.regs := rfl
@[simp] theorem State.refusePort_res (d : Descriptor) (x : Word) : (s.refusePort d x).res = s.res := rfl
@[simp] theorem State.refusePort_sweep (d : Descriptor) (x : Word) : (s.refusePort d x).sweep = s.sweep := rfl
@[simp] theorem State.refusePort_fault (d : Descriptor) (x : Word) : (s.refusePort d x).fault = s.fault := rfl
@[simp] theorem State.refusePort_refused (d : Descriptor) (x : Word) : (s.refusePort d x).refused = some (.unadmittedPortAccess d (portDatum d x) s.ca) := rfl
@[simp] theorem State.refusePort_probeOpen (d : Descriptor) (x : Word) : (s.refusePort d x).probeOpen = s.probeOpen := rfl
@[simp] theorem State.refusePort_tr (d : Descriptor) (x : Word) : (s.refusePort d x).tr = s.tr := rfl
@[simp] theorem State.refusePort_evt (d : Descriptor) (x : Word) : (s.refusePort d x).evt = s.evt := rfl
@[simp] theorem State.refusePort_cfg (d : Descriptor) (x : Word) : (s.refusePort d x).cfg = s.cfg := rfl
@[simp] theorem State.refusePort_inputs (d : Descriptor) (x : Word) : (s.refusePort d x).inputs = s.inputs := rfl
@[simp] theorem State.refusePort_got (d : Descriptor) (x : Word) : (s.refusePort d x).got = s.got := rfl
@[simp] theorem State.refusePort_resets (d : Descriptor) (x : Word) : (s.refusePort d x).resets = s.resets := rfl

/-! ## State.refuseEngine -/

@[simp] theorem State.refuseEngine_ca (d : Descriptor) (x : Word) : (s.refuseEngine d x).ca = s.ca := rfl
@[simp] theorem State.refuseEngine_mode (d : Descriptor) (x : Word) : (s.refuseEngine d x).mode = .idle := rfl
@[simp] theorem State.refuseEngine_cmd (d : Descriptor) (x : Word) : (s.refuseEngine d x).cmd = s.cmd := rfl
@[simp] theorem State.refuseEngine_seq (d : Descriptor) (x : Word) : (s.refuseEngine d x).seq = s.seq := rfl
@[simp] theorem State.refuseEngine_regs (d : Descriptor) (x : Word) : (s.refuseEngine d x).regs = s.regs := rfl
@[simp] theorem State.refuseEngine_res (d : Descriptor) (x : Word) : (s.refuseEngine d x).res = s.res := rfl
@[simp] theorem State.refuseEngine_sweep (d : Descriptor) (x : Word) : (s.refuseEngine d x).sweep = s.sweep := rfl
@[simp] theorem State.refuseEngine_fault (d : Descriptor) (x : Word) : (s.refuseEngine d x).fault = s.fault := rfl
@[simp] theorem State.refuseEngine_refused (d : Descriptor) (x : Word) : (s.refuseEngine d x).refused = some (.unadmittedPortAccess d (portDatum d x) s.ca) := rfl
@[simp] theorem State.refuseEngine_probeOpen (d : Descriptor) (x : Word) : (s.refuseEngine d x).probeOpen = s.probeOpen := rfl
@[simp] theorem State.refuseEngine_tr (d : Descriptor) (x : Word) : (s.refuseEngine d x).tr = s.tr := rfl
@[simp] theorem State.refuseEngine_evt (d : Descriptor) (x : Word) : (s.refuseEngine d x).evt = s.evt := rfl
@[simp] theorem State.refuseEngine_cfg (d : Descriptor) (x : Word) : (s.refuseEngine d x).cfg = s.cfg := rfl
@[simp] theorem State.refuseEngine_inputs (d : Descriptor) (x : Word) : (s.refuseEngine d x).inputs = s.inputs := rfl
@[simp] theorem State.refuseEngine_got (d : Descriptor) (x : Word) : (s.refuseEngine d x).got = [] := rfl
@[simp] theorem State.refuseEngine_resets (d : Descriptor) (x : Word) : (s.refuseEngine d x).resets = s.resets := rfl

/-! ## State.advance -/

@[simp] theorem State.advance_ca : (s.advance).ca = s.ca := rfl
@[simp] theorem State.advance_mode : (s.advance).mode = s.mode := rfl
@[simp] theorem State.advance_cmd : (s.advance).cmd = s.cmd := rfl
@[simp] theorem State.advance_seq : (s.advance).seq = s.seq + 1 := rfl
@[simp] theorem State.advance_regs : (s.advance).regs = s.regs := rfl
@[simp] theorem State.advance_res : (s.advance).res = s.res := rfl
@[simp] theorem State.advance_sweep : (s.advance).sweep = s.sweep := rfl
@[simp] theorem State.advance_fault : (s.advance).fault = s.fault := rfl
@[simp] theorem State.advance_refused : (s.advance).refused = s.refused := rfl
@[simp] theorem State.advance_probeOpen : (s.advance).probeOpen = s.probeOpen := rfl
@[simp] theorem State.advance_tr : (s.advance).tr = s.tr := rfl
@[simp] theorem State.advance_evt : (s.advance).evt = s.evt := rfl
@[simp] theorem State.advance_cfg : (s.advance).cfg = s.cfg := rfl
@[simp] theorem State.advance_inputs : (s.advance).inputs = s.inputs := rfl
@[simp] theorem State.advance_got : (s.advance).got = s.got := rfl
@[simp] theorem State.advance_resets : (s.advance).resets = s.resets := rfl

/-! ## State.buildAddr -/

@[simp] theorem State.buildAddr_ca (b : Bus) (d : Dev) (f : Fn) (o : Off) : (s.buildAddr b d f o).ca = s.ca := rfl
@[simp] theorem State.buildAddr_mode (b : Bus) (d : Dev) (f : Fn) (o : Off) : (s.buildAddr b d f o).mode = s.mode := rfl
@[simp] theorem State.buildAddr_cmd (b : Bus) (d : Dev) (f : Fn) (o : Off) : (s.buildAddr b d f o).cmd = s.cmd := rfl
@[simp] theorem State.buildAddr_seq (b : Bus) (d : Dev) (f : Fn) (o : Off) : (s.buildAddr b d f o).seq = s.seq := rfl
@[simp] theorem State.buildAddr_regs (b : Bus) (d : Dev) (f : Fn) (o : Off) : (s.buildAddr b d f o).regs = { s.regs with addrw := addrWord b d f o } := rfl
@[simp] theorem State.buildAddr_res (b : Bus) (d : Dev) (f : Fn) (o : Off) : (s.buildAddr b d f o).res = s.res := rfl
@[simp] theorem State.buildAddr_sweep (b : Bus) (d : Dev) (f : Fn) (o : Off) : (s.buildAddr b d f o).sweep = s.sweep := rfl
@[simp] theorem State.buildAddr_fault (b : Bus) (d : Dev) (f : Fn) (o : Off) : (s.buildAddr b d f o).fault = s.fault := rfl
@[simp] theorem State.buildAddr_refused (b : Bus) (d : Dev) (f : Fn) (o : Off) : (s.buildAddr b d f o).refused = s.refused := rfl
@[simp] theorem State.buildAddr_probeOpen (b : Bus) (d : Dev) (f : Fn) (o : Off) : (s.buildAddr b d f o).probeOpen = s.probeOpen := rfl
@[simp] theorem State.buildAddr_tr (b : Bus) (d : Dev) (f : Fn) (o : Off) : (s.buildAddr b d f o).tr = s.tr := rfl
@[simp] theorem State.buildAddr_evt (b : Bus) (d : Dev) (f : Fn) (o : Off) : (s.buildAddr b d f o).evt = s.evt := rfl
@[simp] theorem State.buildAddr_cfg (b : Bus) (d : Dev) (f : Fn) (o : Off) : (s.buildAddr b d f o).cfg = s.cfg := rfl
@[simp] theorem State.buildAddr_inputs (b : Bus) (d : Dev) (f : Fn) (o : Off) : (s.buildAddr b d f o).inputs = s.inputs := rfl
@[simp] theorem State.buildAddr_got (b : Bus) (d : Dev) (f : Fn) (o : Off) : (s.buildAddr b d f o).got = s.got := rfl
@[simp] theorem State.buildAddr_resets (b : Bus) (d : Dev) (f : Fn) (o : Off) : (s.buildAddr b d f o).resets = s.resets := rfl

/-! ## State.sendAddr -/

@[simp] theorem State.sendAddr_ca : (s.sendAddr).ca = s.regs.addrw := rfl
@[simp] theorem State.sendAddr_mode : (s.sendAddr).mode = s.mode := rfl
@[simp] theorem State.sendAddr_cmd : (s.sendAddr).cmd = s.cmd := rfl
@[simp] theorem State.sendAddr_seq : (s.sendAddr).seq = s.seq + 1 := rfl
@[simp] theorem State.sendAddr_regs : (s.sendAddr).regs = s.regs := rfl
@[simp] theorem State.sendAddr_res : (s.sendAddr).res = s.res := rfl
@[simp] theorem State.sendAddr_sweep : (s.sendAddr).sweep = s.sweep := rfl
@[simp] theorem State.sendAddr_fault : (s.sendAddr).fault = s.fault := rfl
@[simp] theorem State.sendAddr_refused : (s.sendAddr).refused = s.refused := rfl
@[simp] theorem State.sendAddr_probeOpen : (s.sendAddr).probeOpen = s.probeOpen := rfl
@[simp] theorem State.sendAddr_tr : (s.sendAddr).tr = s.tr ++ [⟨.outlAddr, s.regs.addrw⟩] := rfl
@[simp] theorem State.sendAddr_evt : (s.sendAddr).evt = s.evt := rfl
@[simp] theorem State.sendAddr_cfg : (s.sendAddr).cfg = s.cfg := rfl
@[simp] theorem State.sendAddr_inputs : (s.sendAddr).inputs = s.inputs := rfl
@[simp] theorem State.sendAddr_got : (s.sendAddr).got = s.got := rfl
@[simp] theorem State.sendAddr_resets : (s.sendAddr).resets = s.resets := rfl

/-! ## State.latchData -/

@[simp] theorem State.latchData_ca (v : Word) : (s.latchData v).ca = s.ca := rfl
@[simp] theorem State.latchData_mode (v : Word) : (s.latchData v).mode = s.mode := rfl
@[simp] theorem State.latchData_cmd (v : Word) : (s.latchData v).cmd = s.cmd := rfl
@[simp] theorem State.latchData_seq (v : Word) : (s.latchData v).seq = s.seq := rfl
@[simp] theorem State.latchData_regs (v : Word) : (s.latchData v).regs = { s.regs with data := v } := rfl
@[simp] theorem State.latchData_res (v : Word) : (s.latchData v).res = s.res := rfl
@[simp] theorem State.latchData_sweep (v : Word) : (s.latchData v).sweep = s.sweep := rfl
@[simp] theorem State.latchData_fault (v : Word) : (s.latchData v).fault = s.fault := rfl
@[simp] theorem State.latchData_refused (v : Word) : (s.latchData v).refused = s.refused := rfl
@[simp] theorem State.latchData_probeOpen (v : Word) : (s.latchData v).probeOpen = s.probeOpen := rfl
@[simp] theorem State.latchData_tr (v : Word) : (s.latchData v).tr = s.tr := rfl
@[simp] theorem State.latchData_evt (v : Word) : (s.latchData v).evt = s.evt := rfl
@[simp] theorem State.latchData_cfg (v : Word) : (s.latchData v).cfg = s.cfg := rfl
@[simp] theorem State.latchData_inputs (v : Word) : (s.latchData v).inputs = s.inputs := rfl
@[simp] theorem State.latchData_got (v : Word) : (s.latchData v).got = s.got := rfl
@[simp] theorem State.latchData_resets (v : Word) : (s.latchData v).resets = s.resets := rfl

/-! ## State.takeData -/

@[simp] theorem State.takeData_ca : (s.takeData).ca = s.ca := rfl
@[simp] theorem State.takeData_mode : (s.takeData).mode = s.mode := rfl
@[simp] theorem State.takeData_cmd : (s.takeData).cmd = s.cmd := rfl
@[simp] theorem State.takeData_seq : (s.takeData).seq = s.seq + 1 := rfl
@[simp] theorem State.takeData_regs : (s.takeData).regs = { s.regs with data := s.selected } := rfl
@[simp] theorem State.takeData_res : (s.takeData).res = s.res := rfl
@[simp] theorem State.takeData_sweep : (s.takeData).sweep = s.sweep := rfl
@[simp] theorem State.takeData_fault : (s.takeData).fault = s.fault := rfl
@[simp] theorem State.takeData_refused : (s.takeData).refused = s.refused := rfl
@[simp] theorem State.takeData_probeOpen : (s.takeData).probeOpen = s.probeOpen := rfl
@[simp] theorem State.takeData_tr : (s.takeData).tr = s.tr ++ [⟨.inlData, s.selected⟩] := rfl
@[simp] theorem State.takeData_evt : (s.takeData).evt = s.evt := rfl
@[simp] theorem State.takeData_cfg : (s.takeData).cfg = s.cfg.afterRead (caBus s.ca) (caDev s.ca) (caFn s.ca) (caDword s.ca) := rfl
@[simp] theorem State.takeData_inputs : (s.takeData).inputs = s.inputs := rfl
@[simp] theorem State.takeData_got : (s.takeData).got = s.got := rfl
@[simp] theorem State.takeData_resets : (s.takeData).resets = s.resets := rfl

/-! ## State.giveData -/

@[simp] theorem State.giveData_ca (v : Word) : (s.giveData v).ca = s.ca := rfl
@[simp] theorem State.giveData_mode (v : Word) : (s.giveData v).mode = s.mode := rfl
@[simp] theorem State.giveData_cmd (v : Word) : (s.giveData v).cmd = s.cmd := rfl
@[simp] theorem State.giveData_seq (v : Word) : (s.giveData v).seq = s.seq + 1 := rfl
@[simp] theorem State.giveData_regs (v : Word) : (s.giveData v).regs = s.regs := rfl
@[simp] theorem State.giveData_res (v : Word) : (s.giveData v).res = s.res := rfl
@[simp] theorem State.giveData_sweep (v : Word) : (s.giveData v).sweep = s.sweep := rfl
@[simp] theorem State.giveData_fault (v : Word) : (s.giveData v).fault = s.fault := rfl
@[simp] theorem State.giveData_refused (v : Word) : (s.giveData v).refused = s.refused := rfl
@[simp] theorem State.giveData_probeOpen (v : Word) : (s.giveData v).probeOpen = s.probeOpen := rfl
@[simp] theorem State.giveData_tr (v : Word) : (s.giveData v).tr = s.tr ++ [⟨.outlData, v⟩] := rfl
@[simp] theorem State.giveData_evt (v : Word) : (s.giveData v).evt = s.evt := rfl
@[simp] theorem State.giveData_cfg (v : Word) : (s.giveData v).cfg = s.cfg.write (caBus s.ca) (caDev s.ca) (caFn s.ca) (caDword s.ca) v := rfl
@[simp] theorem State.giveData_inputs (v : Word) : (s.giveData v).inputs = s.inputs := rfl
@[simp] theorem State.giveData_got (v : Word) : (s.giveData v).got = s.got := rfl
@[simp] theorem State.giveData_resets (v : Word) : (s.giveData v).resets = s.resets := rfl

/-! ## State.pushGot -/

@[simp] theorem State.pushGot_ca (v : Word) : (s.pushGot v).ca = s.ca := rfl
@[simp] theorem State.pushGot_mode (v : Word) : (s.pushGot v).mode = s.mode := rfl
@[simp] theorem State.pushGot_cmd (v : Word) : (s.pushGot v).cmd = s.cmd := rfl
@[simp] theorem State.pushGot_seq (v : Word) : (s.pushGot v).seq = s.seq := rfl
@[simp] theorem State.pushGot_regs (v : Word) : (s.pushGot v).regs = s.regs := rfl
@[simp] theorem State.pushGot_res (v : Word) : (s.pushGot v).res = s.res := rfl
@[simp] theorem State.pushGot_sweep (v : Word) : (s.pushGot v).sweep = s.sweep := rfl
@[simp] theorem State.pushGot_fault (v : Word) : (s.pushGot v).fault = s.fault := rfl
@[simp] theorem State.pushGot_refused (v : Word) : (s.pushGot v).refused = s.refused := rfl
@[simp] theorem State.pushGot_probeOpen (v : Word) : (s.pushGot v).probeOpen = s.probeOpen := rfl
@[simp] theorem State.pushGot_tr (v : Word) : (s.pushGot v).tr = s.tr := rfl
@[simp] theorem State.pushGot_evt (v : Word) : (s.pushGot v).evt = s.evt := rfl
@[simp] theorem State.pushGot_cfg (v : Word) : (s.pushGot v).cfg = s.cfg := rfl
@[simp] theorem State.pushGot_inputs (v : Word) : (s.pushGot v).inputs = s.inputs := rfl
@[simp] theorem State.pushGot_got (v : Word) : (s.pushGot v).got = s.got ++ [v] := rfl
@[simp] theorem State.pushGot_resets (v : Word) : (s.pushGot v).resets = s.resets := rfl

/-! ## State.writeCmd -/

@[simp] theorem State.writeCmd_ca (w : CommandWord) : (s.writeCmd w).ca = s.ca := rfl
@[simp] theorem State.writeCmd_mode (w : CommandWord) : (s.writeCmd w).mode = .busy := rfl
@[simp] theorem State.writeCmd_cmd (w : CommandWord) : (s.writeCmd w).cmd = w := rfl
@[simp] theorem State.writeCmd_seq (w : CommandWord) : (s.writeCmd w).seq = 0 := rfl
@[simp] theorem State.writeCmd_regs (w : CommandWord) : (s.writeCmd w).regs = s.regs := rfl
@[simp] theorem State.writeCmd_res (w : CommandWord) : (s.writeCmd w).res = s.res := rfl
@[simp] theorem State.writeCmd_sweep (w : CommandWord) : (s.writeCmd w).sweep = s.sweep := rfl
@[simp] theorem State.writeCmd_fault (w : CommandWord) : (s.writeCmd w).fault = s.fault := rfl
@[simp] theorem State.writeCmd_refused (w : CommandWord) : (s.writeCmd w).refused = s.refused := rfl
@[simp] theorem State.writeCmd_probeOpen (w : CommandWord) : (s.writeCmd w).probeOpen = s.probeOpen := rfl
@[simp] theorem State.writeCmd_tr (w : CommandWord) : (s.writeCmd w).tr = s.tr := rfl
@[simp] theorem State.writeCmd_evt (w : CommandWord) : (s.writeCmd w).evt = s.evt := rfl
@[simp] theorem State.writeCmd_cfg (w : CommandWord) : (s.writeCmd w).cfg = s.cfg := rfl
@[simp] theorem State.writeCmd_inputs (w : CommandWord) : (s.writeCmd w).inputs = s.inputs := rfl
@[simp] theorem State.writeCmd_got (w : CommandWord) : (s.writeCmd w).got = [] := rfl
@[simp] theorem State.writeCmd_resets (w : CommandWord) : (s.writeCmd w).resets = s.resets := rfl

/-! ## State.resetBlock -/

@[simp] theorem State.resetBlock_ca : (s.resetBlock).ca = Config.caReset (s.resets + 1) := rfl
@[simp] theorem State.resetBlock_mode : (s.resetBlock).mode = .idle := rfl
@[simp] theorem State.resetBlock_cmd : (s.resetBlock).cmd = 0 := rfl
@[simp] theorem State.resetBlock_seq : (s.resetBlock).seq = 0 := rfl
@[simp] theorem State.resetBlock_regs : (s.resetBlock).regs = Regs.reset := rfl
@[simp] theorem State.resetBlock_res : (s.resetBlock).res = none := rfl
@[simp] theorem State.resetBlock_sweep : (s.resetBlock).sweep = Sweep.reset := rfl
@[simp] theorem State.resetBlock_fault : (s.resetBlock).fault = none := rfl
@[simp] theorem State.resetBlock_refused : (s.resetBlock).refused = none := rfl
@[simp] theorem State.resetBlock_probeOpen : (s.resetBlock).probeOpen = false := rfl
@[simp] theorem State.resetBlock_tr : (s.resetBlock).tr = [] := rfl
@[simp] theorem State.resetBlock_evt : (s.resetBlock).evt = [] := rfl
@[simp] theorem State.resetBlock_cfg : (s.resetBlock).cfg = s.cfg.afterReset := rfl
@[simp] theorem State.resetBlock_inputs : (s.resetBlock).inputs = s.inputs := rfl
@[simp] theorem State.resetBlock_got : (s.resetBlock).got = [] := rfl
@[simp] theorem State.resetBlock_resets : (s.resetBlock).resets = s.resets + 1 := rfl

/-! ## State.sweepStart -/

@[simp] theorem State.sweepStart_devCount : s.sweepStart.devCount = 0 := rfl
@[simp] theorem State.sweepStart_devList : s.sweepStart.devList = [] := rfl
@[simp] theorem State.assign_startSweep_sweep : (s.assign .startSweep).sweep = s.sweepStart := rfl

/-- The start of a sweep leaves nothing of the enumeration state before it (R30). -/
theorem State.assign_startSweep_forgets (w : Sweep) : State.assign { s with sweep := w } .startSweep = s.assign .startSweep :=
  rfl

/-! ## State.assign: what no assignment touches -/

@[simp] theorem State.assign_ca (a : Assign) : (s.assign a).ca = s.ca := by cases a <;> rfl
@[simp] theorem State.assign_mode (a : Assign) : (s.assign a).mode = s.mode := by cases a <;> rfl
@[simp] theorem State.assign_cmd (a : Assign) : (s.assign a).cmd = s.cmd := by cases a <;> rfl
@[simp] theorem State.assign_seq (a : Assign) : (s.assign a).seq = s.seq := by cases a <;> rfl
@[simp] theorem State.assign_res (a : Assign) : (s.assign a).res = s.res := by cases a <;> rfl
@[simp] theorem State.assign_fault (a : Assign) : (s.assign a).fault = s.fault := by cases a <;> rfl
@[simp] theorem State.assign_refused (a : Assign) : (s.assign a).refused = s.refused := by cases a <;> rfl
@[simp] theorem State.assign_tr (a : Assign) : (s.assign a).tr = s.tr := by cases a <;> rfl
@[simp] theorem State.assign_cfg (a : Assign) : (s.assign a).cfg = s.cfg := by cases a <;> rfl
@[simp] theorem State.assign_inputs (a : Assign) : (s.assign a).inputs = s.inputs := by cases a <;> rfl
@[simp] theorem State.assign_got (a : Assign) : (s.assign a).got = s.got := by cases a <;> rfl
@[simp] theorem State.assign_resets (a : Assign) : (s.assign a).resets = s.resets := by cases a <;> rfl

end Sys2Proof.Machine
end

