-- ==== Sys2Proof/Laws/Access.lean ====
section
/-! SUPPORT. The backend and the engine's register accesses, once: what a read and a write of a register do to every
field (R116 to R121). -/

namespace Sys2Proof.Machine

/-! ## The backend -/

/-- Reads of R33's dwords change nothing (R58). -/
theorem Backend.afterRead_of_repeatable (c : Backend) (b : Bus) (d : Dev) (f : Fn) {k : DwordNo}
    (h : repeatableDword k = true) : c.afterRead b d f k = c := by
  cases c <;> simp [Backend.afterRead, h]

/-- A read changes nothing of the reference backend (R31). -/
@[simp] theorem Backend.afterRead_reference (p : List FnAddr) (v m : Memory) (b : Bus) (d : Dev) (f : Fn) (k : DwordNo) :
    (Backend.reference p v m).afterRead b d f k = .reference p v m := rfl

theorem Backend.afterRead_wf {c : Backend} (b : Bus) (d : Dev) (f : Fn) (k : DwordNo) (h : c.wf = true) :
    (c.afterRead b d f k).wf = true := by
  cases c with
  | platform log => simp only [Backend.afterRead]; split <;> rfl
  | reference p v m => exact h

theorem Backend.write_wf {c : Backend} (b : Bus) (d : Dev) (f : Fn) (k : DwordNo) (v : Word) (h : c.wf = true) :
    (c.write b d f k v).wf = true := by
  cases c with
  | platform log => rfl
  | reference p vals m =>
    simp only [Backend.write]
    split
    · simp only [Backend.wf, Bool.and_eq_true] at h ⊢
      exact ⟨Memory.writeDword_wf _ h.1 (cfgAddr_lt b d f k), h.2⟩
    · exact h

theorem Backend.afterReset_wf {c : Backend} (h : c.wf = true) : c.afterReset.wf = true := by
  cases c with
  | platform log => rfl
  | reference p v m => exact h

/-- Under the reference backend, writing the pattern and then the old value leaves everything as it was (R167). -/
theorem Backend.write_write_restore {p : List FnAddr} {vals m : Memory} (b : Bus) (d : Dev) (f : Fn) (k : DwordNo)
    (v : Word) (h : (Backend.reference p vals m).wf = true) :
    ((Backend.reference p vals m).write b d f k v).write b d f k ((Backend.reference p vals m).read b d f k) =
      .reference p vals m := by
  simp only [Backend.wf, Bool.and_eq_true] at h
  have ha := cfgAddr_lt b d f k
  by_cases hp : (⟨b, d, f⟩ : FnAddr) ∈ p
  · simp only [Backend.write, Backend.read, hp, if_true]
    rw [Memory.readDword_writeDword_same _ h.1 ha]
    have hm : ∀ old mask w : Word, mergeMasked (mergeMasked old mask w) mask old = old := by
      intro old mask w
      apply BitVec.eq_of_getLsbD_eq
      intro i hi
      simp only [mergeMasked, BitVec.getLsbD_or, BitVec.getLsbD_and, BitVec.getLsbD_not]
      cases old.getLsbD i <;> cases mask.getLsbD i <;> simp [hi]
    rw [hm, Memory.writeDword_writeDword _ h.1 ha]
  · simp [Backend.write, hp]

/-! ## A register read and a register write -/

variable (s : State) (b : Bus) (d : Dev) (f : Fn) (o : Off)

@[simp] theorem State.readReg_ca : (s.readReg b d f o).ca = addrWord b d f o := rfl
@[simp] theorem State.readReg_mode : (s.readReg b d f o).mode = s.mode := rfl
@[simp] theorem State.readReg_cmd : (s.readReg b d f o).cmd = s.cmd := rfl
@[simp] theorem State.readReg_seq : (s.readReg b d f o).seq = s.seq + 2 := rfl
@[simp] theorem State.readReg_regs : (s.readReg b d f o).regs = { s.regs with addrw := addrWord b d f o, data := s.cfg.read b d f (dwordOf o) } := by simp [State.readReg, State.selected]
@[simp] theorem State.readReg_res : (s.readReg b d f o).res = s.res := rfl
@[simp] theorem State.readReg_sweep : (s.readReg b d f o).sweep = s.sweep := rfl
@[simp] theorem State.readReg_fault : (s.readReg b d f o).fault = s.fault := rfl
@[simp] theorem State.readReg_refused : (s.readReg b d f o).refused = s.refused := rfl
@[simp] theorem State.readReg_probeOpen : (s.readReg b d f o).probeOpen = s.probeOpen := rfl
@[simp] theorem State.readReg_tr : (s.readReg b d f o).tr = s.tr ++ [⟨.outlAddr, addrWord b d f o⟩, ⟨.inlData, s.cfg.read b d f (dwordOf o)⟩] := by simp [State.readReg, State.selected]
@[simp] theorem State.readReg_evt : (s.readReg b d f o).evt = s.evt := rfl
@[simp] theorem State.readReg_cfg : (s.readReg b d f o).cfg = s.cfg.afterRead b d f (dwordOf o) := by simp [State.readReg]
@[simp] theorem State.readReg_inputs : (s.readReg b d f o).inputs = s.inputs := rfl
@[simp] theorem State.readReg_got : (s.readReg b d f o).got = s.got := rfl
@[simp] theorem State.readReg_resets : (s.readReg b d f o).resets = s.resets := rfl

@[simp] theorem State.readValue_readReg :
    (s.readReg b d f o).readValue o = s.cfg.read b d f (dwordOf o) >>> subwordShift o := by
  simp [State.readValue]

variable (v : Word)

@[simp] theorem State.writeReg_ca : (s.writeReg b d f o v).ca = addrWord b d f o := rfl
@[simp] theorem State.writeReg_mode : (s.writeReg b d f o v).mode = s.mode := rfl
@[simp] theorem State.writeReg_cmd : (s.writeReg b d f o v).cmd = s.cmd := rfl
@[simp] theorem State.writeReg_seq : (s.writeReg b d f o v).seq = s.seq + 2 := rfl
@[simp] theorem State.writeReg_regs : (s.writeReg b d f o v).regs = { s.regs with addrw := addrWord b d f o } := by simp [State.writeReg]
@[simp] theorem State.writeReg_res : (s.writeReg b d f o v).res = s.res := rfl
@[simp] theorem State.writeReg_sweep : (s.writeReg b d f o v).sweep = s.sweep := rfl
@[simp] theorem State.writeReg_fault : (s.writeReg b d f o v).fault = s.fault := rfl
@[simp] theorem State.writeReg_refused : (s.writeReg b d f o v).refused = s.refused := rfl
@[simp] theorem State.writeReg_probeOpen : (s.writeReg b d f o v).probeOpen = s.probeOpen := rfl
@[simp] theorem State.writeReg_tr : (s.writeReg b d f o v).tr = s.tr ++ [⟨.outlAddr, addrWord b d f o⟩, ⟨.outlData, v⟩] := by simp [State.writeReg]
@[simp] theorem State.writeReg_evt : (s.writeReg b d f o v).evt = s.evt := rfl
@[simp] theorem State.writeReg_cfg : (s.writeReg b d f o v).cfg = s.cfg.write b d f (dwordOf o) v := by simp [State.writeReg]
@[simp] theorem State.writeReg_inputs : (s.writeReg b d f o v).inputs = s.inputs := rfl
@[simp] theorem State.writeReg_got : (s.writeReg b d f o v).got = s.got := rfl
@[simp] theorem State.writeReg_resets : (s.writeReg b d f o v).resets = s.resets := rfl

end Sys2Proof.Machine
end

