-- ==== Sys2Proof/Laws/Commands.lean ====
section
/-! SUPPORT. What the shared pieces of the commands do when run: each goes on with what follows it, from a state built of
register accesses and assignments (R140, R142, R160). -/

namespace Sys2Proof.Machine

variable (bus : Bus) (dev : Dev) (fn : Fn) (s : State)

theorem run_set (a : Assign) (k : Prog) : (Prog.set a k).run s = k.run (s.assign a) := rfl

/-- The header type is bits 22:16 of dword 3 (R82, R161). -/
theorem headerType_shifted (v : Word) : headerType (v >>> 16) = v.extractLsb' 16 7 := by
  apply BitVec.eq_of_getLsbD_eq; intro i hi
  simp only [headerType, trunc8, BitVec.getLsbD_setWidth, BitVec.getLsbD_and, BitVec.getLsbD_ushiftRight,
    BitVec.getLsbD_extractLsb', hi]
  interval_cases i <;> simp

/-- MAXBAR against an index, as numbers (R161). -/
theorem maxBar_le_iff (h : BitVec 7) (idx : BarIdx) : maxBar h ≤ idx ↔ (if h = 0 then 6 else 2) ≤ idx.toNat := by
  have : (0 : BitVec 7) = 0#7 := rfl
  unfold maxBar; rw [this]; split <;> simp [BitVec.le_def]

/-- Of the four memory types only 0 is sized (R165, R170 to R172). -/
theorem unsizedWidth_of_ne {ty : BitVec 2} (h : ty ≠ 0) :
    unsizedWidth ty = some (if ty = 1 then .w20 else if ty = 2 then .w64 else .wres3) := by
  revert h; revert ty; decide

/-- HASMF (R140). -/
theorem hasmfThen_run (k : Bool → Prog) :
    (hasmfThen bus dev k).run s = (k ((s.cfg.read bus dev 0 3).getLsbD 23)).run (s.readReg bus dev 0 offHeaderType) := by
  have h1 : subwordShift offHeaderType = 16 := rfl
  have h2 : dwordOf offHeaderType = 3 := rfl
  simp only [hasmfThen, Prog.run, State.readValue_readReg, h1, h2, multiFunction, BitVec.getLsbD_ushiftRight]

/-- The record PROBE builds of three dwords (R142, R143, R33). -/
def identification (w0 w2 w15 : Word) : IdRecord :=
  { bus := bus, dev := dev, fn := fn
    vendorId := w0.extractLsb' 0 16, deviceId := w0.extractLsb' 16 16
    classId := w2.extractLsb' 24 8, subclassId := w2.extractLsb' 16 8
    interfaceId := w2.extractLsb' 8 8, revision := w2.extractLsb' 0 8
    interruptLine := w15.extractLsb' 0 8 }

/-- The state after PROBE's seven reads (R142). -/
def State.probed : State :=
  ((((((s.readReg bus dev fn offVendorId).readReg bus dev fn offDeviceId).readReg bus dev fn offRevision).readReg
    bus dev fn offInterfaceId).readReg bus dev fn offSubclassId).readReg bus dev fn offClassId).readReg bus dev fn
    offInterruptLine

/-- PROBE (R142). -/
theorem probeThen_run (k : IdRecord → Prog) :
    (probeThen bus dev fn k).run s =
      (k (identification bus dev fn (s.cfg.read bus dev fn 0) (s.cfg.read bus dev fn 2) (s.cfg.read bus dev fn 15))).run
        (s.probed bus dev fn) := by
  have h0 : dwordOf offVendorId = 0 := rfl
  have h1 : dwordOf offDeviceId = 0 := rfl
  have h2 : dwordOf offRevision = 2 := rfl
  have h3 : dwordOf offInterfaceId = 2 := rfl
  have h4 : dwordOf offSubclassId = 2 := rfl
  have h5 : dwordOf offClassId = 2 := rfl
  have h6 : dwordOf offInterruptLine = 15 := rfl
  have r0 : repeatableDword 0 = true := rfl
  have r2 : repeatableDword 2 = true := rfl
  simp only [probeThen, Prog.run, State.readValue_readReg, State.readReg_cfg, h0, h1, h2, h3, h4, h5, h6,
    Backend.afterRead_of_repeatable _ _ _ _ r0, Backend.afterRead_of_repeatable _ _ _ _ r2]
  have hid : ∀ w0 w2 w15 : Word,
      ({ bus := bus, dev := dev, fn := fn, vendorId := trunc16 (w0 >>> subwordShift offVendorId),
         deviceId := trunc16 (w0 >>> subwordShift offDeviceId), classId := trunc8 (w2 >>> subwordShift offClassId),
         subclassId := trunc8 (w2 >>> subwordShift offSubclassId),
         interfaceId := trunc8 (w2 >>> subwordShift offInterfaceId),
         revision := trunc8 (w2 >>> subwordShift offRevision),
         interruptLine := trunc8 (w15 >>> subwordShift offInterruptLine) } : IdRecord) =
      identification bus dev fn w0 w2 w15 := by
    intro w0 w2 w15
    simp only [identification, IdRecord.mk.injEq, true_and]
    refine ⟨?_, ?_, ?_, ?_, ?_, ?_, ?_⟩ <;> apply BitVec.eq_of_getLsbD_eq <;> intro i hi <;>
      simp [trunc8, trunc16, subwordShift, offVendorId, offDeviceId, offClassId, offSubclassId, offInterfaceId,
        offRevision, offInterruptLine, hi]
  rw [hid]
  rfl

variable (counted : Bool) (idx : BarIdx)

/-- The state after a bit scan inside DECBAR: SEQ counts it, or not (log 7). -/
def State.countScan : State := { s with seq := s.seq + counted.toNat }

@[simp] theorem State.countScan_cfg : (s.countScan counted).cfg = s.cfg := rfl
@[simp] theorem State.countScan_tr : (s.countScan counted).tr = s.tr := rfl
@[simp] theorem State.countScan_mode : (s.countScan counted).mode = s.mode := rfl
@[simp] theorem State.countScan_cmd : (s.countScan counted).cmd = s.cmd := rfl
@[simp] theorem State.countScan_ca : (s.countScan counted).ca = s.ca := rfl
@[simp] theorem State.countScan_regs : (s.countScan counted).regs = s.regs := rfl
@[simp] theorem State.countScan_res : (s.countScan counted).res = s.res := rfl
@[simp] theorem State.countScan_sweep : (s.countScan counted).sweep = s.sweep := rfl
@[simp] theorem State.countScan_fault : (s.countScan counted).fault = s.fault := rfl
@[simp] theorem State.countScan_refused : (s.countScan counted).refused = s.refused := rfl
@[simp] theorem State.countScan_probeOpen : (s.countScan counted).probeOpen = s.probeOpen := rfl
@[simp] theorem State.countScan_evt : (s.countScan counted).evt = s.evt := rfl
@[simp] theorem State.countScan_inputs : (s.countScan counted).inputs = s.inputs := rfl
@[simp] theorem State.countScan_got : (s.countScan counted).got = s.got := rfl
@[simp] theorem State.countScan_resets : (s.countScan counted).resets = s.resets := rfl

/-- A bit scan that finds a position goes on with it (R169). -/
theorem scanThen_run {w : Scan} {v : Word} {p : BitPos} (h : bitScan w v = some p) (k : BitPos → Prog) :
    (scanThen counted w v k).run s = (k p).run (s.countScan counted) := by
  cases counted <;> simp only [scanThen, if_true, Bool.false_eq_true, if_false, h, Prog.run] <;> rfl

/-- The state after DECBAR's header read (R160, R161). -/
def State.headed : State :=
  ((s.readReg bus dev fn offHeaderType).assign (.ht ((s.cfg.read bus dev fn 3).extractLsb' 16 7))).assign
    (.maxbar (maxBar ((s.cfg.read bus dev fn 3).extractLsb' 16 7)))

/-- The state after DECBAR's BAR read (R160, R162). -/
def State.barRead : State :=
  ((s.headed bus dev fn).readReg bus dev fn (barOffset idx)).assign (.raw (s.cfg.read bus dev fn (4 + idx.setWidth 6)))

/-- The state after the sizing probe of a BAR holding `raw`, whose read-back is `rb` under the mask (R166). -/
def State.sized (raw rb : Word) : State :=
  ((((((s.assign (.save raw)).writeReg bus dev fn (barOffset idx) sizingPattern).assign (.probeOpen true)).readReg bus dev fn
    (barOffset idx)).assign (.rb rb)).writeReg bus dev fn (barOffset idx) raw).assign (.probeOpen false)

/-- An index beyond the BAR count (R161). -/
theorem decbarThen_run_absent (k : DecodeResult → Prog)
    (h : (if (s.cfg.read bus dev fn 3).extractLsb' 16 7 = 0 then 6 else 2) ≤ idx.toNat) :
    (decbarThen counted bus dev fn idx k).run s = (k .absent).run (s.headed bus dev fn) := by
  have h1 : subwordShift offHeaderType = 16 := rfl
  have h2 : dwordOf offHeaderType = 3 := rfl
  simp only [decbarThen, Prog.run, State.readValue_readReg, h1, h2, headerType_shifted, (maxBar_le_iff _ _).2 h, if_true]
  rfl

/-- An I/O BAR (R163, R164). -/
theorem decbarThen_run_io (k : DecodeResult → Prog)
    (h : ¬ (if (s.cfg.read bus dev fn 3).extractLsb' 16 7 = 0 then 6 else 2) ≤ idx.toNat)
    (hio : (s.cfg.read bus dev fn (4 + idx.setWidth 6)).getLsbD 0 = true) :
    (decbarThen counted bus dev fn idx k).run s =
      (k (.io (ioBase (s.cfg.read bus dev fn (4 + idx.setWidth 6))))).run (s.barRead bus dev fn idx) := by
  have h1 : subwordShift offHeaderType = 16 := rfl
  have h2 : dwordOf offHeaderType = 3 := rfl
  have h3 : repeatableDword 3 = true := rfl
  rw [← maxBar_le_iff] at h
  simp only [decbarThen, Prog.run, State.readValue_readReg, h1, h2, headerType_shifted, h, if_false,
    State.assign_cfg, State.readReg_cfg, Backend.afterRead_of_repeatable _ _ _ _ h3, dwordOf_barOffset, subwordShift_barOffset,
    BitVec.ushiftRight_zero, barIsIo, hio, if_true, State.barRead, State.headed]

/-- A memory BAR of type 1, 2 or 3 (R170 to R172). -/
theorem decbarThen_run_unsized (k : DecodeResult → Prog)
    (h : ¬ (if (s.cfg.read bus dev fn 3).extractLsb' 16 7 = 0 then 6 else 2) ≤ idx.toNat) (width : MemWidth)
    (hio : (s.cfg.read bus dev fn (4 + idx.setWidth 6)).getLsbD 0 = false)
    (hw : unsizedWidth ((s.cfg.read bus dev fn (4 + idx.setWidth 6)).extractLsb' 1 2) = some width) :
    (decbarThen counted bus dev fn idx k).run s =
      (k (.memUnsized width ((s.cfg.read bus dev fn (4 + idx.setWidth 6)).getLsbD 3))).run (s.barRead bus dev fn idx) := by
  have h1 : subwordShift offHeaderType = 16 := rfl
  have h2 : dwordOf offHeaderType = 3 := rfl
  have h3 : repeatableDword 3 = true := rfl
  rw [← maxBar_le_iff] at h
  simp only [decbarThen, Prog.run, State.readValue_readReg, h1, h2, headerType_shifted, h, if_false,
    State.assign_cfg, State.readReg_cfg, Backend.afterRead_of_repeatable _ _ _ _ h3, dwordOf_barOffset, subwordShift_barOffset,
    BitVec.ushiftRight_zero, barIsIo, hio, Bool.false_eq_true, barType, barPrefetchable, hw, State.barRead, State.headed]

/-- A memory BAR of type 0, sized: up to the classification of its read-back (R166). -/
theorem decbarThen_run_sized (k : DecodeResult → Prog)
    (h : ¬ (if (s.cfg.read bus dev fn 3).extractLsb' 16 7 = 0 then 6 else 2) ≤ idx.toNat) (raw rb : Word)
    (hraw : raw = s.cfg.read bus dev fn (4 + idx.setWidth 6))
    (hio : raw.getLsbD 0 = false) (hty : raw.extractLsb' 1 2 = 0)
    (hrb : rb = (s.cfg.write bus dev fn (4 + idx.setWidth 6) sizingPattern).read bus dev fn (4 + idx.setWidth 6) &&&
      sizingPattern) :
    (decbarThen counted bus dev fn idx k).run s =
      Prog.run (if rb = 0#32 then k (classifyZero (raw.getLsbD 3))
        else scanThen counted .lsb rb fun lo => .set (.lo lo) <| scanThen counted .msb rb fun hi => .set (.hi hi) <|
          k (classifyNonzero (raw.getLsbD 3) lo hi))
        ((s.barRead bus dev fn idx).sized bus dev fn idx raw rb) := by
  have h1 : subwordShift offHeaderType = 16 := rfl
  have h2 : dwordOf offHeaderType = 3 := rfl
  have h3 : repeatableDword 3 = true := rfl
  have h5 : unsizedWidth 0 = none := rfl
  rw [← maxBar_le_iff] at h
  have h4 : repeatableDword (4 + idx.setWidth 6) = true := by
    rw [← dwordOf_barOffset]; exact repeatable_barOffset idx (lt_six_of_lt_maxBar h)
  have hsave : ∀ u : State, (((((u.assign (.save raw)).writeReg bus dev fn (barOffset idx) sizingPattern).assign
      (.probeOpen true)).readReg bus dev fn (barOffset idx)).assign (.rb rb)).regs.save = raw := fun _ => rfl
  simp only [decbarThen, sizingThen, Prog.run, State.readValue_readReg, h1, h2, headerType_shifted, h, if_false,
    State.assign_cfg, State.readReg_cfg, State.writeReg_cfg, Source.get,
    Backend.afterRead_of_repeatable _ _ _ _ h3,
    Backend.afterRead_of_repeatable _ _ _ _ h4, dwordOf_barOffset, subwordShift_barOffset,
    BitVec.ushiftRight_zero, ← hraw, barIsIo, hio, Bool.false_eq_true, barType, barPrefetchable, hty, h5, hsave, ← hrb,
    State.barRead, State.headed, State.sized]

/-! ## What State.probed is, field by field -/

@[simp] theorem State.probed_mode : (s.probed bus dev fn).mode = s.mode := rfl
@[simp] theorem State.probed_cmd : (s.probed bus dev fn).cmd = s.cmd := rfl
@[simp] theorem State.probed_res : (s.probed bus dev fn).res = s.res := rfl
@[simp] theorem State.probed_sweep : (s.probed bus dev fn).sweep = s.sweep := rfl
@[simp] theorem State.probed_fault : (s.probed bus dev fn).fault = s.fault := rfl
@[simp] theorem State.probed_refused : (s.probed bus dev fn).refused = s.refused := rfl
@[simp] theorem State.probed_evt : (s.probed bus dev fn).evt = s.evt := rfl
@[simp] theorem State.probed_inputs : (s.probed bus dev fn).inputs = s.inputs := rfl
@[simp] theorem State.probed_got : (s.probed bus dev fn).got = s.got := rfl
@[simp] theorem State.probed_resets : (s.probed bus dev fn).resets = s.resets := rfl
@[simp] theorem State.probed_probeOpen : (s.probed bus dev fn).probeOpen = s.probeOpen := rfl
@[simp] theorem State.probed_ca : (s.probed bus dev fn).ca = addrWord bus dev fn offInterruptLine := rfl
@[simp] theorem State.probed_seq : (s.probed bus dev fn).seq = s.seq + 14 := rfl

/-! ## What State.headed is, field by field -/

@[simp] theorem State.headed_mode : (s.headed bus dev fn).mode = s.mode := rfl
@[simp] theorem State.headed_cmd : (s.headed bus dev fn).cmd = s.cmd := rfl
@[simp] theorem State.headed_res : (s.headed bus dev fn).res = s.res := rfl
@[simp] theorem State.headed_sweep : (s.headed bus dev fn).sweep = s.sweep := rfl
@[simp] theorem State.headed_fault : (s.headed bus dev fn).fault = s.fault := rfl
@[simp] theorem State.headed_refused : (s.headed bus dev fn).refused = s.refused := rfl
@[simp] theorem State.headed_evt : (s.headed bus dev fn).evt = s.evt := rfl
@[simp] theorem State.headed_inputs : (s.headed bus dev fn).inputs = s.inputs := rfl
@[simp] theorem State.headed_got : (s.headed bus dev fn).got = s.got := rfl
@[simp] theorem State.headed_resets : (s.headed bus dev fn).resets = s.resets := rfl
@[simp] theorem State.headed_probeOpen : (s.headed bus dev fn).probeOpen = s.probeOpen := rfl
@[simp] theorem State.headed_ca : (s.headed bus dev fn).ca = addrWord bus dev fn offHeaderType := rfl
@[simp] theorem State.headed_seq : (s.headed bus dev fn).seq = s.seq + 2 := rfl

/-! ## What State.barRead is, field by field -/

@[simp] theorem State.barRead_mode : (s.barRead bus dev fn idx).mode = s.mode := rfl
@[simp] theorem State.barRead_cmd : (s.barRead bus dev fn idx).cmd = s.cmd := rfl
@[simp] theorem State.barRead_res : (s.barRead bus dev fn idx).res = s.res := rfl
@[simp] theorem State.barRead_sweep : (s.barRead bus dev fn idx).sweep = s.sweep := rfl
@[simp] theorem State.barRead_fault : (s.barRead bus dev fn idx).fault = s.fault := rfl
@[simp] theorem State.barRead_refused : (s.barRead bus dev fn idx).refused = s.refused := rfl
@[simp] theorem State.barRead_evt : (s.barRead bus dev fn idx).evt = s.evt := rfl
@[simp] theorem State.barRead_inputs : (s.barRead bus dev fn idx).inputs = s.inputs := rfl
@[simp] theorem State.barRead_got : (s.barRead bus dev fn idx).got = s.got := rfl
@[simp] theorem State.barRead_resets : (s.barRead bus dev fn idx).resets = s.resets := rfl
@[simp] theorem State.barRead_probeOpen : (s.barRead bus dev fn idx).probeOpen = s.probeOpen := rfl
@[simp] theorem State.barRead_ca : (s.barRead bus dev fn idx).ca = addrWord bus dev fn (barOffset idx) := rfl
@[simp] theorem State.barRead_seq : (s.barRead bus dev fn idx).seq = s.seq + 4 := rfl

variable (raw rb : Word)

/-! ## What State.sized is, field by field -/

@[simp] theorem State.sized_mode : (s.sized bus dev fn idx raw rb).mode = s.mode := rfl
@[simp] theorem State.sized_cmd : (s.sized bus dev fn idx raw rb).cmd = s.cmd := rfl
@[simp] theorem State.sized_res : (s.sized bus dev fn idx raw rb).res = s.res := rfl
@[simp] theorem State.sized_sweep : (s.sized bus dev fn idx raw rb).sweep = s.sweep := rfl
@[simp] theorem State.sized_fault : (s.sized bus dev fn idx raw rb).fault = s.fault := rfl
@[simp] theorem State.sized_refused : (s.sized bus dev fn idx raw rb).refused = s.refused := rfl
@[simp] theorem State.sized_evt : (s.sized bus dev fn idx raw rb).evt = s.evt := rfl
@[simp] theorem State.sized_inputs : (s.sized bus dev fn idx raw rb).inputs = s.inputs := rfl
@[simp] theorem State.sized_got : (s.sized bus dev fn idx raw rb).got = s.got := rfl
@[simp] theorem State.sized_resets : (s.sized bus dev fn idx raw rb).resets = s.resets := rfl
@[simp] theorem State.sized_probeOpen : (s.sized bus dev fn idx raw rb).probeOpen = false := rfl
@[simp] theorem State.sized_ca : (s.sized bus dev fn idx raw rb).ca = addrWord bus dev fn (barOffset idx) := rfl
@[simp] theorem State.sized_seq : (s.sized bus dev fn idx raw rb).seq = s.seq + 6 := rfl

/-! ## Backend and trace after each -/

theorem State.probed_cfg : (s.probed bus dev fn).cfg = s.cfg := by
  simp [State.probed, Backend.afterRead_of_repeatable, show repeatableDword (dwordOf offVendorId) = true from rfl,
    show repeatableDword (dwordOf offDeviceId) = true from rfl, show repeatableDword (dwordOf offRevision) = true from rfl,
    show repeatableDword (dwordOf offInterfaceId) = true from rfl,
    show repeatableDword (dwordOf offSubclassId) = true from rfl, show repeatableDword (dwordOf offClassId) = true from rfl,
    show repeatableDword (dwordOf offInterruptLine) = true from rfl]

theorem State.probed_tr : (s.probed bus dev fn).tr = s.tr ++
    [⟨.outlAddr, addrWord bus dev fn offVendorId⟩, ⟨.inlData, s.cfg.read bus dev fn 0⟩,
      ⟨.outlAddr, addrWord bus dev fn offDeviceId⟩, ⟨.inlData, s.cfg.read bus dev fn 0⟩,
      ⟨.outlAddr, addrWord bus dev fn offRevision⟩, ⟨.inlData, s.cfg.read bus dev fn 2⟩,
      ⟨.outlAddr, addrWord bus dev fn offInterfaceId⟩, ⟨.inlData, s.cfg.read bus dev fn 2⟩,
      ⟨.outlAddr, addrWord bus dev fn offSubclassId⟩, ⟨.inlData, s.cfg.read bus dev fn 2⟩,
      ⟨.outlAddr, addrWord bus dev fn offClassId⟩, ⟨.inlData, s.cfg.read bus dev fn 2⟩,
      ⟨.outlAddr, addrWord bus dev fn offInterruptLine⟩, ⟨.inlData, s.cfg.read bus dev fn 15⟩] := by
  simp [State.probed, Backend.afterRead_of_repeatable, show dwordOf offVendorId = 0#6 from rfl,
    show dwordOf offDeviceId = 0#6 from rfl, show dwordOf offRevision = 2#6 from rfl,
    show dwordOf offInterfaceId = 2#6 from rfl, show dwordOf offSubclassId = 2#6 from rfl,
    show dwordOf offClassId = 2#6 from rfl, show dwordOf offInterruptLine = 15#6 from rfl,
    show repeatableDword 0#6 = true from rfl, show repeatableDword 2#6 = true from rfl]

theorem State.headed_cfg : (s.headed bus dev fn).cfg = s.cfg := by
  simp [State.headed, Backend.afterRead_of_repeatable, show repeatableDword (dwordOf offHeaderType) = true from rfl]

theorem State.headed_tr : (s.headed bus dev fn).tr = s.tr ++
    [⟨.outlAddr, addrWord bus dev fn offHeaderType⟩, ⟨.inlData, s.cfg.read bus dev fn 3⟩] := by
  simp [State.headed, show dwordOf offHeaderType = 3#6 from rfl]

theorem State.barRead_cfg (h : repeatableDword (4 + idx.setWidth 6) = true) :
    (s.barRead bus dev fn idx).cfg = s.cfg := by
  simp only [State.barRead, State.assign_cfg, State.readReg_cfg, State.headed_cfg, dwordOf_barOffset,
    Backend.afterRead_of_repeatable _ _ _ _ h]

theorem State.barRead_tr : (s.barRead bus dev fn idx).tr = s.tr ++
    [⟨.outlAddr, addrWord bus dev fn offHeaderType⟩, ⟨.inlData, s.cfg.read bus dev fn 3⟩] ++
    [⟨.outlAddr, addrWord bus dev fn (barOffset idx)⟩, ⟨.inlData, s.cfg.read bus dev fn (4 + idx.setWidth 6)⟩] := by
  simp only [State.barRead, State.assign_tr, State.readReg_tr, State.headed_tr, State.headed_cfg, dwordOf_barOffset]

theorem State.sized_cfg (h : repeatableDword (4 + idx.setWidth 6) = true) :
    (s.sized bus dev fn idx raw rb).cfg =
      (s.cfg.write bus dev fn (4 + idx.setWidth 6) sizingPattern).write bus dev fn (4 + idx.setWidth 6) raw := by
  simp only [State.sized, State.assign_cfg, State.writeReg_cfg, State.readReg_cfg, dwordOf_barOffset,
    Backend.afterRead_of_repeatable _ _ _ _ h]

theorem State.sized_tr : (s.sized bus dev fn idx raw rb).tr = s.tr ++
    [⟨.outlAddr, addrWord bus dev fn (barOffset idx)⟩, ⟨.outlData, sizingPattern⟩] ++
    [⟨.outlAddr, addrWord bus dev fn (barOffset idx)⟩, ⟨.inlData, (s.cfg.write bus dev fn (4 + idx.setWidth 6) sizingPattern).read bus dev fn (4 + idx.setWidth 6)⟩] ++
    [⟨.outlAddr, addrWord bus dev fn (barOffset idx)⟩, ⟨.outlData, raw⟩] := by
  simp only [State.sized, State.assign_tr, State.writeReg_tr, State.readReg_tr, State.assign_cfg, State.writeReg_cfg,
    dwordOf_barOffset]

end Sys2Proof.Machine

namespace Sys2Proof.Machine

variable (bus : Bus) (dev : Dev) (fn : Fn) (s : State) (counted : Bool) (idx : BarIdx)

/-! ## DECBAR, whatever it finds -/

/-- An address word has R80's format. -/
theorem addressFormat_addrWord (o : Off) : addressFormat (addrWord bus dev fn o) = true := by
  simp only [addressFormat, addrWord_eq_append, Bool.and_eq_true, beq_iff_eq]
  refine ⟨⟨?_, ?_⟩, ?_⟩
  · have := caEnable_addrWord bus dev fn o; rw [addrWord_eq_append] at this; exact this
  · apply BitVec.eq_of_getLsbD_eq; intro i hi
    simp only [BitVec.getLsbD_extractLsb', BitVec.getLsbD_append, hi]
    interval_cases i <;> simp
  · apply BitVec.eq_of_getLsbD_eq; intro i hi
    simp only [BitVec.getLsbD_extractLsb', BitVec.getLsbD_append, hi]
    interval_cases i <;> simp

/-- Reads of a BAR within the BAR count have no side effect (R33, R58). -/
theorem repeatable_of_lt_maxBar {h : BitVec 7} {idx : BarIdx} (hi : ¬ (if h = 0 then 6 else 2) ≤ idx.toNat) :
    repeatableDword (4 + idx.setWidth 6) = true := by
  rw [← maxBar_le_iff] at hi
  rw [← dwordOf_barOffset]; exact repeatable_barOffset idx (lt_six_of_lt_maxBar hi)

/-- A scan of a nonzero value finds a position (R200, R201). -/
theorem bitScan_of_ne {w : Scan} {v : Word} (h : v ≠ 0#32) : ∃ p, bitScan w v = some p := by
  cases hh : bitScan w v with
  | none => exact absurd (bitScan_eq_none.1 hh) h
  | some p => exact ⟨p, rfl⟩

/-- Everything DECBAR can do, once: it goes on with a result that depends on the backend only, having appended `l` to TR (the
header read; that and the raw read; or those and the sizing probe), and left no window open (R160, R167, R173, R174). -/
theorem decbarThen_run : ∃ (r : DecodeResult) (t : State) (l : List PortRecord),
    (∀ k, (decbarThen counted bus dev fn idx k).run s = (k r).run t) ∧ t.tr = s.tr ++ l ∧
    pairedTrace l = true ∧ 2 ≤ l.length ∧ l.length ≤ 10 ∧
    (l = readRecords bus dev fn offHeaderType (s.cfg.read bus dev fn 3) ∨ ∃ raw back,
      raw = s.cfg.read bus dev fn (4 + idx.setWidth 6) ∧
      (l = readRecords bus dev fn offHeaderType (s.cfg.read bus dev fn 3) ++ readRecords bus dev fn (barOffset idx) raw ∨
        l = readRecords bus dev fn offHeaderType (s.cfg.read bus dev fn 3) ++ readRecords bus dev fn (barOffset idx) raw ++
          writeRecords bus dev fn (barOffset idx) sizingPattern ++ readRecords bus dev fn (barOffset idx) back ++
          writeRecords bus dev fn (barOffset idx) raw)) ∧
    (s.probeOpen = false → t.probeOpen = false) ∧
    (∀ p v m, s.cfg = .reference p v m → s.cfg.wf = true → t.cfg = s.cfg) ∧
    t.mode = s.mode ∧ decbarFrame s t ∧ t.got = s.got ∧ t.res = s.res ∧
    (∀ s' : State, s'.cfg = s.cfg → ∃ t' : State, (∀ k, (decbarThen counted bus dev fn idx k).run s' = (k r).run t') ∧
      t'.tr = s'.tr ++ l ∧ t'.cfg = t.cfg ∧ t'.sweep = s'.sweep ∧ t'.evt = s'.evt) := by
  by_cases h : (if (s.cfg.read bus dev fn 3).extractLsb' 16 7 = 0 then 6 else 2) ≤ idx.toNat
  · refine ⟨_, _, _, fun k => decbarThen_run_absent _ _ _ _ counted _ k h, State.headed_tr _ _ _ _, ?_⟩
    simp [pairedTrace, addressFormat_addrWord, readRecords, State.headed_cfg, decbarFrame, commandFrame]
    intro s' hc
    refine ⟨_, fun k => decbarThen_run_absent bus dev fn s' counted idx k (by rw [hc]; exact h), ?_⟩
    simp [State.headed_tr, State.headed_cfg, hc]
  have hp := repeatable_of_lt_maxBar h
  by_cases h0 : (s.cfg.read bus dev fn (4 + idx.setWidth 6)).getLsbD 0 = true
  · refine ⟨_, _, _, fun k => decbarThen_run_io _ _ _ _ counted _ k h h0, by rw [State.barRead_tr, List.append_assoc], ?_⟩
    simp [pairedTrace, addressFormat_addrWord, readRecords, State.barRead_cfg _ _ _ _ _ hp, decbarFrame, commandFrame]
    intro s' hc
    refine ⟨s'.barRead bus dev fn idx, fun k => by
      rw [decbarThen_run_io bus dev fn s' counted idx k (by rw [hc]; exact h) (by rw [hc]; exact h0), hc]; rfl, ?_⟩
    simp [State.barRead_tr, State.barRead_cfg _ _ _ _ _ hp, hc]
  simp only [Bool.not_eq_true] at h0
  by_cases hty : (s.cfg.read bus dev fn (4 + idx.setWidth 6)).extractLsb' 1 2 = 0
  swap
  · refine ⟨_, _, _, fun k => decbarThen_run_unsized _ _ _ _ counted _ k h _ h0 (unsizedWidth_of_ne hty), by rw [State.barRead_tr, List.append_assoc], ?_⟩
    simp [pairedTrace, addressFormat_addrWord, readRecords, State.barRead_cfg _ _ _ _ _ hp, decbarFrame, commandFrame]
    intro s' hc
    refine ⟨s'.barRead bus dev fn idx, fun k => by rw [decbarThen_run_unsized bus dev fn s' counted idx k (by rw [hc]; exact h) _
      (by rw [hc]; exact h0) (by rw [hc]; exact unsizedWidth_of_ne hty), hc]; simp, ?_⟩
    simp [State.barRead_tr, State.barRead_cfg _ _ _ _ _ hp, hc]
  have key := fun k => decbarThen_run_sized bus dev fn s counted idx k h _ _ rfl h0 hty rfl
  generalize hrb : (s.cfg.write bus dev fn (4 + idx.setWidth 6) sizingPattern).read bus dev fn (4 + idx.setWidth 6) &&&
    sizingPattern = rb at key
  generalize hraw : s.cfg.read bus dev fn (4 + idx.setWidth 6) = raw at *
  have key' : ∀ s' : State, s'.cfg = s.cfg → ∀ k, (decbarThen counted bus dev fn idx k).run s' = _ := fun s' hc k =>
    decbarThen_run_sized bus dev fn s' counted idx k (by rw [hc]; exact h) raw rb (by rw [hc]; exact hraw.symm) h0 hty (by rw [hc]; exact hrb.symm)
  have htr : ∀ s' : State, s'.cfg = s.cfg → ((s'.barRead bus dev fn idx).sized bus dev fn idx raw rb).tr = s'.tr ++
      ([⟨.outlAddr, addrWord bus dev fn offHeaderType⟩, ⟨.inlData, s.cfg.read bus dev fn 3⟩,
        ⟨.outlAddr, addrWord bus dev fn (barOffset idx)⟩, ⟨.inlData, raw⟩,
        ⟨.outlAddr, addrWord bus dev fn (barOffset idx)⟩, ⟨.outlData, sizingPattern⟩,
        ⟨.outlAddr, addrWord bus dev fn (barOffset idx)⟩,
        ⟨.inlData, (s.cfg.write bus dev fn (4 + idx.setWidth 6) sizingPattern).read bus dev fn (4 + idx.setWidth 6)⟩,
        ⟨.outlAddr, addrWord bus dev fn (barOffset idx)⟩, ⟨.outlData, raw⟩] : List PortRecord) := by
    intro s' hc
    rw [State.sized_tr, State.barRead_tr, State.barRead_cfg _ _ _ _ _ hp, hc, hraw]; simp
  have hcfg : ∀ s' : State, s'.cfg = s.cfg →
      ((s'.barRead bus dev fn idx).sized bus dev fn idx raw rb).cfg =
        (s.cfg.write bus dev fn (4 + idx.setWidth 6) sizingPattern).write bus dev fn (4 + idx.setWidth 6) raw := by
    intro s' hc
    rw [State.sized_cfg _ _ _ _ _ _ _ hp, State.barRead_cfg _ _ _ _ _ hp, hc]
  by_cases hz : rb = 0#32
  · refine ⟨_, _, _, fun k => by rw [key k, if_pos hz], htr s rfl, ?_⟩
    refine ⟨by simp [pairedTrace, addressFormat_addrWord], by simp, by simp, ?_,
      by simp, ?_, by simp, by simp [decbarFrame, commandFrame], by simp, by simp, ?_⟩
    · right; exact ⟨raw, _, rfl, .inr rfl⟩
    · intro p v m hs hw
      rw [hcfg s rfl, ← hraw, hs]; rw [hs] at hw; exact Backend.write_write_restore bus dev fn _ _ hw
    · intro s' hc
      refine ⟨_, fun k => by rw [key' s' hc k, if_pos hz], ?_⟩
      rw [htr s' hc, hcfg s' hc, hcfg s rfl]; simp
  · obtain ⟨lo, hlo⟩ := bitScan_of_ne (w := .lsb) hz
    obtain ⟨hi, hhi⟩ := bitScan_of_ne (w := .msb) hz
    refine ⟨classifyNonzero (raw.getLsbD 3) lo hi,
      (((((s.barRead bus dev fn idx).sized bus dev fn idx raw rb).countScan counted).assign (.lo lo)).countScan counted).assign (.hi hi), _,
      fun k => by rw [key k, if_neg hz]; simp only [scanThen_run _ _ hlo, scanThen_run _ _ hhi, run_set],
      by rw [State.assign_tr, State.countScan_tr, State.assign_tr, State.countScan_tr]; exact htr s rfl, ?_⟩
    refine ⟨by simp [pairedTrace, addressFormat_addrWord], by simp, by simp, ?_,
      by simp [State.assign], ?_, by simp, by simp [decbarFrame, commandFrame, State.assign], by simp, by simp, ?_⟩
    · right; exact ⟨raw, _, rfl, .inr rfl⟩
    · intro p v m hs hw
      simp only [State.assign_cfg, State.countScan_cfg]; rw [hcfg s rfl, ← hraw, hs]; rw [hs] at hw
      exact Backend.write_write_restore bus dev fn _ _ hw
    · intro s' hc
      refine ⟨(((((s'.barRead bus dev fn idx).sized bus dev fn idx raw rb).countScan counted).assign (.lo lo)).countScan counted).assign
        (.hi hi), fun k => by rw [key' s' hc k, if_neg hz]; simp only [scanThen_run _ _ hlo, scanThen_run _ _ hhi, run_set], ?_⟩
      simp only [State.assign_cfg, State.countScan_cfg, State.assign_tr, State.countScan_tr]
      rw [htr s' hc, hcfg s' hc, hcfg s rfl]; simp [State.assign]

/-! ## Events (R227) -/

/-- What a report emits, slot by slot. -/
theorem deviceEvents_eq (id : IdRecord) (bars : Bars) :
    .device (describe id bars) :: barEvents id bars = deviceEvents (describe id bars) := by
  obtain ⟨r0, r1, r2, r3, r4, r5⟩ := bars
  have one : ∀ (i : BarIdx) (r : DecodeResult) l,
      (((i, r) :: l).filter fun p => p.2 != .absent).map (fun p => Event.bar id.bus id.dev id.fn p.1 p.2) =
        slotEvent id i r ++ (l.filter fun p => p.2 != .absent).map fun p => Event.bar id.bus id.dev id.fn p.1 p.2 := by
    intro i r l
    by_cases h : r = .absent <;> simp [slotEvent, h]
  simp only [barEvents, Bars.indexed, deviceEvents, describe, one]
  simp

/-! ## Loops (R222) -/

/-- A loop whose body always goes on with what follows it does so too, and relates its ends by any `S` its body extends. -/
theorem forEach_run {α : Type} (body : α → Prog → Prog) (R : α → State → State → Prop)
    (h : ∀ x s, ∃ t, (∀ rest, (body x rest).run s = rest.run t) ∧ R x s t) (S : Nat → State → State → Prop)
    (h0 : ∀ s, S 0 s s) (xs : List α)
    (hs : ∀ n x s t u, xs[n]? = some x → S n s t → R x t u → S (n + 1) s u) (s : State) :
    ∃ t, (∀ k, (forEach xs body k).run s = k.run t) ∧ S xs.length s t := by
  induction xs using List.reverseRecOn generalizing s with
  | nil => exact ⟨s, fun k => rfl, h0 s⟩
  | append_singleton xs x ih =>
    obtain ⟨t, h1, h2⟩ := ih (fun n y s t u hn => hs n y s t u (by
      rw [List.getElem?_append_left]; exact hn; exact (List.getElem?_eq_some_iff.1 hn).1)) s
    obtain ⟨u, h3, h4⟩ := h x t
    refine ⟨u, fun k => ?_, ?_⟩
    · have : forEach (xs ++ [x]) body k = forEach xs body (body x k) := by simp [forEach]
      rw [this, h1, h3]
    · simpa using hs xs.length x s t u (by simp) h2 h4

end Sys2Proof.Machine
end

