-- ==== Sys2Proof/Laws/Decode.lean ====
section
/-! SUPPORT. The fields of a command word that was put together from fields (R88, R92). -/

namespace Sys2Proof

variable (val : Word) (op : BitVec 4) (idx : BarIdx) (bus : Bus) (dev : Dev) (fn : Fn) (off : Off)

@[simp] theorem fieldVal_commandWord : fieldVal (commandWord val op idx bus dev fn off) = val := by
  apply BitVec.eq_of_getLsbD_eq
  intro i hi
  simp only [fieldVal, commandWord, BitVec.getLsbD_append, BitVec.getLsbD_extractLsb']
  interval_cases i <;> simp

@[simp] theorem fieldOp_commandWord : fieldOp (commandWord val op idx bus dev fn off) = op := by
  apply BitVec.eq_of_getLsbD_eq
  intro i hi
  simp only [fieldOp, commandWord, BitVec.getLsbD_append, BitVec.getLsbD_extractLsb']
  interval_cases i <;> simp

@[simp] theorem fieldIdx_commandWord : fieldIdx (commandWord val op idx bus dev fn off) = idx := by
  apply BitVec.eq_of_getLsbD_eq
  intro i hi
  simp only [fieldIdx, commandWord, BitVec.getLsbD_append, BitVec.getLsbD_extractLsb']
  interval_cases i <;> simp

@[simp] theorem fieldBus_commandWord : fieldBus (commandWord val op idx bus dev fn off) = bus := by
  apply BitVec.eq_of_getLsbD_eq
  intro i hi
  simp only [fieldBus, commandWord, BitVec.getLsbD_append, BitVec.getLsbD_extractLsb']
  interval_cases i <;> simp

@[simp] theorem fieldDev_commandWord : fieldDev (commandWord val op idx bus dev fn off) = dev := by
  apply BitVec.eq_of_getLsbD_eq
  intro i hi
  simp only [fieldDev, commandWord, BitVec.getLsbD_append, BitVec.getLsbD_extractLsb']
  interval_cases i <;> simp

@[simp] theorem fieldFn_commandWord : fieldFn (commandWord val op idx bus dev fn off) = fn := by
  apply BitVec.eq_of_getLsbD_eq
  intro i hi
  simp only [fieldFn, commandWord, BitVec.getLsbD_append, BitVec.getLsbD_extractLsb']
  interval_cases i <;> simp

@[simp] theorem fieldOff_commandWord : fieldOff (commandWord val op idx bus dev fn off) = off := by
  apply BitVec.eq_of_getLsbD_eq
  intro i hi
  simp only [fieldOff, commandWord, BitVec.getLsbD_append, BitVec.getLsbD_extractLsb']
  interval_cases i <;> simp

@[simp] theorem fieldRsv_commandWord : fieldRsv (commandWord val op idx bus dev fn off) = 0 := by
  apply BitVec.eq_of_getLsbD_eq
  intro i hi
  simp only [fieldRsv, commandWord, BitVec.getLsbD_append, BitVec.getLsbD_extractLsb']
  interval_cases i; simp

/-- A word whose reserved bit is zero is put together from its fields (R88). -/
theorem commandWord_fields (w : CommandWord) (h : fieldRsv w = 0) :
    commandWord (fieldVal w) (fieldOp w) (fieldIdx w) (fieldBus w) (fieldDev w) (fieldFn w) (fieldOff w) = w := by
  have h24 : w[24] = false := by
    have := congrArg (fun x => BitVec.getLsbD x 0) h
    simpa [fieldRsv] using this
  apply BitVec.eq_of_getLsbD_eq
  intro i hi
  simp only [commandWord, fieldVal, fieldOp, fieldIdx, fieldBus, fieldDev, fieldFn, fieldOff,
    BitVec.getLsbD_append, BitVec.getLsbD_extractLsb']
  interval_cases i <;> simp [h24]

end Sys2Proof
end

