-- ==== Sys2Proof/Laws/PerInstr.lean ====
section
/-! SUPPORT. Per instruction: its encoding lies in the row of its own mnemonic (R87, R90). -/

namespace Sys2Proof.Laws.TableRow

/-- R87's table of admitted descriptors. -/
def portRows : List (String × Descriptor) :=
  [("OUTL_ADDR", 0x50CF8#20), ("INL_DATA", 0x40CFC#20), ("OUTL_DATA", 0x50CFC#20)]

/-- The word an instruction is encoded as is selected by the row of its mnemonic. -/
def Statement (i : Instr) : Prop :=
  match encode i with
  | .command w => ∃ r ∈ commandRows, r.mnemonic = mnemonicOf i ∧ r.selects w = true
  | .transaction d _ => (mnemonicOf i, d) ∈ portRows

/-- A put-together word under a row's mask. -/
theorem selects_of_bits {r : CommandRow} {w : CommandWord}
    (h : ∀ i < 64, r.mask.getLsbD i = true → w.getLsbD i = r.pattern.getLsbD i)
    (hp : r.pattern &&& ~~~ r.mask = 0) : r.selects w = true := by
  simp only [CommandRow.selects, beq_iff_eq]
  apply BitVec.eq_of_getLsbD_eq
  intro i hi
  have hpi := congrArg (fun x => BitVec.getLsbD x i) hp
  simp only [BitVec.getLsbD_and, BitVec.getLsbD_not, hi, decide_true, Bool.true_and] at hpi
  rw [BitVec.getLsbD_and]
  cases hm : r.mask.getLsbD i with
  | true => simp [h i hi hm]
  | false => simpa [hm] using hpi.symm

theorem cfgrd (bus : Bus) (dev : Dev) (fn : Fn) (off : Off) : Statement (.cfgrd bus dev fn off) := by
  refine ⟨⟨"CFGRD", 0x0000000010000000#64, 0xFFFFFFFFFF000000#64⟩, by decide, rfl,
    selects_of_bits (fun i hi hm => ?_) (by decide)⟩
  simp only [commandWord, BitVec.getLsbD_append]
  interval_cases i <;> first | (simp at hm; done) | simp

theorem cfgwr (bus : Bus) (dev : Dev) (fn : Fn) (off : Off) (val : Word) : Statement (.cfgwr bus dev fn off val) := by
  refine ⟨⟨"CFGWR", 0x0000000020000000#64, 0x00000000FF000000#64⟩, by decide, rfl,
    selects_of_bits (fun i hi hm => ?_) (by decide)⟩
  simp only [commandWord, BitVec.getLsbD_append]
  interval_cases i <;> first | (simp at hm; done) | simp

theorem hasmf (bus : Bus) (dev : Dev) : Statement (.hasmf bus dev) := by
  refine ⟨⟨"HASMF", 0x0000000030000000#64, 0xFFFFFFFFFF0007FF#64⟩, by decide, rfl,
    selects_of_bits (fun i hi hm => ?_) (by decide)⟩
  simp only [commandWord, BitVec.getLsbD_append]
  interval_cases i <;> first | (simp at hm; done) | simp

theorem probe (bus : Bus) (dev : Dev) (fn : Fn) : Statement (.probe bus dev fn) := by
  refine ⟨⟨"PROBE", 0x0000000040000000#64, 0xFFFFFFFFFF0000FF#64⟩, by decide, rfl,
    selects_of_bits (fun i hi hm => ?_) (by decide)⟩
  simp only [commandWord, BitVec.getLsbD_append]
  interval_cases i <;> first | (simp at hm; done) | simp

theorem decbar (bus : Bus) (dev : Dev) (fn : Fn) (idx : BarIdx) : Statement (.decbar bus dev fn idx) := by
  refine ⟨⟨"DECBAR", 0x0000000050000000#64, 0xFFFFFFFFF10000FF#64⟩, by decide, rfl,
    selects_of_bits (fun i hi hm => ?_) (by decide)⟩
  simp only [commandWord, BitVec.getLsbD_append]
  interval_cases i <;> first | (simp at hm; done) | simp

theorem lsb (val : Word) : Statement (.lsb val) := by
  refine ⟨⟨"LSB", 0x0000000060000000#64, 0x00000000FFFFFFFF#64⟩, by decide, rfl,
    selects_of_bits (fun i hi hm => ?_) (by decide)⟩
  simp only [commandWord, BitVec.getLsbD_append]
  interval_cases i <;> first | (simp at hm; done) | simp

theorem msb (val : Word) : Statement (.msb val) := by
  refine ⟨⟨"MSB", 0x0000000070000000#64, 0x00000000FFFFFFFF#64⟩, by decide, rfl,
    selects_of_bits (fun i hi hm => ?_) (by decide)⟩
  simp only [commandWord, BitVec.getLsbD_append]
  interval_cases i <;> first | (simp at hm; done) | simp

theorem enum : Statement .enum :=
  ⟨⟨"ENUM", 0x0000000080000000#64, 0xFFFFFFFFFFFFFFFF#64⟩, by decide, rfl, by decide⟩

theorem outlAddr (data : Word) : Statement (.outlAddr data) := by
  simp only [Statement, encode, mnemonicOf]; decide

theorem inlData : Statement .inlData := by
  simp only [Statement, encode, mnemonicOf]; decide

theorem outlData (data : Word) : Statement (.outlData data) := by
  simp only [Statement, encode, mnemonicOf]; decide

end Sys2Proof.Laws.TableRow
end

