-- ==== Sys2Proof/Laws/Prog.lean ====
section
/-! SUPPORT. Everything a command's run, and one sequencer step, can do. -/

namespace Sys2Proof.Machine

/-- What `run` can do, once: it goes through assignments, register accesses and steps of SEQ, and then ends with `return`
or with BitScanZero. A property kept by the former holds of a state the run ends from. -/
theorem Prog.run_ends (P : State → Prop) (hset : ∀ s a, P s → P (s.assign a))
    (hrd : ∀ s b d f o, P s → P (s.readReg b d f o)) (hwr : ∀ s b d f o v, P s → P (s.writeReg b d f o v))
    (hadv : ∀ s, P s → P s.advance) (p : Prog) (s : State) (hs : P s) :
    ∃ t, P t ∧ ((∃ r, p.run s = t.finish r) ∨ ∃ w, p.run s = t.raise w) := by
  induction p generalizing s with
  | ret r => exact ⟨s, hs, .inl ⟨r s, rfl⟩⟩
  | set a k ih => exact ih _ (hset s a hs)
  | rd b d f o k ih => exact ih _ _ (hrd s b d f o hs)
  | wr b d f o src k ih => exact ih _ (hwr s b d f o _ hs)
  | scan w v k ih =>
    simp only [Prog.run]
    cases bitScan w v with
    | none => exact ⟨s, hs, .inr ⟨w, rfl⟩⟩
    | some q => exact ih q _ (hadv s hs)

/-- What `settle` can do, once: assignments, and perhaps the command's end. -/
theorem Prog.settle_ends (P : State → Prop) (hset : ∀ s a, P s → P (s.assign a)) (p : Prog) (s : State) (hs : P s) :
    ∃ t, P t ∧ (p.settle s = t ∨ ∃ r, p.settle s = t.finish r) := by
  induction p generalizing s with
  | ret r => exact ⟨s, hs, .inr ⟨r s, rfl⟩⟩
  | set a k ih => exact ih _ (hset s a hs)
  | rd b d f o k ih => exact ⟨s, hs, .inl rfl⟩
  | wr b d f o src k ih => exact ⟨s, hs, .inl rfl⟩
  | scan w v k ih => exact ⟨s, hs, .inl rfl⟩

/-- After `n` steps `settle` stands where `resume` says, or the command has ended. -/
theorem Prog.settle_placed (p : Prog) (s : State) :
    (p.resume 0 []).isSome = true ∨ (p.settle s).mode = .idle := by
  induction p generalizing s with
  | ret r => exact .inr rfl
  | set a k ih => exact ih _
  | rd b d f o k ih => exact .inl rfl
  | wr b d f o src k ih => exact .inl rfl
  | scan w v k ih => exact .inl rfl

end Sys2Proof.Machine
end

