-- ==== Sys2Proof/Laws/Step.lean ====
section
/-! SUPPORT. What a decoded command is, and everything a step of the machine can do. -/

namespace Sys2Proof.Machine

/-- A command word's instruction is one of the eight with pseudocode, and exec carries that pseudocode out. -/
theorem decodeCommand_program {w : CommandWord} {i : Instr} (h : decodeCommand w = .ok i) :
    ∃ p, program i = some p ∧ ∀ s, exec i s = .next (p.run s) := by
  simp only [decodeCommand, legalIf] at h
  split at h <;> (try split at h) <;> cases h <;> exact ⟨_, rfl, fun _ => rfl⟩

/-- Every instruction has a next state from every state: faults and refusals of the spec are entries (R250, R251, R114). -/
theorem exec_next (i : Instr) (s : State) : ∃ t, exec i s = .next t := by
  cases i <;> exact ⟨_, rfl⟩

/-- A sequencer step, once: it sends an address, takes or gives a datum and settles, scans and settles, faults, or is
refused at the port target. -/
theorem Prog.stepAt_cases (p : Prog) (b : Bool) (s : State) :
    (∃ bus dev fn off, p.stepAt b s = (s.buildAddr bus dev fn off).sendAddr ∧ b = false) ∨
    (∃ k : Prog, s.dataEnabled = true ∧ p.stepAt b s = k.settle (s.takeData.pushGot s.selected)) ∨
    (∃ (k : Prog) (v : Word), s.dataEnabled = true ∧ p.stepAt b s = k.settle (s.giveData v)) ∨
    (∃ k : Prog, p.stepAt b s = k.settle s.advance) ∨
    (∃ which, p.stepAt b s = s.raise which) ∨
    (∃ d v, s.dataEnabled = false ∧ p.stepAt b s = s.refuseEngine d v) ∨
    (∃ r, p = .ret r) ∨ (∃ a k, p = .set a k) := by
  cases p with
  | ret r => exact .inr <| .inr <| .inr <| .inr <| .inr <| .inr <| .inl ⟨r, rfl⟩
  | set a k => exact .inr <| .inr <| .inr <| .inr <| .inr <| .inr <| .inr ⟨a, k, rfl⟩
  | rd bus dev fn off k =>
    cases b with
    | false => exact .inl ⟨bus, dev, fn, off, rfl, rfl⟩
    | true =>
      cases h : s.dataEnabled with
      | true => exact .inr <| .inl ⟨_, rfl, by simp only [Prog.stepAt, h, if_true]; rfl⟩
      | false =>
        exact .inr <| .inr <| .inr <| .inr <| .inr <| .inl ⟨inlDataDesc, 0, rfl, by simp [Prog.stepAt, h]⟩
  | wr bus dev fn off src k =>
    cases b with
    | false => exact .inl ⟨bus, dev, fn, off, rfl, rfl⟩
    | true =>
      cases h : s.dataEnabled with
      | true => exact .inr <| .inr <| .inl ⟨k, src.get s, rfl, by simp [Prog.stepAt, h]⟩
      | false =>
        exact .inr <| .inr <| .inr <| .inr <| .inr <| .inl ⟨outlDataDesc, src.get s, rfl, by simp [Prog.stepAt, h]⟩
  | scan which v k =>
    cases h : bitScan which v with
    | none => exact .inr <| .inr <| .inr <| .inr <| .inl ⟨which, by simp [Prog.stepAt, h]⟩
    | some q => exact .inr <| .inr <| .inr <| .inl ⟨k q, by simp [Prog.stepAt, h]⟩

/-- `resume` answers an access or a scan, never a `return` or an assignment. -/
theorem Prog.resume_access {p q : Prog} {n : Nat} {got : List Word} {b : Bool} (h : p.resume n got = some (q, b)) :
    (∀ r, q ≠ .ret r) ∧ ∀ a k, q ≠ .set a k := by
  induction p generalizing n got with
  | ret r => simp [Prog.resume] at h
  | set a k ih => exact ih h
  | rd bus dev fn off k ih =>
    match n, got, h with
    | 0, [], h => cases h; simp
    | 1, [], h => cases h; simp
    | n + 2, v :: got, h => exact ih _ h
    | 0, _ :: _, h => cases h
    | 1, _ :: _, h => cases h
    | _ + 2, [], h => cases h
  | wr bus dev fn off src k ih =>
    match n, got, h with
    | 0, [], h => cases h; simp
    | 1, [], h => cases h; simp
    | n + 2, _, h => exact ih h
    | 0, _ :: _, h => cases h
    | 1, _ :: _, h => cases h
  | scan which v k ih =>
    match n, got, h with
    | 0, [], h => cases h; simp
    | 0, _ :: _, h => cases h
    | n + 1, _, h =>
      simp only [Prog.resume] at h
      split at h
      · cases h
      · exact ih _ h

/-- After its OUTL_ADDR an access stands at its data transaction. -/
theorem Prog.resume_addressed {p q : Prog} {n : Nat} {got : List Word} (h : p.resume n got = some (q, false)) :
    (∃ which v k, q = .scan which v k) ∨ p.resume (n + 1) got = some (q, true) := by
  induction p generalizing n got with
  | ret r => cases h
  | set a k ih => exact ih h
  | rd bus dev fn off k ih =>
    match n, got, h with
    | 1, got, h => cases got <;> cases h
    | 0, [], h => cases h; exact .inr rfl
    | n + 2, v :: got, h => exact ih _ h
  | wr bus dev fn off src k ih =>
    match n, got, h with
    | 1, got, h => cases got <;> cases h
    | 0, [], h => cases h; exact .inr rfl
    | n + 2, got, h => exact ih h
  | scan which v k ih =>
    match n, got, h with
    | 0, [], h => cases h; exact .inl ⟨_, _, _, rfl⟩
    | n + 1, got, h =>
      simp only [Prog.resume] at h ⊢
      split at h
      · cases h
      · exact ih _ h

/-- After a read's datum the program stands at the beginning of what follows the read. -/
theorem Prog.resume_read {p : Prog} {n : Nat} {got : List Word} {bus : Bus} {dev : Dev} {fn : Fn} {off : Off}
    {k : Word → Prog} (h : p.resume n got = some (.rd bus dev fn off k, true)) (v : Word) :
    p.resume (n + 1) (got ++ [v]) = (k (v >>> subwordShift off)).resume 0 [] := by
  induction p generalizing n got with
  | ret r => cases h
  | set a k ih => exact ih h
  | rd bus dev fn off k ih =>
    match n, got, h with
    | 0, got, h => cases got <;> cases h
    | 1, [], h => cases h; rfl
    | n + 2, w :: got, h => exact ih _ h
  | wr bus dev fn off src k ih =>
    match n, got, h with
    | 0, got, h => cases got <;> cases h
    | 1, got, h => cases got <;> cases h
    | n + 2, got, h => exact ih h
  | scan which v k ih =>
    match n, got, h with
    | 0, got, h => cases got <;> cases h
    | n + 1, got, h =>
      simp only [Prog.resume] at h ⊢
      split at h
      · cases h
      · exact ih _ h

/-- After a write's datum the program stands at the beginning of what follows the write. -/
theorem Prog.resume_written {p : Prog} {n : Nat} {got : List Word} {bus : Bus} {dev : Dev} {fn : Fn} {off : Off}
    {src : Source} {k : Prog} (h : p.resume n got = some (.wr bus dev fn off src k, true)) :
    p.resume (n + 1) got = k.resume 0 [] := by
  induction p generalizing n got with
  | ret r => cases h
  | set a k ih => exact ih h
  | rd bus dev fn off k ih =>
    match n, got, h with
    | 0, got, h => cases got <;> cases h
    | 1, got, h => cases got <;> cases h
    | n + 2, w :: got, h => exact ih _ h
  | wr bus dev fn off src k ih =>
    match n, got, h with
    | 0, got, h => cases got <;> cases h
    | 1, [], h => cases h; rfl
    | n + 2, got, h => exact ih h
  | scan which v k ih =>
    match n, got, h with
    | 0, got, h => cases got <;> cases h
    | n + 1, got, h =>
      simp only [Prog.resume] at h ⊢
      split at h
      · cases h
      · exact ih _ h

/-- After a bit scan the program stands at the beginning of what follows the scan. -/
theorem Prog.resume_scanned {p : Prog} {n : Nat} {got : List Word} {b : Bool} {which : Scan} {v : Word}
    {k : BitPos → Prog} (h : p.resume n got = some (.scan which v k, b)) {q : BitPos} (hq : bitScan which v = some q) :
    p.resume (n + 1) got = (k q).resume 0 [] := by
  induction p generalizing n got with
  | ret r => cases h
  | set a k ih => exact ih h
  | rd bus dev fn off k ih =>
    match n, got, h with
    | 0, got, h => cases got <;> cases h
    | 1, got, h => cases got <;> cases h
    | n + 2, w :: got, h => exact ih _ h
  | wr bus dev fn off src k ih =>
    match n, got, h with
    | 0, got, h => cases got <;> cases h
    | 1, got, h => cases got <;> cases h
    | n + 2, got, h => exact ih h
  | scan which v k ih =>
    match n, got, h with
    | 0, [], h => cases h; simp only [Prog.resume, hq]
    | n + 1, got, h =>
      simp only [Prog.resume] at h ⊢
      split at h
      · cases h
      · exact ih _ h

/-- The same of the position SEQ names. -/
theorem State.position_access {s : State} {q : Prog} {b : Bool} (h : s.position = some (q, b)) :
    (∀ r, q ≠ .ret r) ∧ ∀ a k, q ≠ .set a k := by
  simp only [State.position] at h
  split at h
  · cases h
  · exact Prog.resume_access h

/-- Everything a step that answers a next state can be. -/
theorem step_cases {s t : State} (h : step s = .next t) :
    (s.mode = .idle ∧ s.inputs = [] ∧ t = s) ∨
    (∃ rest, s.mode = .idle ∧ s.inputs = .turn :: rest ∧ t = { s with inputs := rest }) ∨
    (∃ rest p b, s.mode = .busy ∧ (s.inputs = rest ∨ s.inputs = .turn :: rest) ∧ s.position = some (p, b) ∧
      t = p.stepAt b { s with inputs := rest }) ∨
    (∃ w rest, s.mode = .idle ∧ s.inputs = .command w :: rest ∧ State.runCommand { s with inputs := rest } w = .next t) ∨
    (∃ w rest, s.mode = .idle ∧ s.inputs = .issue w :: rest ∧ t = State.issue { s with inputs := rest } w) ∨
    (∃ d v rest, s.inputs = .port d v :: rest ∧ State.runPort { s with inputs := rest } d v = .next t) ∨
    (∃ rest, s.inputs = .reset :: rest ∧ t = State.resetBlock { s with inputs := rest }) := by
  have tick : ∀ rest, State.tick { s with inputs := rest } = .next t → ∃ p b, s.position = some (p, b) ∧
      t = p.stepAt b { s with inputs := rest } := by
    intro rest h
    have hp : State.position { s with inputs := rest } = s.position := rfl
    simp only [State.tick, hp] at h
    cases hq : s.position with
    | none => rw [hq] at h; cases h
    | some x => rw [hq] at h; cases h; exact ⟨x.1, x.2, rfl, rfl⟩
  simp only [step, nextStep] at h
  split at h
  case h_7 hi => exact .inr <| .inr <| .inr <| .inr <| .inr <| .inl ⟨_, _, _, hi, h⟩
  case h_10 hi => cases h; exact .inr <| .inr <| .inr <| .inr <| .inr <| .inr ⟨_, hi, rfl⟩
  all_goals rename_i hi hm
  · cases h; exact .inl ⟨hm, hi, rfl⟩
  · obtain ⟨p, b, h1, h2⟩ := tick s.inputs h
    exact .inr <| .inr <| .inl ⟨_, p, b, hm, .inl rfl, h1, h2⟩
  · exact .inr <| .inr <| .inr <| .inl ⟨_, _, hm, hi, h⟩
  · obtain ⟨p, b, h1, h2⟩ := tick s.inputs h
    exact .inr <| .inr <| .inl ⟨_, p, b, hm, .inl rfl, h1, h2⟩
  · cases h; exact .inr <| .inr <| .inr <| .inr <| .inl ⟨_, _, hm, hi, rfl⟩
  · obtain ⟨p, b, h1, h2⟩ := tick s.inputs h
    exact .inr <| .inr <| .inl ⟨_, p, b, hm, .inl rfl, h1, h2⟩
  · cases h; exact .inr <| .inl ⟨_, hm, hi, rfl⟩
  · obtain ⟨p, b, h1, h2⟩ := tick _ h
    exact .inr <| .inr <| .inl ⟨_, p, b, hm, .inr hi, h1, h2⟩

/-- A property that each of the named operations keeps is kept by every step but a reset. -/
theorem step_keeps (P : State → Prop) (hinp : ∀ s l, P s → P { s with inputs := l })
    (hcmd : ∀ s w, P s → P (s.writeCmd w)) (hset : ∀ s a, P s → P (s.assign a))
    (hfin : ∀ s r, P s → P (s.finish r)) (hraise : ∀ s w, P s → P (s.raise w)) (hleave : ∀ s, P s → P s.leave)
    (href : ∀ s r, P s → P (s.setRefused r)) (hoa : ∀ s a, P s → P (s.outlAddr a))
    (hid : ∀ s, P s → P s.inlData) (hod : ∀ s v, P s → P (s.outlData v)) (hadv : ∀ s, P s → P s.advance)
    (hregs : ∀ s a v, P s → P { s with regs := { s.regs with addrw := a, data := v } })
    (hgot : ∀ s v, P s → P (s.pushGot v)) {s t : State} (h : step s = .next t) (hr : s.inputs.head? ≠ some .reset)
    (hs : P s) : P t := by
  have hba : ∀ s b d f o, P s → P (s.buildAddr b d f o) := fun s b d f o h => hregs s _ s.regs.data h
  have hsa : ∀ s, P s → P s.sendAddr := fun s h => hadv _ (hoa _ _ h)
  have htd : ∀ s, P s → P s.takeData := fun s h => hadv _ (hregs _ s.inlData.regs.addrw _ (hid _ h))
  have hgd : ∀ s v, P s → P (s.giveData v) := fun s v h => hadv _ (hod _ _ h)
  have hset' : ∀ (k : Prog) s, P s → P (k.settle s) := by
    intro k s h
    obtain ⟨u, hu, e | ⟨r, e⟩⟩ := Prog.settle_ends P hset k s h
    · rw [e]; exact hu
    · rw [e]; exact hfin _ _ hu
  have hrun : ∀ (p : Prog) s, P s → P (p.run s) := by
    intro p s h
    obtain ⟨u, hu, ⟨r, e⟩ | ⟨w, e⟩⟩ := Prog.run_ends P hset (fun s b d f o h => htd _ (hsa _ (hba _ _ _ _ _ h)))
      (fun s b d f o v h => hgd _ _ (hsa _ (hba _ _ _ _ _ h))) hadv p s h
    · rw [e]; exact hfin _ _ hu
    · rw [e]; exact hraise _ _ hu
  rcases step_cases h with ⟨-, -, rfl⟩ | ⟨rest, -, -, rfl⟩ | ⟨rest, p, b, -, -, hp, rfl⟩ | ⟨w, rest, -, -, h⟩ |
    ⟨w, rest, -, -, rfl⟩ | ⟨d, v, rest, -, h⟩ | ⟨rest, hi, -⟩
  · exact hs
  · exact hinp _ _ hs
  · have hs' := hinp s rest hs
    rcases Prog.stepAt_cases p b { s with inputs := rest } with ⟨_, _, _, _, e, -⟩ | ⟨k, -, e⟩ | ⟨k, v, -, e⟩ | ⟨k, e⟩ |
      ⟨w, e⟩ | ⟨d, v, -, e⟩ | ⟨r, e⟩ | ⟨a, k, e⟩
    · rw [e]; exact hsa _ (hba _ _ _ _ _ hs')
    · rw [e]; exact hset' _ _ (hgot _ _ (htd _ hs'))
    · rw [e]; exact hset' _ _ (hgd _ _ hs')
    · rw [e]; exact hset' _ _ (hadv _ hs')
    · rw [e]; exact hraise _ _ hs'
    · rw [e]; exact hleave _ (href _ _ hs')
    · exact absurd e ((State.position_access hp).1 r)
    · exact absurd e ((State.position_access hp).2 a k)
  · simp only [State.runCommand] at h
    split at h
    · cases h; exact href _ _ (hleave _ (hcmd _ _ (hinp _ _ hs)))
    · rename_i i hd
      obtain ⟨p, -, hp⟩ := decodeCommand_program hd
      rw [hp] at h; cases h
      exact hrun _ _ (hcmd _ _ (hinp _ _ hs))
  · have hs' := hcmd _ w (hinp s rest hs)
    simp only [State.issue]
    split
    · exact href _ _ (hleave _ hs')
    · split
      · exact href _ _ (hleave _ hs')
      · exact hset' _ _ hs'
  · have hs' := hinp s rest hs
    have hrp : ∀ s d v, P s → P (s.refusePort d v) := fun s d v h => href _ _ h
    simp only [State.runPort, decodePort] at h
    split at h
    · cases h; exact hrp _ _ _ hs'
    · rename_i i hd
      split at hd
      · cases hd; cases h; exact hoa _ _ hs'
      · split at hd
        · cases hd; cases h
          split
          · exact hid _ hs'
          · exact hrp _ _ _ hs'
        · split at hd
          · cases hd; cases h
            split
            · exact hod _ _ hs'
            · exact hrp _ _ _ hs'
          · cases hd
  · simp [hi] at hr

end Sys2Proof.Machine
end

