-- ==== Sys2Proof/Laws/Sweep.lean ====
section
/-! SUPPORT. The sweep piece by piece: each goes on with what follows it, only adds to DEVLIST, and keeps the reference
backend (R220 to R224, R167). -/

namespace Sys2Proof.Machine

/-- DEVLIST has only grown, and a canonical reference backend is as it was. -/
def Grows (s t : State) : Prop :=
  (∃ l, t.sweep.devList = s.sweep.devList ++ l) ∧ ∀ p v m, s.cfg = .reference p v m → s.cfg.wf = true → t.cfg = s.cfg

theorem Grows.refl (s : State) : Grows s s := ⟨⟨[], by simp⟩, fun _ _ _ _ _ => rfl⟩

theorem Grows.trans {s t u : State} (h : Grows s t) (h' : Grows t u) : Grows s u := by
  obtain ⟨⟨l, hl⟩, hc⟩ := h
  obtain ⟨⟨l', hl'⟩, hc'⟩ := h'
  refine ⟨⟨l ++ l', by rw [hl', hl, List.append_assoc]⟩, fun p v m hs hw => ?_⟩
  have ht := hc p v m hs hw
  rw [hc' p v m (by rw [ht, hs]) (by rw [ht]; exact hw), ht]

/-- What is listed stays listed. -/
theorem Grows.mem {s t : State} (h : Grows s t) {x : DeviceDescriptor} (hx : x ∈ s.sweep.devList) :
    x ∈ t.sweep.devList := by
  obtain ⟨⟨l, hl⟩, -⟩ := h
  rw [hl]; exact List.mem_append_left l hx

variable (bus : Bus) (dev : Dev) (fn : Fn) (s : State)

theorem slotThen_run (i : Fin 6) : ∃ r t, (∀ k, (slotThen bus dev fn i k).run s = (k r).run t) ∧ Grows s t := by
  obtain ⟨r, t, l, h1, -, -, -, -, -, -, hc, -, hf, -⟩ := decbarThen_run bus dev fn (s.assign (.barc i)) false (BitVec.ofNat 3 i.val)
  refine ⟨r, t, fun k => by simp only [slotThen, run_set]; exact h1 k, ⟨[], by rw [hf.2.1]; simp [State.assign]⟩, ?_⟩
  intro p v m hs hw
  exact hc p v m hs hw

theorem barsThen_run : ∃ bars t, (∀ k, (barsThen bus dev fn k).run s = (k bars).run t) ∧ Grows s t := by
  obtain ⟨r0, t0, h0, g0⟩ := slotThen_run bus dev fn s 0
  obtain ⟨r1, t1, h1, g1⟩ := slotThen_run bus dev fn t0 1
  obtain ⟨r2, t2, h2, g2⟩ := slotThen_run bus dev fn t1 2
  obtain ⟨r3, t3, h3, g3⟩ := slotThen_run bus dev fn t2 3
  obtain ⟨r4, t4, h4, g4⟩ := slotThen_run bus dev fn t3 4
  obtain ⟨r5, t5, h5, g5⟩ := slotThen_run bus dev fn t4 5
  exact ⟨⟨r0, r1, r2, r3, r4, r5⟩, t5, fun k => by simp only [barsThen, h0, h1, h2, h3, h4, h5],
    ((((g0.trans g1).trans g2).trans g3).trans g4).trans g5⟩

/-- The record PROBE answers of a function, by the backend alone. -/
def probed (c : Backend) : IdRecord :=
  identification bus dev fn (c.read bus dev fn 0) (c.read bus dev fn 2) (c.read bus dev fn 15)

/-- One function: a present one is listed with PROBE's record (R223, R224). -/
theorem sweepFn_run : ∃ t, (∀ rest, (sweepFn bus dev fn rest).run s = rest.run t) ∧ Grows s t ∧
    ((probed bus dev fn s.cfg).present = true → ∃ x ∈ t.sweep.devList, x.id = probed bus dev fn s.cfg) := by
  have g0 : Grows s ((s.assign (.fnc fn)).probed bus dev fn) :=
    ⟨⟨[], by simp [State.assign]⟩, fun _ _ _ _ _ => by simp [State.probed_cfg]⟩
  by_cases h : (probed bus dev fn s.cfg).present = true
  · obtain ⟨bars, t, h1, g1⟩ := barsThen_run bus dev fn ((s.assign (.fnc fn)).probed bus dev fn)
    have g2 : Grows t (t.assign (.report (probed bus dev fn s.cfg) bars)) :=
      ⟨⟨[describe (probed bus dev fn s.cfg) bars], rfl⟩, fun _ _ _ _ _ => State.assign_cfg _ _⟩
    refine ⟨t.assign (.report (probed bus dev fn s.cfg) bars), fun rest => ?_, (g0.trans g1).trans g2, fun _ =>
      ⟨describe (probed bus dev fn s.cfg) bars, List.mem_append_right _ (List.mem_singleton.2 rfl), rfl⟩⟩
    simp only [probed] at h
    simp only [sweepFn, run_set, probeThen_run, State.assign_cfg, h, if_true, h1]
    rfl
  · refine ⟨_, fun rest => ?_, g0, fun hp => absurd hp h⟩
    simp only [probed] at h
    simp only [sweepFn, run_set, probeThen_run, State.assign_cfg, h]
    rfl

/-- A loop of pieces that grow grows. -/
theorem forEach_grows {α : Type} (body : α → Prog → Prog)
    (h : ∀ x s, ∃ t, (∀ rest, (body x rest).run s = rest.run t) ∧ Grows s t) (xs : List α) :
    ∃ t, (∀ k, (forEach xs body k).run s = k.run t) ∧ Grows s t :=
  forEach_run body (fun _ => Grows) h (fun _ => Grows) Grows.refl xs (fun _ _ _ _ _ _ h h' => h.trans h') s

/-- One device: function 0, if present, is listed (R222, R232). -/
theorem sweepDev_run : ∃ t, (∀ rest, (sweepDev bus dev rest).run s = rest.run t) ∧ Grows s t ∧
    ((probed bus dev 0 s.cfg).present = true → ∃ x ∈ t.sweep.devList, x.id = probed bus dev 0 s.cfg) := by
  have hr : repeatableDword (dwordOf offHeaderType) = true := rfl
  generalize hmf : (s.cfg.read bus dev 0 3).getLsbD 23 = mf
  obtain ⟨l, hl⟩ : ∃ l, (fnCount mf).fns = 0 :: l := by cases mf <;> exact ⟨_, rfl⟩
  let s1 := ((s.assign (.devc dev)).readReg bus dev 0 offHeaderType).assign (.nfn (fnCount mf))
  have hc : s1.cfg = s.cfg := by simp [s1, Backend.afterRead_of_repeatable _ _ _ _ hr]
  have g0 : Grows s s1 := ⟨⟨[], by simp [s1, State.assign]⟩, fun _ _ _ _ _ => hc⟩
  obtain ⟨t, h1, g1, p1⟩ := sweepFn_run bus dev 0 s1
  obtain ⟨u, h2, g2⟩ := forEach_grows t (sweepFn bus dev) (fun f s =>
    let ⟨t, h, g, _⟩ := sweepFn_run bus dev f s; ⟨t, h, g⟩) l
  refine ⟨u, fun rest => ?_, (g0.trans g1).trans g2, fun hp => ?_⟩
  · rw [sweepDev, run_set, hasmfThen_run, run_set]
    simp only [State.assign_cfg, hmf, hl]
    show (sweepFn bus dev 0 (forEach l (sweepFn bus dev) rest)).run s1 = _
    rw [h1, h2]
  · obtain ⟨x, hx, e⟩ := p1 (by rw [hc]; exact hp)
    exact ⟨x, g2.mem hx, by rw [e, hc]⟩

/-- One bus. -/
theorem sweepBus_run : ∃ t, (∀ rest, (sweepBus bus rest).run s = rest.run t) ∧ Grows s t := by
  obtain ⟨t, h, g⟩ := forEach_grows (s.assign (.busc bus)) (sweepDev bus) (fun d s =>
    let ⟨t, h, g, _⟩ := sweepDev_run bus d s; ⟨t, h, g⟩) allDevs
  refine ⟨t, fun rest => by rw [sweepBus, run_set]; exact h rest, Grows.trans ⟨⟨[], ?_⟩, fun _ _ _ _ _ => ?_⟩ g⟩
  · simp [State.assign]
  · exact State.assign_cfg _ _

/-- A sweep over the reference backend lists (0, 1, 0) if it is present: ENUM's list is not empty for want of a run. -/
theorem progEnum_lists (p : List FnAddr) (v m : Memory) (hs : s.cfg = .reference p v m)
    (hw : s.cfg.wf = true) (hp : (probed 0 1 0 s.cfg).present = true) :
    ∃ x ∈ (progEnum.run s).sweep.devList, x.id = probed 0 1 0 s.cfg := by
  obtain ⟨lb, hb⟩ : ∃ l, allBuses = 0 :: l := ⟨_, rfl⟩
  obtain ⟨ld, hd⟩ : ∃ l, allDevs = 0 :: 1 :: l := ⟨_, rfl⟩
  have hc1 : ((s.assign .startSweep).assign (.busc 0)).cfg = s.cfg := by simp
  obtain ⟨t0, h0, g0, -⟩ := sweepDev_run 0 0 ((s.assign .startSweep).assign (.busc 0))
  have hc : t0.cfg = s.cfg := by rw [g0.2 p v m (by rw [hc1, hs]) (by rw [hc1]; exact hw), hc1]
  obtain ⟨t1, h1, -, q1⟩ := sweepDev_run 0 1 t0
  obtain ⟨x, hx, e⟩ := q1 (by rw [hc]; exact hp)
  obtain ⟨t2, h2, g2⟩ := forEach_grows t1 (sweepDev 0) (fun d s =>
    let ⟨t, h, g, _⟩ := sweepDev_run 0 d s; ⟨t, h, g⟩) ld
  obtain ⟨t3, h3, g3⟩ := forEach_grows t2 sweepBus (fun b s => sweepBus_run b s) lb
  have hr : ∀ rest, (sweepBus 0 (forEach lb sweepBus rest)).run (s.assign .startSweep) = rest.run t3 := by
    intro rest
    rw [sweepBus, run_set, hd]
    show (sweepDev 0 0 (sweepDev 0 1 (forEach ld (sweepDev 0) _))).run _ = _
    rw [h0, h1, h2, h3]
  refine ⟨x, ?_, by rw [e, hc]⟩
  rw [progEnum, run_set, hb]
  show x ∈ ((sweepBus 0 (forEach lb sweepBus _)).run _).sweep.devList
  rw [hr]
  exact g3.mem (g2.mem hx)
end Sys2Proof.Machine
end

