-- ==== Sys2Proof/Tests/Slice0.lean ====
section
/-! SUPPORT. The model's own tests, their expected values from the spec's worked examples and vectors (95_test_vectors.md,
R97), and a witness for the hypotheses of each statement. -/

namespace Sys2Proof.Tests

open Sys2Proof Sys2Proof.Machine

/-! ## Helpers -/

/-- The function (0, d, 0). -/
def fn0 (d : Dev) : FnAddr := ⟨0, d, 0⟩

/-- A memory with dword k of (0, d, 0) set, for each (k, v). -/
def dwords (d : Dev) (l : List (DwordNo × Word)) : Memory :=
  l.foldl (fun m p => m.writeDword (cfgAddr 0 d 0 p.1) p.2) []

/-- Right after reset, with (0, d, 0) as the reference backend's only present function. -/
def refState (d : Dev) (values masks : List (DwordNo × Word)) : State :=
  { State.reset with ca := 0, cfg := .reference [fn0 d] (dwords d values) (dwords d masks) }

/-- The state an instruction leads to. -/
def after (i : Instr) (s : State) : State :=
  match exec i s with
  | .next t => t
  | .fault _ => s
  | .refused _ => s

/-- RES after an instruction. -/
def resOf (i : Instr) (s : State) : Option Result := (after i s).res

/-- A port trace, as the vectors write it. -/
def oa (a : Word) : PortRecord := ⟨.outlAddr, a⟩
/-- (IN, v) -/
def rd (v : Word) : PortRecord := ⟨.inlData, v⟩
/-- (OD, v) -/
def wr (v : Word) : PortRecord := ⟨.outlData, v⟩

/-! ## WellFormed: an ill-formed statement for each check is refused -/

theorem test_wf_idx : (Asm.decbar 0 3 0 8).wellFormed = false ∧ (Asm.decbar 0 3 0 7).wellFormed = true := by decide

theorem test_wf_val : (Asm.lsb 0x100000000).wellFormed = false ∧ (Asm.cfgwr 0 0 0 0 0x100000000).wellFormed = false ∧
    (Asm.msb 0xFFFFFFFF).wellFormed = true := by decide

theorem test_wf_out_port : (Asm.outl 0xCFD 0).wellFormed = false ∧ (Asm.outl 0xCF8 0).wellFormed = true := by decide

theorem test_wf_in_port : (Asm.inl 0xCF8).wellFormed = false ∧ (Asm.inl 0xCFC).wellFormed = true := by decide

/-! ## Decoding (R97, DC-1 to DC-16) -/

theorem test_decode_accessor :
    decodeCommand 0x0000000010011310#64 = .ok (.cfgrd 1 2 3 0x10) ∧
    decodeCommand 0x1234567820FFFFFF#64 = .ok (.cfgwr 255 31 7 0xFF 0x12345678) ∧
    decodePort 0x50CF8#20 0x80011310 = .ok (.outlAddr 0x80011310) ∧
    decodePort 0x40CFC#20 0 = .ok .inlData ∧ decodePort 0x50CFC#20 1 = .ok (.outlData 1) := by decide

theorem test_decode_probe_family :
    decodeCommand 0x000000003000F800#64 = .ok (.hasmf 0 31) ∧
    decodeCommand 0x0000000040001100#64 = .ok (.probe 0 2 1) := by decide

theorem test_decode_decbar : decodeCommand 0x000000005E001800#64 = .ok (.decbar 0 3 0 7) := by decide

theorem test_decode_scans :
    decodeCommand 0x0000001060000000#64 = .ok (.lsb 0x10) ∧
    decodeCommand 0x8000000070000000#64 = .ok (.msb 0x80000000) := by decide

theorem test_decode_enum : decodeCommand 0x0000000080000000#64 = .ok .enum := by decide

theorem test_decode_illegal :
    ([0x0000000000000000#64, 0x0000000090000000#64, 0xFFFFFFFFF0000000#64, 0x0000000110011310#64,
        0x0000000011011310#64, 0x0000000012011310#64, 0x0000000030001100#64, 0x0000000030001001#64,
        0x0000000040001101#64, 0x0000000050001810#64, 0x0000000060000001#64, 0x0000000180000000#64].all
      fun w => decide (decodeCommand w = .error (.illegalCommand w))) = true := by decide

/-- R111: outl to 0xCF8 decodes through the table's numbering too; a 24-bit descriptor outside the format is no row. -/
theorem test_decode_table_word :
    decodeTableWord 20 0x50CF8 = some (.outlAddr 0) ∧ decodeTableWord 64 0x80000000 = some .enum ∧
    decodeTableWord 24 0x150CF8 = none := by decide

/-- R94 to R96, AD-6: masking, hexadecimal numbers, and a pseudo-instruction. -/
theorem test_assemble :
    assembleLine "cfgrd 1, 2, 3, 0x10".toList = some (.command 0x0000000010011310#64) ∧
    assembleLine "cfgrd 0, 33, 9, 0".toList = some (.command 0x0000000010000900#64) ∧
    assembleLine "cfgrd32 1, 2, 3, 0x13".toList = some (.command 0x0000000010011310#64) ∧
    assembleLine "decbar 0, 3, 0, 8".toList = none := by decide

/-- R95, and log 22: spaces around operands do not count, one inside a number is refused. -/
theorem test_assemble_spaces :
    assembleLine "outl 0xCF8,  0x80011310 ".toList = some (.transaction 0x50CF8 0x80011310) ∧
    assembleLine "cfgrd 1 0, 2, 3, 4".toList = none ∧ assembleLine "enum".toList = some (.command 0x80000000) := by decide

/-! ## CFGRD, CFGWR and the port transactions -/

/-- Setup of the RW vectors. -/
def rwState : State := refState 0 [(0, 0xAABBCCDD), (3, 0x00800000)] [(3, 0x000000FF)]

/-- RW-4 and RW-5. -/
theorem test_cfgrd_shifts :
    resOf (.cfgrd 0 0 0 0x03) rwState = some (.u32 0x000000AA) ∧
    resOf (.cfgrd 0 0 0 0x0E) rwState = some (.u32 0x00000080) := by decide

/-- RW-8: an absent function reads as all ones; its records. -/
theorem test_cfgrd_absent :
    resOf (.cfgrd 0 1 0 0x02) rwState = some (.u32 0x0000FFFF) ∧
    (after (.cfgrd 0 1 0 0x02) rwState).tr = [oa 0x80000800, rd 0xFFFFFFFF] := by decide

/-- RW-6: the value is not shifted. -/
theorem test_cfgwr_unshifted :
    (after (.cfgwr 0 0 0 0x0E 0x12) rwState).cfg.read 0 0 0 3 = 0x00800012 ∧
    (after (.cfgwr 0 0 0 0x0E 0x12) rwState).tr = [oa 0x8000000C, wr 0x00000012] := by decide

/-- RW-9. -/
theorem test_cfgwr_absent :
    resOf (.cfgwr 0 1 0 0 0) rwState = some .unit ∧
    (after (.cfgwr 0 1 0 0 0) rwState).cfg.read 0 1 0 0 = 0xFFFFFFFF := by decide

/-- PT-1. -/
theorem test_outlAddr : (after (.outlAddr 0x80011310) rwState).ca = 0x80011310 := by decide

/-- PT-7 and PT-8, at dword 3 of (0,0,0): bits 1:0 and 30:24 do not route. -/
theorem test_inlData_routes :
    (after .inlData { rwState with ca := 0xFF00000F }).tr = [rd 0x00800000] := by decide

/-- PT-2. -/
theorem test_inlData_disabled :
    (after .inlData { rwState with ca := 0x00011310 }).refused =
      some (.unadmittedPortAccess 0x40CFC none 0x00011310) := by decide

/-- The write rule of R31 through the latch. -/
theorem test_outlData :
    (after (.outlData 0x12) { rwState with ca := 0x8000000C }).cfg.read 0 0 0 3 = 0x00800012 := by decide

/-- PT-3. -/
theorem test_outlData_disabled :
    (after (.outlData 1) { rwState with ca := 0x00011310 }).refused =
      some (.unadmittedPortAccess 0x50CFC (some 1) 0x00011310) := by decide

/-! ## HASMF and PROBE -/

/-- MF-1, MF-3, MF-5, MF-6. -/
theorem test_hasmf :
    resOf (.hasmf 0 1) (refState 1 [(3, 0x00800000)] []) = some (.bool true) ∧
    resOf (.hasmf 0 1) (refState 1 [(3, 0x007F0000)] []) = some (.bool false) ∧
    resOf (.hasmf 0 1) (refState 1 [(3, 0x80000000)] []) = some (.bool false) ∧
    resOf (.hasmf 0 1) (refState 1 [(3, 0x00008000)] []) = some (.bool false) := by decide

/-- MF-7. -/
theorem test_hasmf_absent : resOf (.hasmf 0 1) rwState = some (.bool true) := by decide

/-- PR-1. -/
theorem test_probe :
    resOf (.probe 0 2 0) (refState 2 [(0, 0x12348086), (2, 0x02000003), (15, 0x0000010B)] []) =
      some (.idRecord ⟨0, 2, 0, 0x8086, 0x1234, 0x02, 0x00, 0x00, 0x03, 0x0B⟩) := by decide

/-- PR-4, and PR-1's addresses. -/
theorem test_probe_fields :
    resOf (.probe 0 2 0) (refState 2 [(2, 0xFFEEDDCC)] []) =
      some (.idRecord ⟨0, 2, 0, 0, 0, 0xFF, 0xEE, 0xDD, 0xCC, 0⟩) ∧
    ((after (.probe 0 2 0) (refState 2 [] [])).tr.filter fun r => r.kind == .outlAddr) =
      [oa 0x80001000, oa 0x80001000, oa 0x80001008, oa 0x80001008, oa 0x80001008, oa 0x80001008, oa 0x8000103C] := by
  decide

/-! ## DECBAR -/

/-- Setup of the DECBAR vectors: the header-type byte, the BAR of slot `idx` and its mask. -/
def barState (ht : Byte) (idx : BarIdx) (raw mask : Word) : State :=
  refState 3 [(3, ht.setWidth 32 <<< 16), (4 + idx.setWidth 6, raw)] [(4 + idx.setWidth 6, mask)]

/-- MB-2 with the trace TR-1, its final value and PROBE_OPEN. -/
theorem test_decbar_sizing :
    resOf (.decbar 0 3 0 0) (barState 0 0 0xFEBF0000 0xFFFF0000) = some (.decode (.mem32 false 16)) ∧
    (after (.decbar 0 3 0 0) (barState 0 0 0xFEBF0000 0xFFFF0000)).tr =
      [oa 0x8000180C, rd 0, oa 0x80001810, rd 0xFEBF0000, oa 0x80001810, wr 0xFFFFFFF0, oa 0x80001810, rd 0xFFFF0000,
       oa 0x80001810, wr 0xFEBF0000] ∧
    (after (.decbar 0 3 0 0) (barState 0 0 0xFEBF0000 0xFFFF0000)).cfg.read 0 3 0 4 = 0xFEBF0000 := by decide

/-- MB-5, MB-7, MB-9, MB-10, MB-11, UN-2, IO-3, HT-1, HT-2, HT-4, HT-6. -/
theorem test_decbar_results :
    ∀ v ∈ [((0x00 : Byte), (0 : BarIdx), (0x80000000 : Word), (0x8000F000 : Word), DecodeResult.mem32 false 12),
        (0x00, 0, 0, 0x7FFFFFF0, .malformed .badPattern), (0x00, 0, 0x12345670, 0, .malformed .badPattern),
        (0x00, 0, 0, 0, .unused), (0x00, 0, 0x8, 0, .malformed .zeroPrefetchable),
        (0x00, 0, 0xC, 0, .memUnsized .w64 true), (0x00, 0, 0xE00F, 0, .io 0xE00C), (0x81, 2, 1, 0, .absent),
        (0x80, 5, 0, 0xFFFFFFF0, .mem32 false 4), (0x05, 2, 1, 0, .absent), (0x00, 7, 1, 0, .absent)],
      resOf (.decbar 0 3 0 v.2.1) (barState v.1 v.2.1 v.2.2.1 v.2.2.2.1) = some (.decode v.2.2.2.2) := by decide

/-! ## LSB and MSB -/

/-- BS-2, BS-5, BS-6. -/
theorem test_lsb :
    resOf (.lsb 0xFFFFFFFF) State.reset = some (.bitPos 0) ∧ resOf (.lsb 0x12345678) State.reset = some (.bitPos 3) ∧
    resOf (.lsb 0xF0) State.reset = some (.bitPos 4) := by decide

/-- BS-9, as in step 6 of P2. -/
theorem test_lsb_zero :
    (after (.lsb 0) { State.reset with cmd := 0x60000000#64, res := some .unit }).fault =
      some ⟨.bitScanZero, .lsb, 0x60000000⟩ ∧
    resOf (.lsb 0) { State.reset with res := some .unit } = some .unit := by decide

/-- BS-2, BS-5, BS-6. -/
theorem test_msb :
    resOf (.msb 0xFFFFFFFF) State.reset = some (.bitPos 31) ∧ resOf (.msb 0x12345678) State.reset = some (.bitPos 28) ∧
    resOf (.msb 0xF0) State.reset = some (.bitPos 7) := by decide

/-- BS-9. -/
theorem test_msb_zero : (after (.msb 0) State.reset).fault = some ⟨.bitScanZero, .msb, 0⟩ := by decide

/-! ## ENUM -/

/-- The device of program P4. -/
def p4State : State :=
  refState 1 [(0, 0x29C08086), (2, 0x01018F02), (3, 0x00800000), (15, 0x0000010A), (4, 0x0000C001), (5, 0x0000000C),
    (7, 0xFEBF0000), (8, 0x0000E001)] [(6, 0xFFFFFFFF), (7, 0xFFFF0000)]

/-- P4's function as the body of the sweep sees it: the descriptor, its events and 14 + 42 transactions. -/
theorem test_enum_function :
    ((sweepFn 0 1 0 (.ret fun _ => .unit)).run p4State).sweep.devList =
      [⟨⟨0, 1, 0, 0x8086, 0x29C0, 0x01, 0x01, 0x8F, 0x02, 0x0A⟩,
        ⟨.io 0xC000, .memUnsized .w64 true, .mem32 false 4, .mem32 false 16, .io 0xE000, .unused⟩, some 0xC000⟩] ∧
    ((sweepFn 0 1 0 (.ret fun _ => .unit)).run p4State).evt =
      [.device ⟨⟨0, 1, 0, 0x8086, 0x29C0, 0x01, 0x01, 0x8F, 0x02, 0x0A⟩,
          ⟨.io 0xC000, .memUnsized .w64 true, .mem32 false 4, .mem32 false 16, .io 0xE000, .unused⟩, some 0xC000⟩,
        .bar 0 1 0 0 (.io 0xC000), .bar 0 1 0 1 (.memUnsized .w64 true), .bar 0 1 0 2 (.mem32 false 4),
        .bar 0 1 0 3 (.mem32 false 16), .bar 0 1 0 4 (.io 0xE000), .bar 0 1 0 5 .unused] ∧
    ((sweepFn 0 1 0 (.ret fun _ => .unit)).run p4State).tr.length = 56 := by decide

/-- R291: DECBAR's two bit scans are steps of SEQ beside its ten transactions; in a sweep the steps are the transactions alone
(log 7). -/
theorem test_seq_steps :
    (after (.decbar 0 3 0 0) (barState 0 0 0xFEBF0000 0xFFFF0000)).seq = 12 ∧
    ((sweepFn 0 1 0 (.ret fun _ => .unit)).run p4State).seq = 56 := by decide

/-- EN-3: a vendor_id of 0 is discarded after its PROBE. -/
theorem test_enum_absent :
    ((sweepFn 0 1 0 (.ret fun _ => .unit)).run (refState 1 [] [])).sweep.devList = [] ∧
    ((sweepFn 0 1 0 (.ret fun _ => .unit)).run (refState 1 [] [])).tr.length = 14 := by decide

/-! ## Witnesses: states and operands that meet the statements' hypotheses -/

/-- A state that a command word has just arrived at. -/
def told (w : CommandWord) : State := { State.reset with inputs := [.command w] }

/-- The engine in the middle of `cfgrd 1, 2, 3, 0x10`, its OUTL_ADDR done. -/
def midRead : State :=
  { rwState with mode := .busy, cmd := 0x0000000010011310, seq := 1, inputs := [.port 0x50CF8 0x8000000C, .turn] }

/-- The engine in the middle of `cfgwr 0, 3, 0, 0x10, 0xFFFFFFF0`, its OUTL_ADDR done. -/
def midWrite : State :=
  { rwState with mode := .busy, cmd := 0xFFFFFFF020001810, seq := 1, inputs := [.port 0x50CF8 0x8000000C, .turn] }

/-- The engine in the middle of `decbar 0, 3, 0, 0` of a type-0 memory BAR, the header and the raw value read. -/
def midSizing (n : Nat) (got : List Word) : State :=
  { barState 0 0 0xFEBF0000 0xFFFF0000 with
    mode := .busy, cmd := 0x50001800, seq := n, got := 0 :: 0xFEBF0000 :: got, ca := 0x80001810 }

theorem witness_StepRunsDecodedInstruction :
    ((told 0x10011310).mode = .idle ∧ (told 0x10011310).inputs = .command 0x10011310 :: [] ∧
      decodeCommand 0x10011310#64 = .ok (.cfgrd 1 2 3 0x10)) ∧
    (midRead.inputs = .port 0x50CF8 0x8000000C :: [.turn] ∧
      decodePort 0x50CF8#20 0x8000000C = .ok (.outlAddr 0x8000000C)) := by decide

theorem witness_DecodeEncodeRoundTrip :
    (Instr.cfgwr 255 31 7 255 0xFFFFFFFF).wellFormed = true ∧ (Instr.decbar 255 31 7 7).wellFormed = true ∧
    (Instr.outlData 0xFFFFFFFF).wellFormed = true := by decide

theorem witness_EncodeDecodedCommandWord :
    decodeCommand 0xFFFFFFFF20FFFFFF#64 = .ok (.cfgwr 255 31 7 255 0xFFFFFFFF) := by decide

theorem witness_DecoderFollowsMatchMaskTable :
    (⟨"ENUM", 0x80000000, 0xFFFFFFFFFFFFFFFF⟩ : CommandRow) ∈ commandRows ∧
    (∀ r ∈ commandRows, r.selects 0x90000000#64 = false) ∧ ∀ r ∈ commandRows, r.selects 0#64 = false := by decide

theorem witness_IllegalWordIsRefused :
    ((told 0x90000000).mode = .idle ∧ (told 0x90000000).inputs = .command 0x90000000 :: []) ∧
    (∀ r ∈ commandRows, r.selects 0x90000000#64 = false) ∧
    ({ told 0 with inputs := [.issue 0x90000000] } : State).mode = .idle ∧
    ({ told 0 with inputs := [.issue 0x90000000] } : State).inputs = .issue 0x90000000 :: [] := by decide

theorem witness_PortTargetRefusals :
    (({ rwState with inputs := [.port 0x30CFC 1] } : State).inputs = .port 0x30CFC 1 :: [] ∧
      0x30CFC#20 ≠ 0x50CF8#20 ∧ 0x30CFC#20 ≠ 0x40CFC#20 ∧ 0x30CFC#20 ≠ 0x50CFC#20) ∧
    ({ rwState with ca := 0x7FFFFFFF } : State).ca.getLsbD 31 = false := by decide

theorem witness_PortTargetRefusals_commands :
    ∃ t, decodeCommand 0x10011310#64 = .ok (.cfgrd 1 2 3 0x10) ∧ exec (.cfgrd 1 2 3 0x10) rwState = .next t :=
  ⟨_, by decide, rfl⟩

theorem witness_MarksStayUntilReset :
    ∃ s t : State, step s = .next t ∧ s.inputs.head? ≠ some .reset ∧ s.fault.isSome = true ∧ s.refused.isSome = true :=
  ⟨{ told 0x10011310 with fault := some ⟨.bitScanZero, .lsb, 0⟩, refused := some (.illegalCommand 0) }, _, rfl,
    by decide, rfl, rfl⟩

theorem witness_InlDataReadsSelectedDword :
    ({ rwState with ca := 0x80000000 } : State).ca.getLsbD 31 = true ∧
    repeatableDword ((0x80000000#32).extractLsb' 2 6) = true ∧
    rwState.cfg = .reference [fn0 0] (dwords 0 [(0, 0xAABBCCDD), (3, 0x00800000)]) (dwords 0 [(3, 0x000000FF)]) :=
  ⟨by decide, by decide, rfl⟩

theorem witness_OutlDataWritesSelectedDword : ({ rwState with ca := 0xFFFFFFFF } : State).ca.getLsbD 31 = true := by
  decide

theorem witness_RoutingIgnoresReservedBits :
    ∃ t u, 0x80011310#32 &&& 0x80FFFFFC#32 = 0xFF011313#32 &&& 0x80FFFFFC#32 ∧ (0x80011310#32).getLsbD 31 = true ∧
      exec .inlData { rwState with ca := 0x80011310 } = .next t ∧
      exec (.outlData 1) { rwState with ca := 0x80011310 } = .next u :=
  ⟨_, _, by decide, by decide, rfl, rfl⟩

theorem witness_ForeignAddressRedirectsAccess :
    (midRead.mode = .busy ∧ (0x8000000C#32).getLsbD 31 = true ∧ midRead.inputs = .port 0x50CF8 0x8000000C :: .turn :: [] ∧
      ∃ k, midRead.position = some (.rd 1 2 3 0x10 k, true)) ∧
    (midWrite.mode = .busy ∧ midWrite.inputs = .port 0x50CF8 0x8000000C :: .turn :: [] ∧
      ∃ k, midWrite.position = some (.wr 0 3 0 0x10 (.value 0xFFFFFFF0) k, true)) :=
  ⟨⟨rfl, by decide, rfl, _, rfl⟩, rfl, rfl, _, rfl⟩

theorem witness_CfgrdReturnsShiftedDword :
    repeatableDword ((0x0E#8).extractLsb' 2 6) = true ∧ ∃ p v m, rwState.cfg = .reference p v m :=
  ⟨by decide, _, _, _, rfl⟩

theorem witness_CfgrdResultViews :
    (0x0C#8).toNat % 4 ≤ 2 ∧ (0x0E#8).toNat % 4 ≤ 2 ∧ (0x0E#8).toNat % 4 = 2 ∧ (0x0F#8).toNat % 4 = 3 := by decide

theorem witness_ReferenceWriteIsMaskedAndLocal :
    ∃ t u, rwState.cfg = .reference [fn0 0] (dwords 0 [(0, 0xAABBCCDD), (3, 0x00800000)]) (dwords 0 [(3, 0x000000FF)]) ∧
      rwState.cfg.wf = true ∧ exec (.cfgwr 0 0 0 0x0E 0x12) rwState = .next t ∧ (⟨0, 0, 0⟩ : FnAddr) ∈ [fn0 0] ∧
      ((0, 0, 0, 2) : Bus × Dev × Fn × DwordNo) ≠ (0, 0, 0, (0x0E#8).extractLsb' 2 6) ∧
      exec (.cfgwr 0 1 0 0 0) rwState = .next u ∧ (⟨0, 1, 0⟩ : FnAddr) ∉ [fn0 0] :=
  ⟨_, _, rfl, by decide, rfl, by decide, by decide, rfl, by decide⟩

theorem witness_ProbeReadsIdentification :
    rwState.cfg.read 0 0 0 0 = 0xAABBCCDD ∧ rwState.cfg.read 0 0 0 2 = 0 ∧ rwState.cfg.read 0 0 0 15 = 0 := by decide

theorem witness_HasmfAndProbeRepeatable :
    ∃ t t' u u', ({ rwState with ca := 1 } : State).cfg = rwState.cfg ∧
      exec (.hasmf 0 1) rwState = .next t ∧ exec (.hasmf 0 1) { rwState with ca := 1 } = .next t' ∧
      exec (.probe 0 0 0) rwState = .next u ∧ exec (.probe 0 0 0) { rwState with ca := 1 } = .next u' :=
  ⟨_, _, _, _, rfl, rfl, rfl, rfl, rfl⟩

/-- The BAR count of (0, 3, 0), as the statements write it. -/
def barCount (s : State) : Nat := if (s.cfg.read 0 3 0 3).extractLsb' 16 7 = 0 then 6 else 2

theorem witness_DecbarAbsentAfterHeaderRead :
    barCount (barState 0x80 0 0 0) ≤ (6#3).toNat ∧ barCount (barState 0x01 0 0 0) ≤ (2#3).toNat := by decide

theorem witness_DecbarIoBar :
    ((5#3).toNat < barCount (barState 0x00 5 0xC001 0) ∧
      (barState 0x00 5 0xC001 0).cfg.read 0 3 0 (4 + (5#3).setWidth 6) = 0xC001) ∧
    ((1#3).toNat < barCount (barState 0x7F 1 0xFFFFFFFF 0) ∧
      (barState 0x7F 1 0xFFFFFFFF 0).cfg.read 0 3 0 (4 + (1#3).setWidth 6) = 0xFFFFFFFF) ∧
    (0xC001#32).getLsbD 0 = true := by decide

/-- A memory BAR in slot 0 of a header type 0 function: index in range, kind and type bits. -/
def memBar (raw : Word) (ty : BitVec 2) : Bool :=
  (0#3).toNat < barCount (barState 0x00 0 raw 0) && (barState 0x00 0 raw 0).cfg.read 0 3 0 (4 + (0#3).setWidth 6) == raw &&
  raw.getLsbD 0 == false && raw.extractLsb' 1 2 == ty

/-- What slot 0 reads back under the sizing pattern. -/
def readBack (raw mask : Word) : Word :=
  ((barState 0x00 0 raw mask).cfg.write 0 3 0 (4 + (0#3).setWidth 6) 0xFFFFFFF0#32).read 0 3 0 (4 + (0#3).setWidth 6) &&&
    0xFFFFFFF0#32

theorem witness_DecbarUnsizedMemoryBar :
    memBar 0x2 1 = true ∧ memBar 0xC 2 = true ∧ memBar 0x6 3 = true := by decide

theorem witness_DecbarZeroReadBack :
    (memBar 0x0 0 = true ∧ readBack 0x0 0 = 0) ∧ memBar 0x8 0 = true ∧ readBack 0x8 0 = 0 := by decide

/-- The three outcomes: a zero read-back, bit 31 clear, bit 31 set. -/
theorem witness_DecbarSizingProbe :
    memBar 0x0 0 = true ∧ readBack 0 0 = 0 ∧ readBack 0 0x7FFFFFF0 = 0x7FFFFFF0 ∧
    readBack 0 0xFFFFFFFF = 0xFFFFFFF0 := by decide

theorem witness_DecbarWritesPatternThenRaw : (barState 0x00 0 0 0).probeOpen = false := by decide

theorem witness_DecbarKeepsReferenceBackend :
    (∃ p v m, (barState 0x00 0 0 0xFFFF0000).cfg = .reference p v m) ∧
    (barState 0x00 0 0 0xFFFF0000).cfg.wf = true :=
  ⟨⟨_, _, _, rfl⟩, by decide⟩

theorem witness_ScansReturnBitPositions : (1#32) ≠ 0#32 ∧ (0x80000000#32) ≠ 0#32 := by decide

theorem witness_BitScanLaws :
    (0x12345678#32) ≠ 0#32 ∧ highestSetBit 0x12345678#32 = some 28 ∧ lowestSetBit 0x8000#32 = highestSetBit 0x8000#32 ∧
    0x12345678#32 &&& 0xFFFFFFF0#32 ≠ 0 := by decide

theorem witness_EnumCompletes : p4State.probeOpen = false := rfl

/-- A whole sweep that lists a device, for the clauses about listed devices. -/
theorem witness_EnumListsPresentFunctionsInOrder :
    ∃ t x, exec .enum p4State = .next t ∧ x ∈ t.sweep.devList ∧ x.id = probed 0 1 0 p4State.cfg :=
  let ⟨x, h, e⟩ := progEnum_lists p4State _ _ _ rfl (by decide) (by decide)
  ⟨_, x, rfl, h, e⟩

theorem witness_EnumReportsEveryDevice : ∃ t x, exec .enum p4State = .next t ∧ x ∈ t.sweep.devList :=
  let ⟨t, x, h, hx, _⟩ := witness_EnumListsPresentFunctionsInOrder
  ⟨t, x, h, hx⟩

theorem witness_EnumTransactionBounds : ∃ t, exec .enum State.reset = .next t := ⟨_, rfl⟩

theorem witness_EnumLeavesCursorAtLastDevice :
    (∃ t, exec .enum p4State = .next t ∧ t.sweep.devList ≠ []) ∧
    ∃ p v m, p4State.cfg = .reference p v m ∧ p4State.cfg.wf = true :=
  let ⟨t, _, h, hx⟩ := witness_EnumReportsEveryDevice
  ⟨⟨t, h, List.ne_nil_of_mem hx⟩, _, _, _, rfl, by decide⟩

theorem witness_EnumKeepsReferenceBackend :
    ∃ t p v m, p4State.cfg = .reference p v m ∧ p4State.cfg.wf = true ∧ exec .enum p4State = .next t :=
  ⟨_, _, _, _, rfl, by decide, rfl⟩

theorem witness_EnumOfEmptySpace :
    ∃ t v m, ({ p4State with cfg := .reference [] [] [] } : State).cfg = .reference [] v m ∧
      exec .enum { p4State with cfg := .reference [] [] [] } = .next t :=
  ⟨_, _, _, rfl, rfl⟩

/-- With the second clause's hypotheses, which give a listed device for the first. -/
theorem witness_EnumListsWhatItsCommandsAnswer :
    (∃ t x, exec .enum p4State = .next t ∧ x ∈ t.sweep.devList) ∧
    (∃ t p v m, p4State.cfg = .reference p v m ∧ p4State.cfg.wf = true ∧ exec .enum p4State = .next t) ∧
    ∃ u r, exec (.probe 0 1 0) p4State = .next u ∧ u.res = some (.idRecord r) ∧ r.vendorId ≠ 0x0000#16 ∧
      r.vendorId ≠ 0xFFFF#16 :=
  ⟨witness_EnumReportsEveryDevice, witness_EnumKeepsReferenceBackend, _, _, rfl, rfl, by decide, by decide⟩

theorem witness_EnumListsWhatItsCommandsAnswer_multi :
    ∃ w, exec (.hasmf 0 1) p4State = .next w ∧ w.res = some (.bool true) :=
  ⟨_, rfl, by decide⟩

theorem witness_PortBaseIsFirstIoSlot :
    (⟨.unused, .io 0xC000, .unused, .unused, .io 0xE000, .unused⟩ : Bars).portBase = some 0xC000 ∧
    (⟨.unused, .absent, .unused, .unused, .absent, .unused⟩ : Bars).portBase = none := by decide

theorem witness_PortBaseIsFirstIoSlot_listed : ∃ t x, exec .enum p4State = .next t ∧ x ∈ t.sweep.devList :=
  witness_EnumReportsEveryDevice

theorem witness_ResultTagPerCommand :
    decodeCommand 0x0000000052001800#64 = .ok (.decbar 0 3 0 1) ∧ Instr.decbar 0 3 0 1 ≠ .lsb 0#32 ∧
    Instr.decbar 0 3 0 1 ≠ .msb 0#32 := by decide

theorem witness_EngineTracePaired :
    ∃ t, decodeCommand 0x0000000052001800#64 = .ok (.decbar 0 3 0 1) ∧ exec (.decbar 0 3 0 1) rwState = .next t :=
  ⟨_, by decide, rfl⟩

theorem witness_OnlyEnumWritesSweepAndEvents :
    ∃ t, Instr.decbar 0 3 0 1 ≠ .enum ∧ exec (.decbar 0 3 0 1) rwState = .next t :=
  ⟨_, by decide, rfl⟩

theorem witness_UnspecifiedRegistersDoNotMatter :
    ∃ t t', decodeCommand 0x0000000052001800#64 = .ok (.decbar 0 3 0 1) ∧ exec (.decbar 0 3 0 1) rwState = .next t ∧
      exec (.decbar 0 3 0 1) { rwState with
        ca := 5, cmd := 7, regs := ⟨1, 2, 3, 4, 5, 6, 7, 8, 9⟩, res := some .unit, sweep := ⟨1, 2, 3, .eight, 4, 0, []⟩ } =
        .next t' :=
  ⟨_, _, by decide, rfl, rfl⟩

/-- The invariant holds in the middle of a command. -/
theorem witness_StepNeverStops : midRead.Inv := by
  refine ⟨by decide, by decide, by decide, by decide, by decide, ?_⟩
  intro r h
  cases h

theorem witness_StepKeepsInvariant : midRead.Inv ∧ ∃ t, step midRead = .next t := ⟨witness_StepNeverStops, _, rfl⟩

theorem witness_TraceAndEventsAppendOnly : midRead.inputs.head? ≠ some .reset ∧ ∃ t, step midRead = .next t :=
  ⟨by decide, _, rfl⟩

theorem witness_BackendIsAParameter :
    (∃ t, step (told 0x10011310) = .next t ∧ (told 0x10011310).cfg = .platform []) ∧
    ∃ t p v m, step midRead = .next t ∧ midRead.cfg = .reference p v m :=
  ⟨⟨_, rfl, rfl⟩, _, _, _, _, rfl, rfl⟩

theorem witness_BusyEngineHoldsHost :
    ({ midRead with inputs := [.command 0x80000000] } : State).mode = .busy ∧
    ({ midRead with inputs := [.command 0x80000000] } : State).placed = true ∧
    ({ midRead with inputs := [.issue 0x80000000] } : State).placed = true := by decide

theorem witness_ResetAbandonsCommand :
    (∃ p v m, ({ midWrite with inputs := [.reset], probeOpen := true } : State).cfg = .reference p v m) ∧
    ({ told 0 with inputs := [.reset] } : State).cfg = .platform [] ∧
    ({ midWrite with inputs := [.reset], probeOpen := true } : State).inputs = .reset :: [] :=
  ⟨⟨_, _, _, rfl⟩, rfl, rfl⟩

/-- The engine before the scan of `lsb val`. -/
def midScan (val : Word) : State := { State.reset with mode := .busy, cmd := val ++ 0x60000000#32 }

/-- An access step that ends its command, a scan of a nonzero value, a scan of zero, and a data access under E = 0. -/
theorem witness_EngineStepAdvancesSequencer :
    (∃ t k, ({ midWrite with inputs := [] } : State).position = some (.wr 0 3 0 0x10 (.value 0xFFFFFFF0) k, true) ∧
      ({ midWrite with inputs := [], ca := 0x80001810 } : State).undisturbed = true ∧
      step { midWrite with inputs := [], ca := 0x80001810 } = .next t ∧ t.mode = .idle) ∧
    (∃ t k, (midScan 0x10).position = some (.scan .lsb 0x10 k, false) ∧ (midScan 0x10).undisturbed = true ∧
      step (midScan 0x10) = .next t) ∧
    (∃ t k, (midScan 0).position = some (.scan .lsb 0 k, false) ∧ step (midScan 0) = .next t) ∧
    ∃ t k, ({ midRead with inputs := [], ca := 0 } : State).position = some (.rd 1 2 3 0x10 k, true) ∧
      ({ midRead with inputs := [], ca := 0 } : State).ca.getLsbD 31 = false ∧
      step { midRead with inputs := [], ca := 0 } = .next t :=
  ⟨⟨_, _, rfl, rfl, rfl, rfl⟩, ⟨_, _, rfl, rfl, rfl⟩, ⟨_, _, rfl, rfl⟩, _, _, rfl, by decide, rfl⟩

theorem witness_SequencerRefinesExec :
    ∃ t, ({ rwState with inputs := [.issue 0x10011310] } : State).mode = .idle ∧
      decodeCommand 0x10011310#64 = .ok (.cfgrd 1 2 3 0x10) ∧
      exec (.cfgrd 1 2 3 0x10)
        (State.writeCmd { ({ rwState with inputs := [.issue 0x10011310] } : State) with inputs := [] } 0x10011310) =
        .next t :=
  ⟨_, rfl, by decide, rfl⟩

theorem witness_PseudoInstructionsExpand :
    (∀ b d f o, Asm.cfgrd 1 2 3 4 ≠ .cfgrd8 b d f o) ∧ ∀ b d f o, Asm.cfgrd 1 2 3 4 ≠ .cfgrd16 b d f o :=
  ⟨fun _ _ _ _ h => Asm.noConfusion h, fun _ _ _ _ h => Asm.noConfusion h⟩

theorem witness_AssemblerMasksAndRefuses : (0xCFD : Nat) ≠ 0xCF8 ∧ (0xCFD : Nat) ≠ 0xCFC := by decide

/-- What the clauses share, and then each clause. -/
theorem witness_SizingWriteOpensWindow :
    (∀ n got, (midSizing n got).mode = .busy ∧ (midSizing n got).undisturbed = true ∧
      decodeCommand (midSizing n got).cmd = .ok (.decbar 0 3 0 0) ∧
      (midSizing n got).ca = addrWord 0 3 0 (0x10 + 4 * (0#3).setWidth 8)) ∧
    ((0#3).toNat < (if (0#32).extractLsb' 16 7 = 0 then 6 else 2) ∧ (0xFEBF0000#32).getLsbD 0 = false ∧
      (0xFEBF0000#32).extractLsb' 1 2 = 0) ∧
    ((midSizing 5 []).got = [0, 0xFEBF0000] ∧ (midSizing 5 []).seq = 5) ∧
    ((midSizing 4 []).got = [0, 0xFEBF0000] ∧ (midSizing 4 []).seq = 4 ∧ (midSizing 6 []).seq = 6) ∧
    ((midSizing 7 []).got = [0, 0xFEBF0000] ∧ (midSizing 7 []).seq = 7) ∧
    ((midSizing 8 [5]).got = [0, 0xFEBF0000, 5] ∧ (midSizing 8 [5]).seq = 8) ∧
    ((midSizing 9 [5]).got = [0, 0xFEBF0000, 5] ∧ (midSizing 9 [5]).seq = 9) :=
  ⟨fun _ _ => ⟨rfl, rfl, by simp only [midSizing]; decide, by simp only [midSizing]; decide⟩, by decide, by decide,
    by decide, by decide, by decide, by decide⟩

theorem witness_SizingWindowSpansProbe :
    ({ barState 0 0 0xFEBF0000 0xFFFF0000 with inputs := [.issue 0x50001800] } : State).mode = .idle ∧
    decodeCommand 0x50001800#64 = .ok (.decbar 0 3 0 0) ∧
    ({ barState 0 0 0xFEBF0000 0xFFFF0000 with inputs := [.issue 0x50001800] } : State).inputs = [.issue 0x50001800] ∧
    ({ barState 0 0 0xFEBF0000 0xFFFF0000 with inputs := [.issue 0x50001800] } : State).probeOpen = false ∧
    memBar 0xFEBF0000 0 = true := by decide

theorem witness_SequencerStaysBelowItsBound :
    (midRead.mode = .busy ∧ midRead.placed = true ∧ decodeCommand midRead.cmd = .ok (.cfgrd 1 2 3 0x10)) ∧
    ∃ t, decodeCommand 0x50001800#64 = .ok (.decbar 0 3 0 0) ∧ exec (.decbar 0 3 0 0) rwState = .next t :=
  ⟨by decide, _, by decide, rfl⟩

end Sys2Proof.Tests
end

/-! # Steps of the machine: the sequencer's rules and the statements over all steps -/

namespace Sys2Proof.Machine

/-! ## Settling: the assignments up to the next step leave most of the state alone -/

/-- What no assignment and no `return` changes is as it was after settling. -/
theorem Prog.settle_same {α : Type} (f : State → α) (hset : ∀ s a, f (s.assign a) = f s)
    (hfin : ∀ s r, f (s.finish r) = f s) (p : Prog) (s : State) : f (p.settle s) = f s := by
  obtain ⟨t, ht, e | ⟨r, e⟩⟩ := p.settle_ends (f · = f s) (fun u a h => (hset u a).trans h) s rfl
  · rw [e, ht]
  · rw [e, hfin, ht]

section
variable (p : Prog) (s : State)

@[simp] theorem Prog.settle_ca : (p.settle s).ca = s.ca := p.settle_same _ State.assign_ca (fun _ _ => rfl) s
@[simp] theorem Prog.settle_cmd : (p.settle s).cmd = s.cmd := p.settle_same _ State.assign_cmd (fun _ _ => rfl) s
@[simp] theorem Prog.settle_seq : (p.settle s).seq = s.seq := p.settle_same _ State.assign_seq (fun _ _ => rfl) s
@[simp] theorem Prog.settle_tr : (p.settle s).tr = s.tr := p.settle_same _ State.assign_tr (fun _ _ => rfl) s
@[simp] theorem Prog.settle_cfg : (p.settle s).cfg = s.cfg := p.settle_same _ State.assign_cfg (fun _ _ => rfl) s
@[simp] theorem Prog.settle_inputs : (p.settle s).inputs = s.inputs :=
  p.settle_same _ State.assign_inputs (fun _ _ => rfl) s

/-- Settling stops before an access or a scan, with the locals kept, or ends the command. -/
theorem Prog.settle_stands_or_ends :
    ((p.settle s).mode = s.mode ∧ (p.settle s).got = s.got ∧ (p.resume 0 []).isSome = true) ∨
      ((p.settle s).mode = .idle ∧ (p.settle s).got = [] ∧ p.resume 0 [] = none) := by
  induction p generalizing s with
  | ret r => exact .inr ⟨rfl, rfl, rfl⟩
  | set a k ih =>
    have := ih (s.assign a)
    rwa [State.assign_mode, State.assign_got] at this
  | rd | wr | scan => exact .inl ⟨rfl, rfl, rfl⟩

/-- A command carried out whole leaves the engine idle, without locals. -/
theorem Prog.run_idle : (p.run s).mode = .idle ∧ (p.run s).got = [] := by
  obtain ⟨t, -, ⟨r, e⟩ | ⟨w, e⟩⟩ := p.run_ends (fun _ => True) (fun _ _ _ => trivial) (fun _ _ _ _ _ _ => trivial)
    (fun _ _ _ _ _ _ _ => trivial) (fun _ _ => trivial) s trivial
  all_goals rw [e]; exact ⟨rfl, rfl⟩

end

/-! ## The position SEQ names, and how each step moves it (R24) -/

theorem State.position_eq_some {s : State} {x : Prog × Bool} :
    s.position = some x ↔ ∃ p, s.currentProg = some p ∧ p.resume s.seq s.got = some x := by
  unfold State.position
  cases s.currentProg <;> simp

/-- The position depends on CMD, SEQ and the locals alone. -/
theorem State.position_congr {s t : State} (hc : t.cmd = s.cmd) (hs : t.seq = s.seq) (hg : t.got = s.got) :
    t.position = s.position := by
  unfold State.position State.currentProg
  rw [hc, hs, hg]

theorem State.currentProg_eq {s : State} {i : Instr} (h : decodeCommand s.cmd = .ok i) : s.currentProg = program i := by
  simp only [State.currentProg, h]

theorem State.position_eq {s : State} {i : Instr} {p : Prog} (h : decodeCommand s.cmd = .ok i)
    (hp : program i = some p) : s.position = p.resume s.seq s.got := by
  simp only [State.position, State.currentProg_eq h, hp]

theorem State.position_of_resume {s t : State} {x : Option (Prog × Bool)} {y : Prog × Bool} (h : s.position = some y)
    (hc : t.cmd = s.cmd) (hr : ∀ p : Prog, p.resume s.seq s.got = some y → p.resume t.seq t.got = x) :
    t.position = x := by
  obtain ⟨p, hp, hy⟩ := State.position_eq_some.1 h
  have hp' : t.currentProg = some p := by rw [← hp]; unfold State.currentProg; rw [hc]
  simp only [State.position, hp', hr p hy]

/-- After its OUTL_ADDR an access stands at its data transaction. -/
theorem State.position_sendAddr {s : State} {q : Prog} (h : s.position = some (q, false))
    (hq : ∀ which v k, q ≠ .scan which v k) (bus : Bus) (dev : Dev) (fn : Fn) (off : Off) :
    (s.buildAddr bus dev fn off).sendAddr.position = some (q, true) := by
  refine State.position_of_resume h rfl fun p hp => ?_
  obtain ⟨which, v, k, e⟩ | h' := Prog.resume_addressed hp
  · exact absurd e (hq which v k)
  · exact h'

/-- After its INL_DATA a read is over and the command stands before what follows. -/
theorem State.position_takeData {s : State} {bus : Bus} {dev : Dev} {fn : Fn} {off : Off} {k : Word → Prog}
    (h : s.position = some (.rd bus dev fn off k, true)) (v : Word) :
    (s.takeData.pushGot v).position = (k (v >>> subwordShift off)).resume 0 [] :=
  State.position_of_resume h rfl fun _ hp => Prog.resume_read hp v

/-- After its OUTL_DATA a write is over and the command stands before what follows. -/
theorem State.position_giveData {s : State} {bus : Bus} {dev : Dev} {fn : Fn} {off : Off} {src : Source} {k : Prog}
    (h : s.position = some (.wr bus dev fn off src k, true)) (v : Word) :
    (s.giveData v).position = k.resume 0 [] :=
  State.position_of_resume h rfl fun _ hp => Prog.resume_written hp

/-- After a scan that found a position the command stands before what follows. -/
theorem State.position_advance {s : State} {b : Bool} {which : Scan} {v : Word} {k : BitPos → Prog}
    (h : s.position = some (.scan which v k, b)) {q : BitPos} (hq : bitScan which v = some q) :
    s.advance.position = (k q).resume 0 [] :=
  State.position_of_resume h rfl fun _ hp => Prog.resume_scanned hp hq

/-- Right after the host's write a command stands before its first step. -/
theorem State.position_writeCmd (s : State) {w : CommandWord} {i : Instr} {p : Prog} (h : decodeCommand w = .ok i)
    (hp : program i = some p) : (s.writeCmd w).position = p.resume 0 [] :=
  State.position_eq (s := s.writeCmd w) h hp

/-- A legal word written by the host stands before its first step, once the assignments there are made (R221). -/
theorem State.issue_of_program (s : State) {w : CommandWord} {i : Instr} {p : Prog} (h : decodeCommand w = .ok i)
    (hp : program i = some p) : s.issue w = p.settle (s.writeCmd w) := by
  simp only [State.issue, h, hp]

/-! ## Which step the machine takes -/

/-- A reset lands where it stands in the list of inputs (R280). -/
theorem step_reset {s : State} {rest : List Input} (h : s.inputs = .reset :: rest) :
    step s = .next (State.resetBlock { s with inputs := rest }) := by
  simp only [step, nextStep, h]

theorem State.tick_of_position {s : State} {p : Prog} {b : Bool} (hp : s.position = some (p, b)) :
    s.tick = .next (p.stepAt b s) := by
  simp only [State.tick, hp]

/-- An undisturbed BUSY engine moves, and at most a turn is used up; a host's write is held (R22, R290). -/
theorem step_of_busy {s : State} (hm : s.mode = .busy) (hu : s.undisturbed = true) :
    step s = s.tick ∨ ∃ rest, s.inputs = .turn :: rest ∧ step s = State.tick { s with inputs := rest } := by
  match hi : s.inputs, hu with
  | [], _ | .command _ :: _, _ | .issue _ :: _, _ => exact .inl (by simp only [step, nextStep, hi, hm])
  | .turn :: rest, _ => exact .inr ⟨rest, rfl, by simp only [step, nextStep, hi, hm]⟩
  | .port _ _ :: _, hu | .reset :: _, hu => simp [State.undisturbed, hi] at hu

/-- An undisturbed BUSY engine takes the step its position names. -/
theorem step_of_position {s : State} {p : Prog} {b : Bool} (hm : s.mode = .busy) (hu : s.undisturbed = true)
    (hp : s.position = some (p, b)) : ∃ rest, step s = .next (p.stepAt b { s with inputs := rest }) := by
  obtain h | ⟨rest, -, h⟩ := step_of_busy hm hu
  · exact ⟨s.inputs, h.trans (State.tick_of_position hp)⟩
  · exact ⟨rest, h.trans (State.tick_of_position (s := { s with inputs := rest }) hp)⟩

/-- Everything a transaction at the port target can do (R110 to R114). -/
theorem State.runPort_cases {s t : State} {d : Descriptor} {v : Word} (h : s.runPort d v = .next t) :
    t = s.outlAddr v ∨ t = s.inlData ∨ t = s.outlData v ∨ ∃ d' v', t = s.refusePort d' v' := by
  simp only [State.runPort] at h
  split at h
  · cases h; exact .inr <| .inr <| .inr ⟨_, _, rfl⟩
  · next i hd =>
    simp only [decodePort] at hd
    split at hd
    · cases hd; cases h; exact .inl rfl
    split at hd
    · cases hd; cases h
      split
      · exact .inr <| .inl rfl
      · exact .inr <| .inr <| .inr ⟨_, _, rfl⟩
    split at hd
    · cases hd; cases h
      split
      · exact .inr <| .inr <| .inl rfl
      · exact .inr <| .inr <| .inr ⟨_, _, rfl⟩
    · cases hd

/-! ## The invariant's half about the sequencer -/

/-- An idle engine holds no locals and a BUSY one stands at a step of its command (R24). -/
def State.Sequenced (s : State) : Prop := (s.mode = .idle → s.got = []) ∧ s.placed = true

theorem State.sequenced_of_idle {s : State} (hm : s.mode = .idle) (hg : s.got = []) : s.Sequenced :=
  ⟨fun _ => hg, by simp [State.placed, hm]⟩

theorem State.sequenced_of_position {s : State} (hm : s.mode = .busy) (hp : s.position.isSome = true) :
    s.Sequenced :=
  ⟨fun h => by simp [hm] at h, by simp [State.placed, hp]⟩

/-- A placed BUSY engine has a position. -/
theorem State.position_of_placed {s : State} (hm : s.mode = .busy) (h : s.placed = true) :
    ∃ p b, s.position = some (p, b) := by
  obtain ⟨⟨p, b⟩, hp⟩ := Option.isSome_iff_exists.1 (show s.position.isSome = true by simpa [State.placed, hm] using h)
  exact ⟨p, b, hp⟩

/-- Whatever keeps MODE, CMD, SEQ and the locals keeps the sequencer's half. -/
theorem State.Sequenced.congr {s t : State} (h : s.Sequenced) (hm : t.mode = s.mode) (hc : t.cmd = s.cmd)
    (hs : t.seq = s.seq) (hg : t.got = s.got) : t.Sequenced := by
  simpa only [State.Sequenced, State.placed, hm, hg, State.position_congr hc hs hg] using h

/-- Settling from before `k` ends at a step of the command, or ends it. -/
theorem State.settle_sequenced {s : State} {k : Prog} (hm : s.mode = .busy) (hp : s.position = k.resume 0 []) :
    (k.settle s).Sequenced := by
  obtain ⟨hm', hg', hk⟩ | ⟨hm', hg', -⟩ := k.settle_stands_or_ends s
  · refine State.sequenced_of_position (hm'.trans hm) ?_
    rw [State.position_congr (k.settle_cmd s) (k.settle_seq s) hg', hp, hk]
  · exact State.sequenced_of_idle hm' hg'

/-- The engine's step leads to a step of the command again, or ends it. -/
theorem Prog.stepAt_sequenced {p : Prog} {b : Bool} {s : State} (hm : s.mode = .busy)
    (hp : s.position = some (p, b)) : (p.stepAt b s).Sequenced := by
  have addressed : (∀ which v k, p ≠ .scan which v k) → b = false → ∀ bus dev fn off,
      ((s.buildAddr bus dev fn off).sendAddr).Sequenced := fun hq hb bus dev fn off =>
    State.sequenced_of_position hm (by rw [State.position_sendAddr (hb ▸ hp) hq]; rfl)
  match p, b with
  | .rd bus dev fn off k, false => exact addressed (fun _ _ _ h => by cases h) rfl bus dev fn off
  | .wr bus dev fn off src k, false => exact addressed (fun _ _ _ h => by cases h) rfl bus dev fn off
  | .rd bus dev fn off k, true =>
    simp only [Prog.stepAt]
    split
    · exact State.settle_sequenced hm (State.position_takeData hp s.selected)
    · exact State.sequenced_of_idle rfl rfl
  | .wr bus dev fn off src k, true =>
    simp only [Prog.stepAt]
    split
    · exact State.settle_sequenced hm (State.position_giveData hp _)
    · exact State.sequenced_of_idle rfl rfl
  | .scan which v k, b =>
    simp only [Prog.stepAt]
    split
    · exact State.sequenced_of_idle rfl rfl
    · next q hq => exact State.settle_sequenced hm (State.position_advance hp hq)
  | .ret r, b => exact absurd rfl ((State.position_access hp).1 r)
  | .set a k, b => exact absurd rfl ((State.position_access hp).2 a k)

/-- The host's write, taken in step by step, leads to the command's first step or ends the command. -/
theorem State.issue_sequenced (s : State) (w : CommandWord) : (s.issue w).Sequenced := by
  cases hd : decodeCommand w with
  | error e => simp only [State.issue, hd]; exact State.sequenced_of_idle rfl rfl
  | ok i =>
    obtain ⟨p, hp, -⟩ := decodeCommand_program hd
    rw [s.issue_of_program hd hp]
    exact State.settle_sequenced rfl (s.position_writeCmd hd hp)

/-- Every step keeps the sequencer's half of the invariant. -/
theorem step_sequenced {s t : State} (hs : s.Sequenced) (h : step s = .next t) : t.Sequenced := by
  rcases step_cases h with ⟨-, -, rfl⟩ | ⟨rest, -, -, rfl⟩ | ⟨rest, p, b, hm, -, hp, rfl⟩ | ⟨w, rest, -, -, h⟩ |
    ⟨w, rest, -, -, rfl⟩ | ⟨d, v, rest, -, h⟩ | ⟨rest, -, rfl⟩
  · exact hs
  · exact hs.congr rfl rfl rfl rfl
  · exact Prog.stepAt_sequenced hm hp
  · simp only [State.runCommand] at h
    split at h
    · cases h; exact State.sequenced_of_idle rfl rfl
    · next i hd =>
      obtain ⟨p, -, hp⟩ := decodeCommand_program hd
      rw [hp] at h; cases h
      exact State.sequenced_of_idle (p.run_idle _).1 (p.run_idle _).2
  · exact State.issue_sequenced _ w
  · obtain rfl | rfl | rfl | ⟨_, _, rfl⟩ := State.runPort_cases h
    all_goals exact hs.congr rfl rfl rfl rfl
  · exact State.sequenced_of_idle rfl rfl

/-! ## The invariant's half about what is stored -/

/-- Canonical memories, DEVCOUNT the length of DEVLIST, port bases of the first I/O slot, only BitScanZero as a fault
(R229, R225, R252). -/
def State.StoresWell (s : State) : Prop :=
  s.cfg.wf = true ∧ s.sweep.devCount = s.sweep.devList.length ∧
  (∀ d ∈ s.sweep.devList, d.portBase = d.bars.portBase) ∧ ∀ r, s.fault = some r → r.genuine = true

theorem State.inv_iff {s : State} : s.Inv ↔ s.StoresWell ∧ s.Sequenced := by
  unfold State.Inv State.StoresWell State.Sequenced
  tauto

theorem State.StoresWell.assign {s : State} (h : s.StoresWell) (a : Assign) : (s.assign a).StoresWell := by
  obtain ⟨hcfg, hlen, hbase, hfault⟩ := h
  cases a with
  | startSweep => exact ⟨hcfg, rfl, fun d hd => (List.not_mem_nil hd).elim, hfault⟩
  | report id bars =>
    refine ⟨hcfg, by simp [State.assign, hlen], fun d hd => ?_, hfault⟩
    obtain hd | rfl := by simpa [State.assign] using hd
    · exact hbase d hd
    · rfl
  | _ => exact ⟨hcfg, hlen, hbase, hfault⟩

/-- Every step keeps the invariant's half about what is stored. -/
theorem step_storesWell {s t : State} (hs : s.StoresWell) (h : step s = .next t) : t.StoresWell := by
  by_cases hr : s.inputs.head? = some .reset
  · obtain ⟨rest, hi⟩ := List.head?_eq_some_iff.1 hr
    rw [step_reset hi] at h; cases h
    exact ⟨Backend.afterReset_wf hs.1, rfl, fun d hd => (List.not_mem_nil hd).elim, fun r hf => by cases hf⟩
  · refine step_keeps State.StoresWell (fun _ _ h => h) (fun _ _ h => h) (fun _ a h => h.assign a) (fun _ _ h => h)
      (fun s w h => ?_) (fun _ h => h) (fun _ _ h => h) (fun _ _ h => h) (fun s h => ?_) (fun s v h => ?_)
      (fun _ h => h) (fun _ _ _ h => h) (fun _ _ h => h) h hr hs
    all_goals obtain ⟨hcfg, hlen, hbase, hfault⟩ := h
    · exact ⟨hcfg, hlen, hbase, fun r hf => by cases hf; rfl⟩
    · exact ⟨Backend.afterRead_wf _ _ _ _ hcfg, hlen, hbase, hfault⟩
    · exact ⟨Backend.write_wf _ _ _ _ v hcfg, hlen, hbase, hfault⟩

/-- Settles O46: the half about what is stored is kept by every named operation, the sequencer's half by a case split
over what a step can be. -/
theorem stepKeepsInvariant : Obligations.StepKeepsInvariant := by
  intro s t hs h
  obtain ⟨hw, hq⟩ := State.inv_iff.1 hs
  exact State.inv_iff.2 ⟨step_storesWell hw h, step_sequenced hq h⟩

/-- Settles O45: nothing is stored after reset and the engine is idle. -/
theorem invariantAtReset : Obligations.InvariantAtReset :=
  State.inv_iff.2 ⟨⟨rfl, rfl, fun _ hd => (List.not_mem_nil hd).elim, fun _ hf => by cases hf⟩,
    State.sequenced_of_idle rfl rfl⟩

/-- Settles O1: each is the value State.reset names. -/
theorem resetLeavesSpecifiedValues : Obligations.ResetLeavesSpecifiedValues :=
  ⟨rfl, rfl, rfl, rfl, rfl, rfl, rfl, rfl, rfl, rfl, rfl⟩

/-- Settles O2: the arms of nextStep for a command word and for a transaction. -/
theorem stepRunsDecodedInstruction : Obligations.StepRunsDecodedInstruction := by
  constructor
  · intro s w rest i hm hi hd
    simp only [step, nextStep, hi, hm, State.runCommand, hd, State.writeCmd]
  · intro s d v rest i hi hd
    simp only [step, nextStep, hi, State.runPort, hd]

/-! ## What every step keeps -/

/-- A mark set in `s` is set in `u`. -/
def State.MarksKept (s u : State) : Prop :=
  (s.fault.isSome = true → u.fault.isSome = true) ∧ (s.refused.isSome = true → u.refused.isSome = true)

/-- Settles O10: only `raise` and `setRefused` write a mark, and they set it. -/
theorem marksStayUntilReset : Obligations.MarksStayUntilReset := by
  intro s t h hr
  exact step_keeps s.MarksKept (fun _ _ h => h) (fun _ _ h => h)
    (fun u a h => by simpa only [State.MarksKept, State.assign_fault, State.assign_refused] using h)
    (fun _ _ h => h) (fun _ _ h => ⟨fun _ => rfl, h.2⟩) (fun _ h => h) (fun _ _ h => ⟨h.1, fun _ => rfl⟩)
    (fun _ _ h => h) (fun _ h => h) (fun _ _ h => h) (fun _ h => h) (fun _ _ _ h => h) (fun _ _ h => h) h hr ⟨id, id⟩

/-- TR and EVT of `u` begin with those of `s`. -/
def State.Extends (s u : State) : Prop := s.tr <+: u.tr ∧ s.evt <+: u.evt

theorem State.Extends.assign {s u : State} (h : s.Extends u) (a : Assign) : s.Extends (u.assign a) := by
  obtain ⟨htr, hevt⟩ := h
  refine ⟨by rwa [State.assign_tr], ?_⟩
  cases a with
  | report | total => exact hevt.trans (List.prefix_append _ _)
  | _ => exact hevt

/-- Settles O48: the port target appends to TR, a report and the total append to EVT, and nothing else writes them. -/
theorem traceAndEventsAppendOnly : Obligations.TraceAndEventsAppendOnly := by
  intro s t h hr
  have record : ∀ {u : State} (r : PortRecord), s.Extends u → s.tr <+: u.tr ++ [r] := fun r h =>
    h.1.trans (List.prefix_append _ _)
  exact step_keeps s.Extends (fun _ _ h => h) (fun _ _ h => h) (fun _ a h => h.assign a) (fun _ _ h => h)
    (fun _ _ h => h) (fun _ h => h) (fun _ _ h => h) (fun _ _ h => ⟨record _ h, h.2⟩) (fun _ h => ⟨record _ h, h.2⟩)
    (fun _ _ h => ⟨record _ h, h.2⟩) (fun _ h => h) (fun _ _ _ h => h) (fun _ _ h => h) h hr
    ⟨List.prefix_rfl, List.prefix_rfl⟩

/-- `c'` is `c` later on: a platform's log has at most grown, a reference backend has the same flags and masks. -/
def Backend.Becomes (c c' : Backend) : Prop :=
  (∀ log, c = .platform log → ∃ l, c' = .platform (l ++ log)) ∧
  ∀ p v m, c = .reference p v m → ∃ v', c' = .reference p v' m

theorem Backend.becomes_platform (log l : List CfgOp) :
    (Backend.platform log).Becomes (.platform (l ++ log)) :=
  ⟨fun _ h => ⟨l, by cases h; rfl⟩, fun _ _ _ h => by cases h⟩

theorem Backend.becomes_reference (p : List FnAddr) (v v' m : Memory) :
    (Backend.reference p v m).Becomes (.reference p v' m) :=
  ⟨fun _ h => (by cases h), fun _ _ _ h => ⟨v', by cases h; rfl⟩⟩

theorem Backend.Becomes.refl (c : Backend) : c.Becomes c := by
  cases c with
  | platform log => exact becomes_platform log []
  | reference p v m => exact becomes_reference p v v m

theorem Backend.Becomes.trans {c c' c'' : Backend} (h : c.Becomes c') (h' : c'.Becomes c'') : c.Becomes c'' := by
  refine ⟨fun log e => ?_, fun p v m e => ?_⟩
  · obtain ⟨l, e⟩ := h.1 log e
    obtain ⟨l', e⟩ := h'.1 _ e
    exact ⟨l' ++ l, by rw [e, List.append_assoc]⟩
  · obtain ⟨v', e⟩ := h.2 p v m e
    exact h'.2 p v' m e

section
variable (c : Backend) (b : Bus) (d : Dev) (f : Fn) (k : DwordNo)

theorem Backend.becomes_afterRead : c.Becomes (c.afterRead b d f k) := by
  cases c with
  | platform log =>
    simp only [Backend.afterRead]
    split
    · exact .refl _
    · exact becomes_platform log [_]
  | reference p v m => exact .refl _

theorem Backend.becomes_write (x : Word) : c.Becomes (c.write b d f k x) := by
  cases c with
  | platform log => exact becomes_platform log [_]
  | reference p v m =>
    simp only [Backend.write]
    split
    · exact becomes_reference p v _ m
    · exact .refl _

theorem Backend.becomes_afterReset : c.Becomes c.afterReset := by
  cases c with
  | platform log => exact becomes_platform log [_]
  | reference p v m => exact .refl _

end

/-- Settles O49: a read, a write and a reset are all that happens to a backend. -/
theorem backendIsAParameter : Obligations.BackendIsAParameter := by
  intro s t h
  change s.cfg.Becomes t.cfg
  by_cases hr : s.inputs.head? = some .reset
  · obtain ⟨rest, hi⟩ := List.head?_eq_some_iff.1 hr
    rw [step_reset hi] at h; cases h
    exact s.cfg.becomes_afterReset
  · exact step_keeps (fun u => s.cfg.Becomes u.cfg) (fun _ _ h => h) (fun _ _ h => h)
      (fun u a h => by rwa [State.assign_cfg]) (fun _ _ h => h) (fun _ _ h => h) (fun _ h => h) (fun _ _ h => h)
      (fun _ _ h => h) (fun u h => h.trans (u.cfg.becomes_afterRead _ _ _ _))
      (fun u v h => h.trans (u.cfg.becomes_write _ _ _ _ v)) (fun _ h => h) (fun _ _ _ h => h) (fun _ _ h => h)
      h hr (.refl _)

/-! ## One step of the engine -/

section
variable (p : Prog) (b : Bool) (s : State)

/-- A step of the engine leaves CMD and the inputs and appends at most one record to TR (R23, R35). -/
theorem Prog.stepAt_frame : (p.stepAt b s).cmd = s.cmd ∧ (p.stepAt b s).inputs = s.inputs ∧
    ∃ l, (p.stepAt b s).tr = s.tr ++ l ∧ l.length ≤ 1 := by
  rcases p.stepAt_cases b s with ⟨_, _, _, _, e, -⟩ | ⟨k, -, e⟩ | ⟨k, v, -, e⟩ | ⟨k, e⟩ | ⟨w, e⟩ | ⟨d, v, -, e⟩ |
    ⟨r, rfl⟩ | ⟨a, k, rfl⟩
  · rw [e]; exact ⟨rfl, rfl, [_], rfl, Nat.le_refl 1⟩
  · rw [e]; simp
  · rw [e]; simp
  · rw [e]; simp
  · rw [e]; simp
  · rw [e]; simp
  · simp [Prog.stepAt]
  · simp [Prog.stepAt]

end

/-- Settles O50: the position of a placed engine names the step it takes. -/
theorem busyEngineHoldsHost : Obligations.BusyEngineHoldsHost := by
  intro s x rest hm hpl hi hx
  obtain ⟨p, b, hp⟩ := State.position_of_placed hm hpl
  have hst : step s = s.tick := by
    obtain ⟨w, rfl | rfl⟩ := hx <;> simp only [step, nextStep, hi, hm]
  have htick := State.tick_of_position hp
  obtain ⟨hcmd, hin, l, htr, hl⟩ := p.stepAt_frame b s
  exact ⟨_, hst.trans htick, hcmd, hin, hst, by simpa [htr] using hl⟩

/-- A scan of a nonzero value moves SEQ on; a scan of zero leaves it, faults and ends the command (R202, R251, log 7). -/
theorem Prog.stepAt_scan (which : Scan) (v : Word) (k : BitPos → Prog) (b : Bool) (s : State) :
    (v ≠ 0#32 → ((Prog.scan which v k).stepAt b s).seq = s.seq + 1) ∧
    (v = 0#32 → (Prog.scan which v k).stepAt b s = s.raise which) := by
  refine ⟨fun hv => ?_, fun hv => ?_⟩
  · obtain ⟨q, hq⟩ := bitScan_of_ne (w := which) hv
    simp only [Prog.stepAt, hq, Prog.settle_seq, State.advance_seq]
  · simp only [Prog.stepAt, bitScan_eq_none.2 hv]

/-- A transaction of the engine moves SEQ on, or is a data access refused for want of CA[31] (R112, R113, log 11). -/
theorem Prog.stepAt_access {p : Prog} (hret : ∀ r, p ≠ .ret r) (hset : ∀ a k, p ≠ .set a k)
    (hscan : ∀ which v k, p ≠ .scan which v k) (b : Bool) (s : State) :
    (b = false ∨ s.dataEnabled = true → (p.stepAt b s).seq = s.seq + 1) ∧
    (b = true → s.dataEnabled = false → ∃ d v, p.stepAt b s = s.refuseEngine d v) := by
  match p, b with
  | .rd _ _ _ _ _, false | .wr _ _ _ _ _ _, false => exact ⟨fun _ => rfl, fun h => by cases h⟩
  | .rd _ _ _ _ _, true | .wr _ _ _ _ _ _, true =>
    refine ⟨fun h => ?_, fun _ h => ⟨_, _, by simp only [Prog.stepAt, h]; rfl⟩⟩
    have h : s.dataEnabled = true := by simpa using h
    simp [Prog.stepAt, h]
  | .ret r, _ => exact absurd rfl (hret r)
  | .set a k, _ => exact absurd rfl (hset a k)
  | .scan which v k, _ => exact absurd rfl (hscan which v k)

/-- Settles O52: the step is the one the position names, a scan or an access, and each has its rule above. -/
theorem engineStepAdvancesSequencer : Obligations.EngineStepAdvancesSequencer := by
  intro s t p b hm hu hp h
  obtain ⟨rest, hst⟩ := step_of_position hm hu hp
  rw [hst] at h; cases h
  obtain ⟨-, -, htr⟩ := p.stepAt_frame b { s with inputs := rest }
  by_cases hscan : ∃ which v k, p = .scan which v k
  · obtain ⟨which, v, k, rfl⟩ := hscan
    obtain ⟨hne, hz⟩ := Prog.stepAt_scan which v k b { s with inputs := rest }
    refine ⟨fun hb => ?_, htr, fun which' v' k' e => ?_, fun hno => absurd rfl (hno which v k)⟩
    · by_cases hv : v = 0#32
      · rw [hz hv] at hb; cases hb
      · exact hne hv
    · cases e
      exact ⟨hne, fun hv => by rw [hz hv]; exact ⟨rfl, rfl, rfl⟩⟩
  · push Not at hscan
    obtain ⟨hret, hset⟩ := State.position_access hp
    obtain ⟨hon, hoff⟩ := Prog.stepAt_access hret hset hscan b { s with inputs := rest }
    refine ⟨fun hb => hon ?_, htr, fun which v k e => absurd e (hscan which v k), fun _ => ⟨hon, fun h0 h1 => ?_⟩⟩
    · by_contra hno
      simp only [not_or, Bool.not_eq_false, Bool.not_eq_true] at hno
      obtain ⟨d, v, e⟩ := hoff hno.1 hno.2
      rw [e] at hb; cases hb
    · obtain ⟨d, v, e⟩ := hoff h0 h1
      rw [e]; exact ⟨rfl, rfl, d, portDatum d v, rfl⟩

end Sys2Proof.Machine

/-! # Step by step and whole: the sequencer carries out what `run` says (R24, R61, R291) -/

namespace Sys2Proof.Machine

/-! ## How many steps a command takes -/

/-- The program takes at most this many steps of SEQ, and what it returns does not depend on the model's locals (log 12). -/
def Prog.Within : Prog → Nat → Prop
  | .ret r, _ => ∀ (s : State) (g : List Word), r { s with got := g } = r s
  | .set _ k, n => k.Within n
  | .rd _ _ _ _ k, n => 2 ≤ n ∧ ∀ v, (k v).Within (n - 2)
  | .wr _ _ _ _ _ k, n => 2 ≤ n ∧ k.Within (n - 2)
  | .scan _ _ k, n => 1 ≤ n ∧ ∀ q, (k q).Within (n - 1)

theorem Prog.Within.mono {p : Prog} {n m : Nat} (h : p.Within n) (hnm : n ≤ m) : p.Within m := by
  induction p generalizing n m with
  | ret r => exact h
  | set a k ih => exact ih h hnm
  | rd b d f o k ih => exact ⟨h.1.trans hnm, fun v => ih v (h.2 v) (Nat.sub_le_sub_right hnm 2)⟩
  | wr b d f o src k ih => exact ⟨h.1.trans hnm, ih h.2 (Nat.sub_le_sub_right hnm 2)⟩
  | scan w v k ih => exact ⟨h.1.trans hnm, fun q => ih q (h.2 q) (Nat.sub_le_sub_right hnm 1)⟩

section
variable {n : Nat} {bus : Bus} {dev : Dev} {fn : Fn} {off : Off}

theorem Prog.within_set {a : Assign} {k : Prog} (h : k.Within n) : (Prog.set a k).Within n := h

theorem Prog.within_rd {k : Word → Prog} (h : ∀ v, (k v).Within n) : (Prog.rd bus dev fn off k).Within (n + 2) :=
  ⟨Nat.le_add_left 2 n, h⟩

theorem Prog.within_wr {src : Source} {k : Prog} (h : k.Within n) : (Prog.wr bus dev fn off src k).Within (n + 2) :=
  ⟨Nat.le_add_left 2 n, h⟩

theorem Prog.within_scan {w : Scan} {v : Word} {k : BitPos → Prog} (h : ∀ q, (k q).Within n) :
    (Prog.scan w v k).Within (n + 1) :=
  ⟨Nat.le_add_left 1 n, h⟩

theorem hasmfThen_within {k : Bool → Prog} (h : ∀ b, (k b).Within n) : (hasmfThen bus dev k).Within (n + 2) :=
  Prog.within_rd fun _ => h _

theorem probeThen_within {k : IdRecord → Prog} (h : ∀ r, (k r).Within n) : (probeThen bus dev fn k).Within (n + 14) :=
  Prog.within_rd fun _ => Prog.within_rd fun _ => Prog.within_rd fun _ => Prog.within_rd fun _ =>
    Prog.within_rd fun _ => Prog.within_rd fun _ => Prog.within_rd fun _ => h _

/-- A counted scan is one step; an uncounted one of a nonzero value is none. -/
theorem scanThen_within {counted : Bool} {w : Scan} {v : Word} (hv : v ≠ 0#32) {k : BitPos → Prog}
    (h : ∀ q, (k q).Within n) : (scanThen counted w v k).Within (n + counted.toNat) := by
  cases counted with
  | true => exact Prog.within_scan h
  | false =>
    obtain ⟨q, hq⟩ := bitScan_of_ne (w := w) hv
    simp only [scanThen, Bool.false_eq_true, if_false, hq]
    exact h q

theorem sizingThen_within {counted : Bool} {raw : Word} {pf : Bool} {k : DecodeResult → Prog}
    (h : ∀ r, (k r).Within n) :
    (sizingThen counted bus dev fn off raw pf k).Within (n + counted.toNat + counted.toNat + 6) := by
  refine Prog.within_set <| Prog.within_wr <| Prog.within_set <| Prog.within_rd fun readBack => Prog.within_set <|
    Prog.within_wr <| Prog.within_set ?_
  split
  · exact (h _).mono (by omega)
  · next hrb =>
    exact scanThen_within hrb fun lo => Prog.within_set <| scanThen_within hrb fun hi => Prog.within_set (h _)

theorem decbarThen_within {counted : Bool} {idx : BarIdx} {k : DecodeResult → Prog} (h : ∀ r, (k r).Within n) :
    (decbarThen counted bus dev fn idx k).Within (n + counted.toNat + counted.toNat + 10) := by
  refine Prog.within_rd fun t => Prog.within_set <| Prog.within_set ?_
  split
  · exact (h _).mono (by omega)
  refine Prog.within_rd fun raw => Prog.within_set ?_
  split
  · exact (h _).mono (by omega)
  split
  · exact (h _).mono (by omega)
  · exact sizingThen_within h

theorem slotThen_within {i : Fin 6} {k : DecodeResult → Prog} (h : ∀ r, (k r).Within n) :
    (slotThen bus dev fn i k).Within (n + 10) :=
  Prog.within_set (decbarThen_within (counted := false) h)

theorem barsThen_within {k : Bars → Prog} (h : ∀ r, (k r).Within n) : (barsThen bus dev fn k).Within (n + 60) :=
  slotThen_within fun _ => slotThen_within fun _ => slotThen_within fun _ => slotThen_within fun _ =>
    slotThen_within fun _ => slotThen_within fun _ => h _

theorem sweepFn_within {rest : Prog} (h : rest.Within n) : (sweepFn bus dev fn rest).Within (n + 74) := by
  refine Prog.within_set <| probeThen_within (n := n + 60) fun id => ?_
  split
  · exact barsThen_within fun _ => Prog.within_set h
  · exact h.mono (Nat.le_add_right n 60)

end

/-- A loop takes at most as many steps as its rounds together. -/
theorem forEach_within {α : Type} {body : α → Prog → Prog} {c : Nat}
    (hb : ∀ x rest n, rest.Within n → (body x rest).Within (n + c)) {xs : List α} {k : Prog} {n m : Nat}
    (hk : k.Within n) (hm : n + xs.length * c ≤ m) : (forEach xs body k).Within m := by
  induction xs generalizing m with
  | nil => exact hk.mono (by simpa using hm)
  | cons x xs ih =>
    refine (hb x _ _ (ih (Nat.le_refl _))).mono ?_
    rw [List.length_cons, Nat.add_mul] at hm
    omega

theorem sweepDev_within {bus : Bus} {dev : Dev} {rest : Prog} {n : Nat} (h : rest.Within n) :
    (sweepDev bus dev rest).Within (n + 594) := by
  refine Prog.within_set <| hasmfThen_within (n := n + 592) fun mf => Prog.within_set ?_
  refine forEach_within (fun f rest n => sweepFn_within) h ?_
  cases mf <;> simp [fnCount, FnCount.fns]

theorem sweepBus_within {bus : Bus} {rest : Prog} {n : Nat} (h : rest.Within n) :
    (sweepBus bus rest).Within (n + 19008) :=
  Prog.within_set <| forEach_within (fun d rest n => sweepDev_within) h (by simp [allDevs])

theorem progEnum_within : progEnum.Within 4866048 :=
  Prog.within_set <| forEach_within (fun b rest n => sweepBus_within) (n := 0)
    (Prog.within_set fun _ _ => rfl) (by simp [allBuses])

/-- Every command stays within R291's number of steps. -/
theorem program_within {i : Instr} {p : Prog} (h : program i = some p) : p.Within (stepBound i) := by
  cases i with
  | cfgrd => cases h; exact Prog.within_rd (n := 0) fun _ _ _ => rfl
  | cfgwr => cases h; exact Prog.within_wr (n := 0) fun _ _ => rfl
  | hasmf => cases h; exact hasmfThen_within (n := 0) fun _ _ _ => rfl
  | probe => cases h; exact probeThen_within (n := 0) fun _ _ _ => rfl
  | decbar => cases h; exact decbarThen_within (n := 0) (counted := true) fun _ _ _ => rfl
  | lsb v => cases h; exact Prog.Within.mono (n := 1) (Prog.within_scan fun _ _ _ => rfl) (by simp [stepBound])
  | msb v => cases h; exact Prog.Within.mono (n := 1) (Prog.within_scan fun _ _ _ => rfl) (by simp [stepBound])
  | enum => cases h; exact progEnum_within
  | outlAddr | inlData | outlData => cases h

/-! ## The locals do not matter to a command carried out whole -/

theorem Prog.run_with_got {p : Prog} {n : Nat} (h : p.Within n) (s : State) (g : List Word) :
    p.run { s with got := g } = p.run s := by
  induction p generalizing n s with
  | ret r => simp only [Prog.run, h s g]; rfl
  | set a k ih =>
    have : State.assign { s with got := g } a = { s.assign a with got := g } := by cases a <;> rfl
    rw [run_set, run_set, this, ih h]
  | rd b d f o k ih => exact ih _ (h.2 _) (s.readReg b d f o)
  | wr b d f o src k ih =>
    have : src.get { s with got := g } = src.get s := by cases src <;> rfl
    simp only [Prog.run, this]
    exact ih h.2 (s.writeReg b d f o (src.get s))
  | scan w v k ih =>
    simp only [Prog.run]
    cases bitScan w v with
    | none => rfl
    | some q => exact ih q (h.2 q) s.advance

/-! ## Runs of the machine -/

theorem core_run_zero (s : State) : Host.Core.run Sys2Proof.core 0 s = .next s := rfl

theorem core_run_succ {s t : State} (h : step s = .next t) (n : Nat) :
    Host.Core.run Sys2Proof.core (n + 1) s = Host.Core.run Sys2Proof.core n t := by
  have h : Sys2Proof.core.step s = .next t := h
  simp only [Host.Core.run, h]

/-- A BUSY engine with nothing to come. -/
structure State.Alone (s : State) : Prop where
  busy : s.mode = .busy
  inputs : s.inputs = []

theorem State.Alone.congr {s t : State} (h : s.Alone) (hm : t.mode = s.mode) (hi : t.inputs = s.inputs) : t.Alone :=
  ⟨hm.trans h.busy, hi.trans h.inputs⟩

/-- Such an engine takes the step its position names. -/
theorem State.Alone.step {s : State} (h : s.Alone) {p : Prog} {b : Bool} (hp : s.position = some (p, b)) :
    step s = .next (p.stepAt b s) := by
  have : Machine.step s = s.tick := by simp only [Machine.step, nextStep, h.inputs, h.busy]
  rw [this, State.tick_of_position hp]

section
variable {s : State} {bus : Bus} {dev : Dev} {fn : Fn} {off : Off}

/-- Its OUTL_ADDR leads to its data transaction, which the port target admits (R80, R114). -/
theorem State.Alone.step_sendAddr (h : s.Alone) {q : Prog} (hp : s.position = some (q, false))
    (hscan : ∀ which v k, q ≠ .scan which v k) (hst : q.stepAt false s = (s.buildAddr bus dev fn off).sendAddr) :
    Machine.step s = .next (s.buildAddr bus dev fn off).sendAddr ∧ (s.buildAddr bus dev fn off).sendAddr.Alone ∧
      (s.buildAddr bus dev fn off).sendAddr.position = some (q, true) ∧
      (s.buildAddr bus dev fn off).sendAddr.dataEnabled = true :=
  ⟨by rw [h.step hp, hst], h.congr rfl rfl, State.position_sendAddr hp hscan bus dev fn off,
    by simp [State.dataEnabled]⟩

/-- A register read takes two steps, after which the engine stands before what follows it. -/
theorem State.Alone.run_rd (h : s.Alone) {k : Word → Prog} (hp : s.position = some (.rd bus dev fn off k, false))
    (n : Nat) : Host.Core.run Sys2Proof.core (n + 2) s = Host.Core.run Sys2Proof.core n
      ((k (s.cfg.read bus dev fn (dwordOf off) >>> subwordShift off)).settle
        ((s.readReg bus dev fn off).pushGot (s.cfg.read bus dev fn (dwordOf off)))) := by
  obtain ⟨h1, ha, hp1, he⟩ := h.step_sendAddr hp (fun _ _ _ e => by cases e) rfl
  have hsel : (s.buildAddr bus dev fn off).sendAddr.selected = s.cfg.read bus dev fn (dwordOf off) := by
    simp [State.selected]
  have h2 := ha.step hp1
  simp only [Prog.stepAt, he, if_true, hsel] at h2
  rw [core_run_succ h1, core_run_succ h2, ← State.readValue_readReg]
  rfl

theorem State.position_readReg {k : Word → Prog} (hp : s.position = some (.rd bus dev fn off k, false)) (v : Word) :
    ((s.readReg bus dev fn off).pushGot v).position = (k (v >>> subwordShift off)).resume 0 [] :=
  State.position_takeData (State.position_sendAddr hp (fun _ _ _ e => by cases e) bus dev fn off) v

/-- A register write takes two steps, after which the engine stands before what follows it. -/
theorem State.Alone.run_wr (h : s.Alone) {src : Source} {k : Prog}
    (hp : s.position = some (.wr bus dev fn off src k, false)) (n : Nat) :
    Host.Core.run Sys2Proof.core (n + 2) s =
      Host.Core.run Sys2Proof.core n (k.settle (s.writeReg bus dev fn off (src.get s))) := by
  obtain ⟨h1, ha, hp1, he⟩ := h.step_sendAddr hp (fun _ _ _ e => by cases e) rfl
  have hsrc : src.get (s.buildAddr bus dev fn off).sendAddr = src.get s := by cases src <;> rfl
  have h2 := ha.step hp1
  simp only [Prog.stepAt, he, if_true, hsrc] at h2
  rw [core_run_succ h1, core_run_succ h2]
  rfl

theorem State.position_writeReg {src : Source} {k : Prog}
    (hp : s.position = some (.wr bus dev fn off src k, false)) (v : Word) :
    (s.writeReg bus dev fn off v).position = k.resume 0 [] :=
  State.position_giveData (State.position_sendAddr hp (fun _ _ _ e => by cases e) bus dev fn off) v

end

/-- From before `p`, step by step and undisturbed, the engine ends where `run` ends, within the steps of `p`. -/
theorem Prog.run_refined {p : Prog} {n : Nat} (hn : p.Within n) {s : State} (h : s.Alone)
    (hp : s.position = p.resume 0 []) :
    ∃ m ≤ n, Host.Core.run Sys2Proof.core m (p.settle s) = .next (p.run s) := by
  induction p generalizing n s with
  | ret r => exact ⟨0, Nat.zero_le n, rfl⟩
  | set a k ih =>
    refine ih hn (h.congr (s.assign_mode a) (s.assign_inputs a)) ?_
    rw [State.position_congr (s.assign_cmd a) (s.assign_seq a) (s.assign_got a)]
    exact hp
  | rd b d f o k ih =>
    obtain ⟨m, hm, e⟩ := ih _ (hn.2 _)
      (s := (s.readReg b d f o).pushGot (s.cfg.read b d f (dwordOf o))) (h.congr rfl rfl) (State.position_readReg hp _)
    refine ⟨m + 2, by have := hn.1; omega, ?_⟩
    rw [Prog.settle, h.run_rd hp, e, Prog.run, State.readValue_readReg]
    exact congrArg _ (Prog.run_with_got (hn.2 _) (s.readReg b d f o) _)
  | wr b d f o src k ih =>
    obtain ⟨m, hm, e⟩ := ih hn.2 (s := s.writeReg b d f o (src.get s)) (h.congr rfl rfl)
      (State.position_writeReg hp _)
    exact ⟨m + 2, by have := hn.1; omega, by rw [Prog.settle, h.run_wr hp, e, Prog.run]⟩
  | scan w v k ih =>
    have hst := h.step hp
    cases hq : bitScan w v with
    | none =>
      refine ⟨1, hn.1, ?_⟩
      simp only [Prog.stepAt, hq] at hst
      simp only [Prog.settle, core_run_succ hst, core_run_zero, Prog.run, hq]
    | some q =>
      obtain ⟨m, hm, e⟩ := ih q (hn.2 q) (s := s.advance) (h.congr rfl rfl) (State.position_advance hp hq)
      refine ⟨m + 1, by have := hn.1; omega, ?_⟩
      simp only [Prog.stepAt, hq] at hst
      simp only [Prog.settle, core_run_succ hst, e, Prog.run, hq]

/-- An idle engine takes in the host's write and stands before the command's first step. -/
theorem step_issue {s : State} {w : CommandWord} {i : Instr} {p : Prog} (hm : s.mode = .idle)
    (hi : s.inputs = [.issue w]) (hd : decodeCommand w = .ok i) (hp : program i = some p) :
    step s = .next (p.settle (State.writeCmd { s with inputs := [] } w)) := by
  simp only [step, nextStep, hi, hm, State.issue_of_program _ hd hp]

/-- Settles O53, by induction on the command's pseudocode: after each access or scan the engine stands before what follows. -/
theorem sequencerRefinesExec : Obligations.SequencerRefinesExec := by
  intro s t w i hm hi hd ht
  obtain ⟨p, hp, hrun⟩ := decodeCommand_program hd
  rw [hrun] at ht; cases ht
  obtain ⟨m, hle, e⟩ := Prog.run_refined (program_within hp) (s := State.writeCmd { s with inputs := [] } w) ⟨rfl, rfl⟩
    (State.position_writeCmd _ hd hp)
  exact ⟨m + 1, Nat.succ_le_succ hle, (core_run_succ (step_issue hm hi hd hp) m).trans e⟩

end Sys2Proof.Machine

/-! # DECBAR step by step: the sizing window (R36, R166, R167) -/

namespace Sys2Proof.Machine

/-! ## DECBAR's pseudocode cut at its accesses -/

section
variable (counted : Bool) (bus : Bus) (dev : Dev) (fn : Fn) (idx : BarIdx) (k : DecodeResult → Prog) (pf : Bool)

/-- What follows the restoring write: the window closes and the read-back is classified (R168, R169). -/
def restoredThen (rb : Word) : Prog :=
  .set (.probeOpen false) <|
  if rb = 0#32 then k (classifyZero pf)
  else
    scanThen counted .lsb rb fun lo =>
    .set (.lo lo) <|
    scanThen counted .msb rb fun hi =>
    .set (.hi hi) <|
    k (classifyNonzero pf lo hi)

/-- What follows the read-back: the restoring write (R166). -/
def readBackThen (back : Word) : Prog :=
  .set (.rb (back &&& sizingPattern)) <|
  .wr bus dev fn (barOffset idx) .save <| restoredThen counted k pf (back &&& sizingPattern)

/-- What follows the sizing write: the window opens and the BAR is read back (R166). -/
def patternThen : Prog :=
  .set (.probeOpen true) <| .rd bus dev fn (barOffset idx) (readBackThen counted bus dev fn idx k pf)

/-- What follows the raw read (R163 to R166). -/
def rawThen (raw : Word) : Prog :=
  .set (.raw raw) <|
  if barIsIo raw then k (.io (ioBase raw))
  else
    match unsizedWidth (barType raw) with
    | some width => k (.memUnsized width (barPrefetchable raw))
    | none => sizingThen counted bus dev fn (barOffset idx) raw (barPrefetchable raw) k

/-- What follows the header read (R161, R162). -/
def headerThen (t : Word) : Prog :=
  .set (.ht (headerType t)) <|
  .set (.maxbar (maxBar (headerType t))) <|
  if maxBar (headerType t) ≤ idx then k .absent
  else .rd bus dev fn (barOffset idx) (rawThen counted bus dev fn idx k)

theorem sizingThen_eq (raw : Word) : sizingThen counted bus dev fn (barOffset idx) raw pf k =
    .set (.save raw) (.wr bus dev fn (barOffset idx) (.value sizingPattern) (patternThen counted bus dev fn idx k pf)) :=
  rfl

theorem decbarThen_eq : decbarThen counted bus dev fn idx k =
    .rd bus dev fn offHeaderType (headerThen counted bus dev fn idx k) := rfl

variable {idx} in
/-- An index below the BAR count leads to the raw read (R161, R162). -/
theorem headerThen_of_lt {hdr : Word} (h : idx.toNat < if hdr.extractLsb' 16 7 = 0 then 6 else 2) :
    headerThen counted bus dev fn idx k (hdr >>> subwordShift offHeaderType) =
      .set (.ht (hdr.extractLsb' 16 7)) (.set (.maxbar (maxBar (hdr.extractLsb' 16 7)))
        (.rd bus dev fn (barOffset idx) (rawThen counted bus dev fn idx k))) := by
  have hshift : subwordShift offHeaderType = 16 := rfl
  have hmax : ¬ maxBar (hdr.extractLsb' 16 7) ≤ idx := by rw [maxBar_le_iff]; omega
  simp only [headerThen, hshift, headerType_shifted, hmax, if_false]

/-- A memory BAR of type 0 leads to the sizing write (R165, R166). -/
theorem rawThen_of_sized {raw : Word} (hio : raw.getLsbD 0 = false) (hty : raw.extractLsb' 1 2 = 0) :
    rawThen counted bus dev fn idx k (raw >>> subwordShift (barOffset idx)) =
      .set (.raw raw) (.set (.save raw) (.wr bus dev fn (barOffset idx) (.value sizingPattern)
        (patternThen counted bus dev fn idx k (barPrefetchable raw)))) := by
  have hnone : unsizedWidth 0 = none := rfl
  simp only [rawThen, subwordShift_barOffset, BitVec.ushiftRight_zero, barIsIo, hio, Bool.false_eq_true, if_false,
    barType, hty, hnone, sizingThen_eq]

end

/-! ## The data transactions of an access whose address is in CA -/

section
variable {s : State} {bus : Bus} {dev : Dev} {fn : Fn} {off : Off}

theorem State.dataEnabled_of_ca (h : s.ca = addrWord bus dev fn off) : s.dataEnabled = true := by
  simp [State.dataEnabled, h]

theorem State.selected_of_ca (h : s.ca = addrWord bus dev fn off) :
    s.selected = s.cfg.read bus dev fn (dwordOf off) := by
  simp [State.selected, h]

theorem Prog.stepAt_rd_of_ca (h : s.ca = addrWord bus dev fn off) (k : Word → Prog) :
    (Prog.rd bus dev fn off k).stepAt true s = (k (s.cfg.read bus dev fn (dwordOf off) >>> subwordShift off)).settle
      (s.takeData.pushGot (s.cfg.read bus dev fn (dwordOf off))) := by
  simp only [Prog.stepAt, State.dataEnabled_of_ca h, if_true, State.readValue, State.takeData_regs,
    State.selected_of_ca h]

theorem Prog.stepAt_wr_of_ca (h : s.ca = addrWord bus dev fn off) (src : Source) (k : Prog) :
    (Prog.wr bus dev fn off src k).stepAt true s = k.settle (s.giveData (src.get s)) := by
  simp only [Prog.stepAt, State.dataEnabled_of_ca h, if_true]

theorem State.takeData_cfg_of_ca (h : s.ca = addrWord bus dev fn off) (hr : repeatableDword (dwordOf off) = true) :
    s.takeData.cfg = s.cfg := by
  simp [h, Backend.afterRead_of_repeatable _ _ _ _ hr]

theorem State.giveData_cfg_of_ca (h : s.ca = addrWord bus dev fn off) (v : Word) :
    (s.giveData v).cfg = s.cfg.write bus dev fn (dwordOf off) v := by
  simp [h]

end

/-! ## The engine's transactions, undisturbed -/

section
variable {s : State} {bus : Bus} {dev : Dev} {fn : Fn} {off : Off}

theorem step_rd_addr {k : Word → Prog} (hm : s.mode = .busy) (hu : s.undisturbed = true)
    (hp : s.position = some (.rd bus dev fn off k, false)) :
    ∃ rest, step s = .next (State.buildAddr { s with inputs := rest } bus dev fn off).sendAddr :=
  step_of_position hm hu hp

theorem step_wr_addr {src : Source} {k : Prog} (hm : s.mode = .busy) (hu : s.undisturbed = true)
    (hp : s.position = some (.wr bus dev fn off src k, false)) :
    ∃ rest, step s = .next (State.buildAddr { s with inputs := rest } bus dev fn off).sendAddr :=
  step_of_position hm hu hp

theorem step_rd_data {k : Word → Prog} (hm : s.mode = .busy) (hu : s.undisturbed = true)
    (hp : s.position = some (.rd bus dev fn off k, true)) (hca : s.ca = addrWord bus dev fn off) :
    ∃ rest, step s = .next ((k (s.cfg.read bus dev fn (dwordOf off) >>> subwordShift off)).settle
      ((State.takeData { s with inputs := rest }).pushGot (s.cfg.read bus dev fn (dwordOf off)))) := by
  obtain ⟨rest, h⟩ := step_of_position hm hu hp
  exact ⟨rest, h.trans (congrArg _ (Prog.stepAt_rd_of_ca (s := { s with inputs := rest }) hca k))⟩

theorem step_wr_data {src : Source} {k : Prog} (hm : s.mode = .busy) (hu : s.undisturbed = true)
    (hp : s.position = some (.wr bus dev fn off src k, true)) (hca : s.ca = addrWord bus dev fn off) :
    ∃ rest, step s = .next (k.settle (State.giveData { s with inputs := rest } (src.get s))) := by
  obtain ⟨rest, h⟩ := step_of_position hm hu hp
  have hsrc : src.get { s with inputs := rest } = src.get s := by cases src <;> rfl
  exact ⟨rest, by rw [h, Prog.stepAt_wr_of_ca (s := { s with inputs := rest }) hca, hsrc]⟩

end

/-! ## Each step of the window -/

/-- DECBAR's result as a command. -/
def decodeResult (r : DecodeResult) : Prog := .ret fun _ => .decode r

/-- After the restoring write the window is closed, whether the command goes on to its scans or ends (R36, R167). -/
theorem restoredThen_settle_probeOpen (pf : Bool) (rb : Word) (s : State) :
    ((restoredThen true decodeResult pf rb).settle s).probeOpen = false := by
  simp only [restoredThen, Prog.settle]
  split <;> rfl

/-- Past its two reads, a DECBAR of a type-0 memory BAR stands inside its sizing probe. -/
theorem progDecbar_resume_sizing {bus : Bus} {dev : Dev} {fn : Fn} {idx : BarIdx} {hdr raw : Word}
    (h : idx.toNat < if hdr.extractLsb' 16 7 = 0 then 6 else 2) (hio : raw.getLsbD 0 = false)
    (hty : raw.extractLsb' 1 2 = 0) (n : Nat) (got : List Word) :
    (progDecbar bus dev fn idx).resume (n + 4) (hdr :: raw :: got) =
      (Prog.wr bus dev fn (barOffset idx) (.value sizingPattern)
        (patternThen true bus dev fn idx decodeResult (barPrefetchable raw))).resume n got := by
  have hh := headerThen_of_lt true bus dev fn decodeResult h
  have hr := rawThen_of_sized true bus dev fn idx decodeResult hio hty
  calc (progDecbar bus dev fn idx).resume (n + 4) (hdr :: raw :: got)
    _ = (headerThen true bus dev fn idx decodeResult (hdr >>> subwordShift offHeaderType)).resume (n + 2)
          (raw :: got) := by rw [progDecbar, decbarThen_eq]; rfl
    _ = (rawThen true bus dev fn idx decodeResult (raw >>> subwordShift (barOffset idx))).resume n got := by
        rw [hh]; rfl
    _ = _ := by rw [hr]; rfl

/-- Settles O56: at each of the six steps the position is the access of that number, and the step is its rule. -/
theorem sizingWriteOpensWindow : Obligations.SizingWriteOpensWindow := by
  intro s b d f idx hdr raw a hm hu hd hidx hio hty ha
  have ha : a = addrWord b d f (barOffset idx) := ha
  have hrep : repeatableDword (dwordOf (barOffset idx)) = true := by
    rw [dwordOf_barOffset]; exact repeatable_of_lt_maxBar (Nat.not_le.2 hidx)
  have hpos : ∀ n got, s.got = hdr :: raw :: got → s.seq = n + 4 → s.position =
      (Prog.wr b d f (barOffset idx) (.value sizingPattern)
        (patternThen true b d f idx decodeResult (barPrefetchable raw))).resume n got := fun n got hg hs => by
    rw [State.position_eq hd rfl, hg, hs, progDecbar_resume_sizing hidx hio hty]
  subst ha
  refine ⟨fun hg hs hca => ?_, fun hg hs => ?_, fun hg hs hca => ?_, fun back hg hs => ?_, fun back hg hs hca => ?_⟩
  · obtain ⟨rest, hst⟩ := step_wr_data hm hu (hpos 1 [] hg hs) hca
    refine ⟨_, hst, rfl, ?_, rfl, congrArg (· + 1) hs, hm⟩
    rw [Prog.settle_cfg, State.giveData_cfg_of_ca (s := { s with inputs := rest }) hca, dwordOf_barOffset]
    rfl
  · obtain hs | hs := hs
    · obtain ⟨rest, hst⟩ := step_wr_addr hm hu (hpos 0 [] hg hs)
      exact ⟨_, hst, rfl, rfl, rfl, rfl, rfl, hm⟩
    · obtain ⟨rest, hst⟩ := step_rd_addr hm hu (hpos 2 [] hg hs)
      exact ⟨_, hst, rfl, rfl, rfl, rfl, rfl, hm⟩
  · obtain ⟨rest, hst⟩ := step_rd_data hm hu (hpos 3 [] hg hs) hca
    rw [subwordShift_barOffset, BitVec.ushiftRight_zero] at hst
    refine ⟨_, _, by rw [← dwordOf_barOffset], hst, rfl, ?_, ?_, rfl, congrArg (· ++ _) hg, congrArg (· + 1) hs, hm⟩
    · rw [Prog.settle_cfg]
      exact State.takeData_cfg_of_ca (s := { s with inputs := rest }) hca hrep
    · rw [Prog.settle_tr, ← State.selected_of_ca hca]
      rfl
  · obtain ⟨rest, hst⟩ := step_wr_addr hm hu (hpos 4 [back] hg hs)
    exact ⟨_, hst, rfl, rfl, rfl, rfl, congrArg (· + 1) hs, hm⟩
  · obtain ⟨rest, hst⟩ := step_wr_data hm hu (hpos 5 [back] hg hs) hca
    refine ⟨_, hst, restoredThen_settle_probeOpen _ _ _, ?_, ?_, ?_⟩
    · rw [Prog.settle_cfg, State.giveData_cfg_of_ca (s := { s with inputs := rest }) hca, dwordOf_barOffset]
      rfl
    · rw [Prog.settle_tr]; rfl
    · rw [Prog.settle_seq]; exact congrArg (· + 1) hs

/-! ## The window over a whole DECBAR -/

/-- `n` transactions after the host's write in `s` the machine is in `u`, alone and before the access `q`. -/
structure State.Stands (s : State) (n : Nat) (q : Prog) (c : Backend) (u : State) : Prop where
  run : ∀ j, Host.Core.run Sys2Proof.core (j + n + 1) s = Host.Core.run Sys2Proof.core j u
  alone : u.Alone
  position : u.position = some (q, false)
  seq : u.seq = n
  tr : u.tr.length = s.tr.length + n
  cfg : u.cfg = c

/-- Where the machine is `n` transactions after the host's write in `s`. -/
def State.Reaches (s : State) (n : Nat) (opened : Bool) (c : Backend) : Prop :=
  ∃ t, Host.Core.run Sys2Proof.core (n + 1) s = .next t ∧ t.seq = n ∧ t.tr.length = s.tr.length + n ∧
    t.probeOpen = opened ∧ t.cfg = c

/-- Settling before an access leaves the engine there. -/
theorem State.Alone.settle {s : State} (h : s.Alone) {p : Prog} {x : Prog × Bool} (hx : p.resume 0 [] = some x)
    (hp : s.position = p.resume 0 []) : (p.settle s).Alone ∧ (p.settle s).position = some x := by
  obtain ⟨hm, hg, -⟩ | ⟨-, -, hn⟩ := p.settle_stands_or_ends s
  · exact ⟨h.congr hm (p.settle_inputs s), by rw [State.position_congr (p.settle_cmd s) (p.settle_seq s) hg, hp, hx]⟩
  · rw [hn] at hx; cases hx

section
variable {s u : State} {n : Nat} {c : Backend} {bus : Bus} {dev : Dev} {fn : Fn} {off : Off}

/-- Before an access and after its OUTL_ADDR the window and the backend are the same. -/
theorem State.Stands.reaches {q : Prog} (h : s.Stands n q c u) {opened : Bool} (ho : u.probeOpen = opened)
    (hst : q.stepAt false u = (u.buildAddr bus dev fn off).sendAddr) :
    s.Reaches n opened c ∧ s.Reaches (n + 1) opened c := by
  have hstep := h.alone.step h.position
  rw [hst] at hstep
  refine ⟨⟨u, ?_, h.seq, h.tr, ho, h.cfg⟩, ⟨(u.buildAddr bus dev fn off).sendAddr, ?_, ?_, ?_, ho, h.cfg⟩⟩
  · rw [← core_run_zero, ← h.run 0, Nat.zero_add]
  · rw [Nat.add_comm n 1, h.run 1, core_run_succ hstep 0, core_run_zero]
  · exact congrArg (· + 1) h.seq
  · simp only [State.sendAddr_tr, State.buildAddr_tr, List.length_append, h.tr, List.length_singleton, Nat.add_assoc]

/-- A register read of a dword without side effects, then the assignments up to the next access. -/
theorem State.Stands.rd {k : Word → Prog} (h : s.Stands n (.rd bus dev fn off k) c u)
    (hrep : repeatableDword (dwordOf off) = true) {v : Word} (hv : v = c.read bus dev fn (dwordOf off)) {p q : Prog}
    (hk : k (v >>> subwordShift off) = p) (hq : p.resume 0 [] = some (q, false)) :
    s.Stands (n + 2) q c (p.settle ((u.readReg bus dev fn off).pushGot v)) := by
  obtain ⟨ha, hpos⟩ := (h.alone.congr rfl rfl : ((u.readReg bus dev fn off).pushGot v).Alone).settle hq
    (hk ▸ State.position_readReg h.position v)
  refine ⟨fun j => ?_, ha, hpos, ?_, ?_, ?_⟩
  · rw [show j + (n + 2) + 1 = j + 2 + n + 1 by omega, h.run, h.alone.run_rd h.position, h.cfg, ← hv, hk]
  · rw [Prog.settle_seq]; exact congrArg (· + 2) h.seq
  · rw [Prog.settle_tr, State.pushGot_tr, State.readReg_tr, List.length_append, h.tr]; rfl
  · rw [Prog.settle_cfg, State.pushGot_cfg, State.readReg_cfg, Backend.afterRead_of_repeatable _ _ _ _ hrep, h.cfg]

/-- What a register write leaves, whatever follows it. -/
theorem State.Stands.wr_leaves {src : Source} {k : Prog} (h : s.Stands n (.wr bus dev fn off src k) c u) {v : Word}
    (hv : src.get u = v) :
    (∀ j, Host.Core.run Sys2Proof.core (j + (n + 2) + 1) s =
      Host.Core.run Sys2Proof.core j (k.settle (u.writeReg bus dev fn off v))) ∧
    (k.settle (u.writeReg bus dev fn off v)).seq = n + 2 ∧
    (k.settle (u.writeReg bus dev fn off v)).tr.length = s.tr.length + (n + 2) ∧
    (k.settle (u.writeReg bus dev fn off v)).cfg = c.write bus dev fn (dwordOf off) v := by
  refine ⟨fun j => ?_, ?_, ?_, ?_⟩
  · rw [show j + (n + 2) + 1 = j + 2 + n + 1 by omega, h.run, h.alone.run_wr h.position, hv]
  · rw [Prog.settle_seq]; exact congrArg (· + 2) h.seq
  · rw [Prog.settle_tr, State.writeReg_tr, List.length_append, h.tr]; rfl
  · rw [Prog.settle_cfg, State.writeReg_cfg, h.cfg]

/-- A register write, then the assignments up to the next access. -/
theorem State.Stands.wr {src : Source} {k q : Prog} (h : s.Stands n (.wr bus dev fn off src k) c u) {v : Word}
    (hv : src.get u = v) (hq : k.resume 0 [] = some (q, false)) :
    s.Stands (n + 2) q (c.write bus dev fn (dwordOf off) v) (k.settle (u.writeReg bus dev fn off v)) := by
  obtain ⟨ha, hpos⟩ := (h.alone.congr rfl rfl : (u.writeReg bus dev fn off v).Alone).settle hq
    (State.position_writeReg h.position v)
  obtain ⟨hrun, hseq, htr, hcfg⟩ := h.wr_leaves hv
  exact ⟨hrun, ha, hpos, hseq, htr, hcfg⟩

end

/-- An idle engine given a DECBAR to carry out step by step stands before its header read. -/
theorem State.stands_decbar {s : State} {w : CommandWord} {bus : Bus} {dev : Dev} {fn : Fn} {idx : BarIdx}
    (hm : s.mode = .idle) (hi : s.inputs = [.issue w]) (hd : decodeCommand w = .ok (.decbar bus dev fn idx)) :
    s.Stands 0 (.rd bus dev fn offHeaderType (headerThen true bus dev fn idx decodeResult)) s.cfg
      (State.writeCmd { s with inputs := [] } w) :=
  ⟨core_run_succ (step_issue hm hi hd rfl), ⟨rfl, rfl⟩, State.position_writeCmd _ hd rfl, rfl, rfl, rfl⟩

/-- Settles O57: DECBAR's five accesses one after the other; the window is read off the state before each. -/
theorem sizingWindowSpansProbe : Obligations.SizingWindowSpansProbe := by
  intro s w b d f idx raw c1 hm hi hd hclosed hidx hraw hio hty hc1 n hn
  have hrep : repeatableDword (dwordOf (barOffset idx)) = true := by
    rw [dwordOf_barOffset]; exact repeatable_of_lt_maxBar (Nat.not_le.2 hidx)
  rw [← dwordOf_barOffset] at hraw hc1 ⊢
  have before_header := State.stands_decbar hm hi hd
  have before_raw := before_header.rd rfl rfl (headerThen_of_lt true b d f decodeResult hidx) rfl
  have before_pattern := before_raw.rd hrep hraw (rawThen_of_sized true b d f idx decodeResult hio hty) rfl
  have before_back := before_pattern.wr (v := sizingPattern) rfl rfl
  have before_restore := before_back.rd hrep rfl rfl rfl
  obtain ⟨hrun, hseq, htr, hcfg⟩ := before_restore.wr_leaves (v := raw) rfl
  have r0 := before_header.reaches hclosed rfl
  have r2 := before_raw.reaches hclosed rfl
  have r4 := before_pattern.reaches hclosed rfl
  have r6 := before_back.reaches (opened := true) rfl rfl
  have r8 := before_restore.reaches (opened := true) rfl rfl
  have r10 : s.Reaches 10 false _ := ⟨_, hrun 0, hseq, htr, restoredThen_settle_probeOpen _ _ _, hcfg⟩
  subst hc1
  suffices h : ∃ opened c, s.Reaches n opened c ∧ (opened = true ↔ 6 ≤ n ∧ n ≤ 9) ∧ c = _ by
    obtain ⟨_, _, ⟨t, hr, hs, hl, rfl, rfl⟩, ho, hc⟩ := h
    exact ⟨t, hr, hs, hl, ho, hc⟩
  match n, hn with
  | 0, _ => exact ⟨_, _, r0.1, by decide, rfl⟩
  | 1, _ => exact ⟨_, _, r0.2, by decide, rfl⟩
  | 2, _ => exact ⟨_, _, r2.1, by decide, rfl⟩
  | 3, _ => exact ⟨_, _, r2.2, by decide, rfl⟩
  | 4, _ => exact ⟨_, _, r4.1, by decide, rfl⟩
  | 5, _ => exact ⟨_, _, r4.2, by decide, rfl⟩
  | 6, _ => exact ⟨_, _, r6.1, by decide, rfl⟩
  | 7, _ => exact ⟨_, _, r6.2, by decide, rfl⟩
  | 8, _ => exact ⟨_, _, r8.1, by decide, rfl⟩
  | 9, _ => exact ⟨_, _, r8.2, by decide, rfl⟩
  | 10, _ => exact ⟨_, _, r10, by decide, rfl⟩

end Sys2Proof.Machine

/-! # Single commands: the write rule, result tags, frames, and what does not matter -/

namespace Sys2Proof.Machine

/-! ## The reference backend's write rule (R31) -/

section
variable {present : List FnAddr} {values masks : Memory} {b : Bus} {d : Dev} {f : Fn}

theorem Backend.read_write_same (h : values.wf = true) (hp : ⟨b, d, f⟩ ∈ present) (k : DwordNo) (v : Word) :
    ((Backend.reference present values masks).write b d f k v).read b d f k =
      mergeMasked ((Backend.reference present values masks).read b d f k) (masks.readDword (cfgAddr b d f k)) v := by
  simp only [Backend.write, Backend.read, hp, if_true, Memory.readDword_writeDword_same _ h (cfgAddr_lt b d f k)]

theorem Backend.read_write_ne (h : values.wf = true) {b' : Bus} {d' : Dev} {f' : Fn} {k k' : DwordNo}
    (hne : (b', d', f', k') ≠ (b, d, f, k)) (v : Word) :
    ((Backend.reference present values masks).write b d f k v).read b' d' f' k' =
      (Backend.reference present values masks).read b' d' f' k' := by
  by_cases hp : (⟨b, d, f⟩ : FnAddr) ∈ present
  · simp only [Backend.write, Backend.read, hp, if_true,
      Memory.readDword_writeDword_ne _ h (cfgAddr_lt b d f k) (cfgAddr_apart hne.symm)]
  · simp only [Backend.write, hp, if_false]

theorem Backend.write_absent (hp : ⟨b, d, f⟩ ∉ present) (k : DwordNo) (v : Word) :
    (Backend.reference present values masks).write b d f k v = .reference present values masks := by
  simp only [Backend.write, hp, if_false]

end

theorem progCfgwr_run_cfg (b : Bus) (d : Dev) (f : Fn) (o : Off) (v : Word) (s : State) :
    ((progCfgwr b d f o v).run s).cfg = s.cfg.write b d f (dwordOf o) v :=
  s.writeReg_cfg b d f o v

/-- Settles O20: CFGWR hands its value to the backend's write of its dword, and the rule is the backend's. -/
theorem referenceWriteIsMaskedAndLocal : Obligations.ReferenceWriteIsMaskedAndLocal := by
  intro s t b d f o v present values masks hs hw h
  cases h
  rw [progCfgwr_run_cfg, hs]
  rw [hs, Backend.wf, Bool.and_eq_true] at hw
  exact ⟨fun hp => Backend.read_write_same hw.1 hp _ v, fun b' d' f' k' hne => Backend.read_write_ne hw.1 hne v,
    fun hp => Backend.write_absent hp _ v⟩

/-! ## What each command does, where one equation says it -/

/-- A scan of a nonzero value as a command (R200, R201). -/
theorem scan_run {w : Scan} {v : Word} (hv : v ≠ 0#32) :
    ∃ q, ∀ (s : State) (k : BitPos → Prog), (Prog.scan w v k).run s = (k q).run s.advance := by
  obtain ⟨q, hq⟩ := bitScan_of_ne (w := w) hv
  exact ⟨q, fun s k => by simp only [Prog.run, hq]⟩

/-- ENUM ends by its Total event, with DEVLIST and DEVCOUNT as its result (R220). -/
theorem progEnum_run (s : State) : ∃ t, Grows (s.assign .startSweep) t ∧
    progEnum.run s = (t.assign .total).finish (.sweep t.sweep.devList t.sweep.devCount) := by
  obtain ⟨t, h, g⟩ := forEach_grows (s.assign .startSweep) sweepBus (fun b s => sweepBus_run b s) allBuses
  exact ⟨t, g, by rw [progEnum, run_set, h]; rfl⟩

/-- Settles O41: each command's run ends with a return of its own tag; only a scan of zero ends otherwise. -/
theorem resultTagPerCommand : Obligations.ResultTagPerCommand := by
  intro w i s hd hl hm
  cases i with
  | cfgrd | cfgwr | hasmf | probe => exact ⟨_, _, rfl, rfl, rfl⟩
  | decbar b d f idx =>
    obtain ⟨r, t, l, hrun, -⟩ := decbarThen_run b d f s true idx
    exact ⟨_, _, congrArg Host.Outcome.next (hrun _), rfl, rfl⟩
  | lsb v =>
    obtain ⟨q, hq⟩ := scan_run (w := .lsb) (fun h => hl (h ▸ rfl))
    exact ⟨_, _, congrArg Host.Outcome.next (hq s _), rfl, rfl⟩
  | msb v =>
    obtain ⟨q, hq⟩ := scan_run (w := .msb) (fun h => hm (h ▸ rfl))
    exact ⟨_, _, congrArg Host.Outcome.next (hq s _), rfl, rfl⟩
  | enum =>
    obtain ⟨t, -, h⟩ := progEnum_run s
    exact ⟨_, _, congrArg Host.Outcome.next h, rfl, rfl⟩
  | outlAddr | inlData | outlData =>
    obtain ⟨p, hp, -⟩ := decodeCommand_program hd
    cases hp

/-- A bit scan as a command, of zero or not, leaves the enumeration state and EVT. -/
theorem scan_run_frame (w : Scan) (v : Word) (r : BitPos → State → Result) (s : State) :
    ((Prog.scan w v fun p => .ret (r p)).run s).sweep = s.sweep ∧
      ((Prog.scan w v fun p => .ret (r p)).run s).evt = s.evt := by
  simp only [Prog.run]
  cases bitScan w v <;> exact ⟨rfl, rfl⟩

/-- Settles O43: register accesses, scans and DECBAR keep both; only a sweep's assignments write them. -/
theorem onlyEnumWritesSweepAndEvents : Obligations.OnlyEnumWritesSweepAndEvents := by
  intro i s t hi h
  cases i with
  | cfgrd | cfgwr | hasmf | probe | outlAddr => cases h; exact ⟨rfl, rfl⟩
  | decbar b d f idx =>
    cases h
    obtain ⟨r, t, l, hrun, -, -, -, -, -, -, -, -, ⟨-, hsweep, hevt⟩, -⟩ := decbarThen_run b d f s true idx
    rw [progDecbar, hrun]
    exact ⟨hsweep, hevt⟩
  | lsb v => cases h; exact scan_run_frame .lsb v _ s
  | msb v => cases h; exact scan_run_frame .msb v _ s
  | enum => exact absurd rfl hi
  | inlData | outlData => cases h; split <;> exact ⟨rfl, rfl⟩

/-! ## What a sweep's outcome depends on (R37) -/

/-- Two states with the same TR, EVT, backend and enumeration state, whatever CA, CMD, the working registers and RES hold. -/
def State.SameView (s s' : State) : Prop := s'.tr = s.tr ∧ s'.cfg = s.cfg ∧ s'.evt = s.evt ∧ s'.sweep = s.sweep

/-- From two such states the program gives the same result and ends in two such states. -/
def Prog.ByView (p : Prog) : Prop :=
  ∀ s s' : State, s.SameView s' → (p.run s').res = (p.run s).res ∧ (p.run s).SameView (p.run s')

theorem State.SameView.readReg {s s' : State} (h : s.SameView s') (b : Bus) (d : Dev) (f : Fn) (o : Off) :
    (s.readReg b d f o).SameView (s'.readReg b d f o) := by
  obtain ⟨htr, hcfg, hevt, hsweep⟩ := h
  exact ⟨by rw [State.readReg_tr, State.readReg_tr, htr, hcfg], by rw [State.readReg_cfg, State.readReg_cfg, hcfg],
    hevt, hsweep⟩

theorem State.SameView.probed {s s' : State} (h : s.SameView s') (b : Bus) (d : Dev) (f : Fn) :
    (s.probed b d f).SameView (s'.probed b d f) :=
  ((((((h.readReg ..).readReg ..).readReg ..).readReg ..).readReg ..).readReg ..).readReg ..

/-- Every assignment but the start of a sweep, which looks at the number of resets (log 25). -/
theorem Prog.byView_set {a : Assign} (ha : a ≠ .startSweep) {k : Prog} (hk : k.ByView) : (Prog.set a k).ByView := by
  intro s s' h
  refine hk _ _ ?_
  obtain ⟨htr, hcfg, hevt, hsweep⟩ := h
  cases a with
  | startSweep => exact absurd rfl ha
  | _ => simp [State.SameView, State.assign, htr, hcfg, hevt, hsweep]

section
variable (bus : Bus) (dev : Dev) (fn : Fn)

theorem hasmfThen_byView {k : Bool → Prog} (hk : ∀ b, (k b).ByView) : (hasmfThen bus dev k).ByView := by
  intro s s' h
  rw [hasmfThen_run, hasmfThen_run, h.2.1]
  exact hk _ _ _ (h.readReg ..)

theorem probeThen_byView {k : IdRecord → Prog} (hk : ∀ r, (k r).ByView) : (probeThen bus dev fn k).ByView := by
  intro s s' h
  rw [probeThen_run, probeThen_run, h.2.1]
  exact hk _ _ _ (h.probed ..)

theorem decbarThen_byView (counted : Bool) (idx : BarIdx) {k : DecodeResult → Prog} (hk : ∀ r, (k r).ByView) :
    (decbarThen counted bus dev fn idx k).ByView := by
  rintro s s' ⟨htr, hcfg, hevt, hsweep⟩
  obtain ⟨r, t, l, hrun, htr', -, -, -, -, -, -, -, ⟨-, hsw, hev⟩, -, -, hother⟩ :=
    decbarThen_run bus dev fn s counted idx
  obtain ⟨t', hrun', htr'', hcfg', hsw', hev'⟩ := hother s' hcfg
  rw [hrun, hrun']
  exact hk r t t' ⟨by rw [htr'', htr', htr], hcfg', by rw [hev', hev, hevt], by rw [hsw', hsw, hsweep]⟩

theorem slotThen_byView (i : Fin 6) {k : DecodeResult → Prog} (hk : ∀ r, (k r).ByView) :
    (slotThen bus dev fn i k).ByView :=
  Prog.byView_set (fun h => by cases h) (decbarThen_byView bus dev fn false _ hk)

theorem barsThen_byView {k : Bars → Prog} (hk : ∀ r, (k r).ByView) : (barsThen bus dev fn k).ByView :=
  slotThen_byView _ _ _ _ fun _ => slotThen_byView _ _ _ _ fun _ => slotThen_byView _ _ _ _ fun _ =>
    slotThen_byView _ _ _ _ fun _ => slotThen_byView _ _ _ _ fun _ => slotThen_byView _ _ _ _ fun _ => hk _

theorem forEach_byView {α : Type} {body : α → Prog → Prog} (hb : ∀ x rest, rest.ByView → (body x rest).ByView)
    (xs : List α) {k : Prog} (hk : k.ByView) : (forEach xs body k).ByView := by
  induction xs with
  | nil => exact hk
  | cons x xs ih => exact hb x _ ih

theorem sweepFn_byView {rest : Prog} (h : rest.ByView) : (sweepFn bus dev fn rest).ByView := by
  refine Prog.byView_set (fun h => by cases h) (probeThen_byView _ _ _ fun id => ?_)
  split
  · exact barsThen_byView _ _ _ fun _ => Prog.byView_set (fun h => by cases h) h
  · exact h

theorem sweepDev_byView {rest : Prog} (h : rest.ByView) : (sweepDev bus dev rest).ByView :=
  Prog.byView_set (fun h => by cases h) <| hasmfThen_byView _ _ fun _ => Prog.byView_set (fun h => by cases h) <|
    forEach_byView (fun f _ => sweepFn_byView bus dev f) _ h

theorem sweepBus_byView {rest : Prog} (h : rest.ByView) : (sweepBus bus rest).ByView :=
  Prog.byView_set (fun h => by cases h) <| forEach_byView (fun d _ => sweepDev_byView bus d) _ h

end

/-- What follows the start of a sweep. -/
theorem sweep_byView : (forEach allBuses sweepBus <| .set .total <|
    .ret fun s => .sweep s.sweep.devList s.sweep.devCount).ByView := by
  refine forEach_byView (fun b _ => sweepBus_byView b) _ (Prog.byView_set (fun h => by cases h) ?_)
  intro s s' h
  exact ⟨by simp only [Prog.run, State.finish_res, h.2.2.2], h⟩

/-- Settles O44: of the state before, DECBAR looks at the backend alone, and ENUM sets its whole cursor at its start from TR's
length and the number of resets; the others read nothing of what is left open. -/
theorem unspecifiedRegistersDoNotMatter : Obligations.UnspecifiedRegistersDoNotMatter := by
  intro w i s t t' ca cmd regs res sweep hd hl hm h h'
  cases i with
  | cfgrd | cfgwr | hasmf | probe => cases h; cases h'; exact ⟨rfl, rfl, rfl, rfl⟩
  | decbar b d f idx =>
    cases h; cases h'
    obtain ⟨r, t, l, hrun, htr, -, -, -, -, -, -, -, ⟨-, -, hevt⟩, -, -, hother⟩ := decbarThen_run b d f s true idx
    obtain ⟨t', hrun', htr', hcfg', -, hevt'⟩ :=
      hother { s with ca := ca, cmd := cmd, regs := regs, res := res, sweep := sweep } rfl
    rw [progDecbar, hrun, hrun']
    exact ⟨rfl, htr'.trans htr.symm, hcfg', hevt'.trans hevt.symm⟩
  | lsb v =>
    cases h; cases h'
    obtain ⟨q, hq⟩ := scan_run (w := .lsb) (fun h => hl (h ▸ rfl))
    rw [progLsb, hq, hq]
    exact ⟨rfl, rfl, rfl, rfl⟩
  | msb v =>
    cases h; cases h'
    obtain ⟨q, hq⟩ := scan_run (w := .msb) (fun h => hm (h ▸ rfl))
    rw [progMsb, hq, hq]
    exact ⟨rfl, rfl, rfl, rfl⟩
  | enum =>
    cases h; cases h'
    obtain ⟨hres, htr, hcfg, hevt, -⟩ := sweep_byView (s.assign .startSweep)
      (State.assign { s with ca := ca, cmd := cmd, regs := regs, res := res, sweep := sweep } .startSweep)
      ⟨rfl, rfl, rfl, rfl⟩
    exact ⟨hres, htr, hcfg, hevt⟩
  | outlAddr | inlData | outlData =>
    obtain ⟨p, hp, -⟩ := decodeCommand_program hd
    cases hp

end Sys2Proof.Machine

/-! # Where a sweep leaves its cursor (R30, R220 to R224) -/

namespace Sys2Proof.Machine

/-! ## Loops and their last round -/

/-- A loop whose rounds each keep `G` ends with its last round, of whose start and end `R` holds. -/
theorem forEach_last {α : Type} {body : α → Prog → Prog} {G : State → State → Prop} (hrefl : ∀ s, G s s)
    (htrans : ∀ {s t u}, G s t → G t u → G s u) {R : α → State → State → Prop}
    (h : ∀ x s, ∃ t, (∀ rest, (body x rest).run s = rest.run t) ∧ G s t ∧ R x s t) (xs : List α) (x : α) (s : State) :
    ∃ u t, (∀ k, (forEach (xs ++ [x]) body k).run s = k.run t) ∧ G s u ∧ G s t ∧ R x u t := by
  obtain ⟨u, hu, gu⟩ := forEach_run body (fun _ => G) (fun x s => let ⟨t, ht, g, _⟩ := h x s; ⟨t, ht, g⟩) (fun _ => G)
    hrefl xs (fun _ _ _ _ _ _ g g' => htrans g g') s
  obtain ⟨t, ht, gt, rt⟩ := h x u
  refine ⟨u, t, fun k => ?_, gu, htrans gu gt, rt⟩
  have : forEach (xs ++ [x]) body k = forEach xs body (body x k) := by simp [forEach]
  rw [this, hu, ht]

/-- The last function a device's functions end with. -/
def FnCount.lastFn : FnCount → Fn
  | .one => 0
  | .eight => 7

theorem FnCount.fns_eq (n : FnCount) : ∃ l, n.fns = l ++ [n.lastFn] := by
  cases n with
  | one => exact ⟨[], rfl⟩
  | eight => exact ⟨[0, 1, 2, 3, 4, 5, 6], rfl⟩

theorem allDevs_eq : ∃ l, allDevs = l ++ [31] :=
  ⟨(List.range 31).map (BitVec.ofNat 5), by rw [allDevs, List.range_succ, List.map_append]; rfl⟩

theorem allBuses_eq : ∃ l, allBuses = l ++ [255] :=
  ⟨(List.range 255).map (BitVec.ofNat 8), by rw [allBuses, List.range_succ, List.map_append]; rfl⟩

/-! ## What each piece of a sweep keeps -/

/-- If any function is listed, BARC stands at the last slot (R224). -/
def State.BarcLast (s : State) : Prop := s.sweep.devList ≠ [] → s.sweep.barc = 5

/-- What every round of every loop keeps. -/
def SweepStep (s t : State) : Prop := Grows s t ∧ (s.BarcLast → t.BarcLast)

theorem SweepStep.refl (s : State) : SweepStep s s := ⟨.refl s, id⟩

theorem SweepStep.trans {s t u : State} (h : SweepStep s t) (h' : SweepStep t u) : SweepStep s u :=
  ⟨h.1.trans h'.1, h'.2 ∘ h.2⟩

/-- What rounds over functions keep besides: the cursor's bus, device and number of functions. -/
def FnStep (s t : State) : Prop :=
  SweepStep s t ∧ t.sweep.busc = s.sweep.busc ∧ t.sweep.devc = s.sweep.devc ∧ t.sweep.nfn = s.sweep.nfn

theorem FnStep.refl (s : State) : FnStep s s := ⟨.refl s, rfl, rfl, rfl⟩

theorem FnStep.trans {s t u : State} (h : FnStep s t) (h' : FnStep t u) : FnStep s u := by
  obtain ⟨g, hb, hd, hn⟩ := h
  obtain ⟨g', hb', hd', hn'⟩ := h'
  exact ⟨g.trans g', hb'.trans hb, hd'.trans hd, hn'.trans hn⟩

/-- What rounds over devices keep besides: the cursor's bus. -/
def DevStep (s t : State) : Prop := SweepStep s t ∧ t.sweep.busc = s.sweep.busc

theorem DevStep.refl (s : State) : DevStep s s := ⟨.refl s, rfl⟩

theorem DevStep.trans {s t u : State} (h : DevStep s t) (h' : DevStep t u) : DevStep s u :=
  ⟨h.1.trans h'.1, h'.2.trans h.2⟩

section
variable (bus : Bus) (dev : Dev) (fn : Fn) (s : State)

/-- A slot's DECBAR sets BARC, and nothing else of the enumeration state. -/
theorem slotThen_run_sweep (i : Fin 6) : ∃ r t, (∀ k, (slotThen bus dev fn i k).run s = (k r).run t) ∧
    Grows s t ∧ t.sweep = { s.sweep with barc := i } := by
  obtain ⟨r, t, l, hrun, -, -, -, -, -, -, hcfg, -, ⟨-, hsweep, -⟩, -⟩ :=
    decbarThen_run bus dev fn (s.assign (.barc i)) false (BitVec.ofNat 3 i.val)
  exact ⟨r, t, fun k => by rw [slotThen, run_set, hrun], ⟨⟨[], by rw [hsweep]; simp [State.assign]⟩, hcfg⟩, hsweep⟩

/-- The six slots leave BARC at the last. -/
theorem barsThen_run_sweep : ∃ bars t, (∀ k, (barsThen bus dev fn k).run s = (k bars).run t) ∧
    Grows s t ∧ t.sweep = { s.sweep with barc := 5 } := by
  obtain ⟨r0, t0, h0, g0, e0⟩ := slotThen_run_sweep bus dev fn s 0
  obtain ⟨r1, t1, h1, g1, e1⟩ := slotThen_run_sweep bus dev fn t0 1
  obtain ⟨r2, t2, h2, g2, e2⟩ := slotThen_run_sweep bus dev fn t1 2
  obtain ⟨r3, t3, h3, g3, e3⟩ := slotThen_run_sweep bus dev fn t2 3
  obtain ⟨r4, t4, h4, g4, e4⟩ := slotThen_run_sweep bus dev fn t3 4
  obtain ⟨r5, t5, h5, g5, e5⟩ := slotThen_run_sweep bus dev fn t4 5
  exact ⟨⟨r0, r1, r2, r3, r4, r5⟩, t5, fun k => by simp only [barsThen, h0, h1, h2, h3, h4, h5],
    ((((g0.trans g1).trans g2).trans g3).trans g4).trans g5, by rw [e5, e4, e3, e2, e1, e0]⟩

/-- One function: FNC names it, and if it is listed BARC stands at the last slot. -/
theorem sweepFn_run_cursor : ∃ t, (∀ rest, (sweepFn bus dev fn rest).run s = rest.run t) ∧ FnStep s t ∧
    t.sweep.fnc = fn := by
  have g0 : Grows s ((s.assign (.fnc fn)).probed bus dev fn) :=
    ⟨⟨[], by simp [State.assign]⟩, fun _ _ _ _ _ => by simp [State.probed_cfg]⟩
  by_cases hp : (probed bus dev fn s.cfg).present = true
  · obtain ⟨bars, t, hrun, g1, hsweep⟩ := barsThen_run_sweep bus dev fn ((s.assign (.fnc fn)).probed bus dev fn)
    refine ⟨t.assign (.report (probed bus dev fn s.cfg) bars), fun rest => ?_, ⟨⟨(g0.trans g1).trans ?_, fun _ _ => ?_⟩,
      ?_, ?_, ?_⟩, ?_⟩
    · rw [sweepFn, run_set, probeThen_run, State.assign_cfg]
      simp only [probed] at hp
      rw [if_pos hp, hrun]
      rfl
    · exact ⟨⟨[_], rfl⟩, fun _ _ _ _ _ => State.assign_cfg _ _⟩
    all_goals simp only [State.assign, hsweep, State.probed_sweep]
  · refine ⟨(s.assign (.fnc fn)).probed bus dev fn, fun rest => ?_, ⟨⟨g0, id⟩, rfl, rfl, rfl⟩, rfl⟩
    rw [sweepFn, run_set, probeThen_run, State.assign_cfg]
    simp only [probed] at hp
    rw [if_neg hp]

/-- The cursor after a device swept from `s`: its number, NFN by its multi-function flag, the last function NFN asks for. -/
def DevLast (bus : Bus) (dev : Dev) (s t : State) : Prop :=
  t.sweep.devc = dev ∧ t.sweep.fnc = t.sweep.nfn.lastFn ∧
    t.sweep.nfn = fnCount ((s.cfg.read bus dev 0 3).getLsbD 23)

/-- The state before a device's first function: its HASMF is done and NFN set (R220, R232). -/
def State.flagged : State :=
  ((s.assign (.devc dev)).readReg bus dev 0 offHeaderType).assign
    (.nfn (fnCount ((s.cfg.read bus dev 0 3).getLsbD 23)))

theorem State.flagged_cfg : (s.flagged bus dev).cfg = s.cfg := by
  simp [State.flagged, Backend.afterRead_of_repeatable, show repeatableDword (dwordOf offHeaderType) = true from rfl]

theorem State.flagged_devStep : DevStep s (s.flagged bus dev) :=
  ⟨⟨⟨⟨[], by simp [State.flagged, State.assign]⟩, fun _ _ _ _ _ => State.flagged_cfg bus dev s⟩, id⟩, rfl⟩

/-- One device: NFN is what its multi-function flag says, and FNC the last of its functions (R220, R222). -/
theorem sweepDev_run_cursor : ∃ t, (∀ rest, (sweepDev bus dev rest).run s = rest.run t) ∧ DevStep s t ∧
    DevLast bus dev s t := by
  obtain ⟨l, hl⟩ := (fnCount ((s.cfg.read bus dev 0 3).getLsbD 23)).fns_eq
  obtain ⟨u, t, hrun, -, ⟨g, hbus, hdev, hnfn⟩, hfnc⟩ := forEach_last FnStep.refl FnStep.trans
    (R := fun f _ t => t.sweep.fnc = f) (sweepFn_run_cursor bus dev) l
    (fnCount ((s.cfg.read bus dev 0 3).getLsbD 23)).lastFn (s.flagged bus dev)
  refine ⟨t, fun rest => ?_, (s.flagged_devStep bus dev).trans ⟨g, hbus⟩, hdev, hfnc.trans ?_, hnfn⟩
  · rw [sweepDev, run_set, hasmfThen_run, run_set, State.assign_cfg, hl]
    exact hrun rest
  · exact congrArg FnCount.lastFn hnfn.symm

/-- One bus: BUSC names it, and the rest of the cursor is as its last device leaves it. -/
theorem sweepBus_run_cursor : ∃ t, (∀ rest, (sweepBus bus rest).run s = rest.run t) ∧ SweepStep s t ∧
    t.sweep.busc = bus ∧ ∃ u, Grows s u ∧ DevLast bus 31 u t := by
  obtain ⟨l, hl⟩ := allDevs_eq
  obtain ⟨u, t, hrun, ⟨⟨gu, -⟩, -⟩, ⟨gt, hbus⟩, hlast⟩ := forEach_last DevStep.refl DevStep.trans
    (sweepDev_run_cursor bus) l 31 (s.assign (.busc bus))
  have g0 : SweepStep s (s.assign (.busc bus)) :=
    ⟨⟨⟨[], by simp [State.assign]⟩, fun _ _ _ _ _ => State.assign_cfg _ _⟩, id⟩
  exact ⟨t, fun rest => by rw [sweepBus, run_set, hl, hrun], g0.trans gt, hbus, u, g0.1.trans gu, hlast⟩

/-- The whole sweep, up to its Total event. -/
theorem progEnum_run_cursor : ∃ t, progEnum.run s =
      (t.assign .total).finish (.sweep t.sweep.devList t.sweep.devCount) ∧ t.BarcLast ∧ t.sweep.busc = 255 ∧
      ∃ u, Grows (s.assign .startSweep) u ∧ DevLast 255 31 u t := by
  obtain ⟨l, hl⟩ := allBuses_eq
  obtain ⟨u, t, hrun, ⟨gu, -⟩, ⟨-, hbarc⟩, hbus, u', gu', hlast⟩ := forEach_last SweepStep.refl SweepStep.trans
    sweepBus_run_cursor l 255 (s.assign .startSweep)
  exact ⟨t, by rw [progEnum, run_set, hl, hrun]; rfl, hbarc fun h => absurd rfl h, hbus, u', gu.trans gu', hlast⟩

end

/-- ENUM sets its whole enumeration state at its start, so the one before does not matter (R30). -/
theorem progEnum_run_forgets (s : State) (w : Sweep) : progEnum.run { s with sweep := w } = progEnum.run s := by
  rw [progEnum, run_set, run_set, State.assign_startSweep_forgets]

/-- Settles O58: each loop ends with its last round, which sets the cursor; the start of the sweep sets all of it. -/
theorem enumLeavesCursorAtLastDevice : Obligations.EnumLeavesCursorAtLastDevice := by
  intro s t h
  cases h
  obtain ⟨t, hrun, hbarc, hbus, u, gu, hdev, hfnc, hnfn⟩ := progEnum_run_cursor s
  refine ⟨?_, ?_, ?_, ?_, fun p v m hs hw => ?_, fun w => congrArg Host.Outcome.next (progEnum_run_forgets s w)⟩ <;>
    rw [hrun]
  · exact hbus
  · exact hdev
  · change t.sweep.nfn = .one ∧ t.sweep.fnc = 0 ∨ t.sweep.nfn = .eight ∧ t.sweep.fnc = 7
    rw [hfnc]
    cases t.sweep.nfn with
    | one => exact .inl ⟨rfl, rfl⟩
    | eight => exact .inr ⟨rfl, rfl⟩
  · exact hbarc
  · have hcfg : u.cfg = s.cfg := gu.2 p v m hs hw
    rw [hcfg] at hnfn
    exact hnfn

end Sys2Proof.Machine

/-! # Accesses of configuration space: alignment, the views of a result, and a foreign address between two steps -/

namespace Sys2Proof.Machine

/-! ## Offsets (R54, R92, R117) -/

theorem dwordOf_eq_div (o : Off) : dwordOf o = BitVec.ofNat 6 (o.toNat / 4) := by
  apply BitVec.eq_of_toNat_eq
  simp [dwordOf, BitVec.extractLsb'_toNat, Nat.shiftRight_eq_div_pow]

section
variable (b : Bus) (d : Dev) (f : Fn) (o : Off)

/-- Bits 1:0 of an offset do not reach the address word (R116). -/
theorem addrWord_aligned : addrWord b d f (o &&& 0xFC#8) = addrWord b d f o := by
  simp only [addrWord, BitVec.and_assoc, BitVec.and_self]

theorem addrWord_lowBits : (addrWord b d f o).extractLsb' 0 2 = 0 := by
  have h := addressFormat_addrWord b d f o
  simp only [addressFormat, Bool.and_eq_true, beq_iff_eq] at h
  exact h.2

end

/-! ## CFGRD and CFGWR as wholes (R118, R119) -/

section
variable (b : Bus) (d : Dev) (f : Fn) (o : Off) (s : State)

theorem exec_cfgrd : exec (.cfgrd b d f o) s =
    .next ((s.readReg b d f o).finish (.u32 (s.cfg.read b d f (dwordOf o) >>> subwordShift o))) := by
  simp only [exec, execCfgrd, progCfgrd, Prog.run, State.readValue_readReg]

theorem exec_cfgwr (v : Word) : exec (.cfgwr b d f o v) s = .next ((s.writeReg b d f o v).finish .unit) := rfl

end

/-- Settles O19: CA holds the address word, which drops bits 1:0 of the offset, and both commands access dword OFF / 4. -/
theorem unalignedOffsetUsesAlignedDword : Obligations.UnalignedOffsetUsesAlignedDword := by
  intro s b d f o v
  have haddr := (addrWord_aligned b d f o).symm
  have hlow := addrWord_lowBits b d f o
  constructor
  · refine ⟨_, exec_cfgrd b d f o s, haddr, hlow, ?_, rfl, rfl⟩
    rw [State.finish_regs, State.readReg_regs, dwordOf_eq_div]
  · refine ⟨_, exec_cfgwr b d f o s v, haddr, hlow, ?_, rfl, rfl⟩
    rw [State.finish_cfg, State.writeReg_cfg, dwordOf_eq_div]

/-! ## The views of a shifted dword (R53) -/

/-- A right shift leaves zero in the bits it vacates. -/
theorem extractLsb'_ushiftRight_of_le {w n i len : Nat} (x : BitVec w) (h : w ≤ n + i) :
    (x >>> n).extractLsb' i len = 0 := by
  apply BitVec.eq_of_getLsbD_eq
  intro j hj
  simp [BitVec.getLsbD_of_ge x (n + (i + j)) (by omega)]

/-- A word with bits 31:8 zero has as its low half its low byte, zero-extended. -/
theorem setWidth_16_of_high_zero {v : Word} (h : v.extractLsb' 8 24 = 0) :
    v.setWidth 16 = (v.setWidth 8).setWidth 16 := by
  have hz : ∀ i, 8 ≤ i → i < 16 → v.getLsbD i = false := fun i h8 h16 => by
    have := congrArg (·.getLsbD (i - 8)) h
    simpa [show i - 8 < 24 by omega, show 8 + (i - 8) = i by omega] using this
  apply BitVec.eq_of_getLsbD_eq
  intro i hi
  by_cases h8 : i < 8
  · simp [hi, h8]
  · simp [hi, h8, hz i (by omega) hi]

/-- Settles O17: a view of the shifted dword is a field of the dword, and the shift brings in zeros from above. -/
theorem cfgrdResultViews : Obligations.CfgrdResultViews := by
  intro s b d f o
  have zeros : ∀ n i len, 32 ≤ 8 * n + i → o.toNat % 4 = n →
      (s.cfg.read b d f (dwordOf o) >>> subwordShift o).extractLsb' i len = 0 := fun n i len h hn =>
    extractLsb'_ushiftRight_of_le _ (by rw [subwordShift, hn]; exact h)
  refine ⟨_, _, exec_cfgrd b d f o s, rfl, BitVec.setWidth_ushiftRight_eq_extractLsb,
    fun _ => BitVec.setWidth_ushiftRight_eq_extractLsb, fun h3 => ?_, zeros 2 16 16 (by decide)⟩
  have hz := zeros 3 8 24 (by decide) h3
  exact ⟨hz, setWidth_16_of_high_zero hz⟩

/-! ## A foreign OUTL_ADDR before a data transaction (R62, R283) -/

@[simp] theorem State.assign_data (s : State) (a : Assign) : (s.assign a).regs.data = s.regs.data := by cases a <;> rfl

@[simp] theorem Prog.settle_data (p : Prog) (s : State) : (p.settle s).regs.data = s.regs.data :=
  p.settle_same (·.regs.data) State.assign_data (fun _ _ => rfl) s

section
variable {s : State} (bus : Bus) (dev : Dev) (fn : Fn) (off : Off)

/-- The data transaction of a read, wherever CA points (R112, R118). -/
theorem Prog.stepAt_rd_of_enabled (h : s.dataEnabled = true) (k : Word → Prog) : (Prog.rd bus dev fn off k).stepAt true s =
    (k (s.selected >>> subwordShift off)).settle (s.takeData.pushGot s.selected) := by
  simp only [Prog.stepAt, h, if_true, State.readValue, State.takeData_regs]

/-- The data transaction of a write, wherever CA points (R113, R119). -/
theorem Prog.stepAt_wr_of_enabled (h : s.dataEnabled = true) (src : Source) (k : Prog) :
    (Prog.wr bus dev fn off src k).stepAt true s = k.settle (s.giveData (src.get s)) := by
  simp only [Prog.stepAt, h, if_true]

end

/-- `s` after a foreign OUTL_ADDR of `a`, with `rest` as what is still to come from outside (R62, R111). -/
def State.redirected (s : State) (a : Word) (rest : List Input) : State := State.outlAddr { s with inputs := rest } a

/-- A foreign OUTL_ADDR lands in any mode, and a BUSY engine then takes the step it stood at (R62, R111). -/
theorem step_outlAddr_then_turn {s : State} {a : Word} {rest : List Input} {p : Prog} {addressed : Bool}
    (hm : s.mode = .busy) (hi : s.inputs = .port 0x50CF8#20 a :: .turn :: rest) (hp : s.position = some (p, addressed)) :
    ∃ s1, step s = .next s1 ∧ step s1 = .next (p.stepAt addressed (s.redirected a rest)) := by
  refine ⟨s.redirected a (.turn :: rest), ?_, ?_⟩
  · simp only [step, nextStep, hi]
    rfl
  · have hturn : step (s.redirected a (.turn :: rest)) = (s.redirected a rest).tick := by
      simp only [step, nextStep, State.redirected, State.outlAddr_inputs, State.outlAddr_mode, hm]
      rfl
    exact hturn.trans (State.tick_of_position hp)

/-- Settles O15: after the foreign OUTL_ADDR the engine stands at the same data transaction, which goes where CA points. -/
theorem foreignAddressRedirectsAccess : Obligations.ForeignAddressRedirectsAccess := by
  intro s a rest b d f o hm he hi
  have hen : (s.redirected a rest).dataEnabled = true := he
  constructor
  · rintro k v hp rfl
    obtain ⟨s1, h1, h2⟩ := step_outlAddr_then_turn hm hi hp
    refine ⟨s1, _, h1, h2, ?_, ?_⟩ <;> rw [Prog.stepAt_rd_of_enabled b d f o hen]
    · rw [Prog.settle_tr]
      exact List.append_assoc s.tr [_] [_]
    · rw [Prog.settle_data]
      rfl
  · intro src k hp
    have hsrc : src.get (s.redirected a rest) = src.get s := by cases src <;> rfl
    obtain ⟨s1, h1, h2⟩ := step_outlAddr_then_turn hm hi hp
    refine ⟨s1, _, h1, h2, ?_, ?_⟩ <;> rw [Prog.stepAt_wr_of_enabled b d f o hen, hsrc]
    · rw [Prog.settle_tr]
      exact List.append_assoc s.tr [_] [_]
    · rw [Prog.settle_cfg]
      rfl

end Sys2Proof.Machine

/-! # Encoding: decoder and encoder against each other and against the match/mask table (R87 to R92) -/

namespace Sys2Proof

/-! ## The decoder's answers -/

@[simp] theorem legalIf_eq_ok {ok : Bool} {w : CommandWord} {i j : Instr} :
    legalIf ok w i = .ok j ↔ ok = true ∧ i = j := by
  cases ok <;> simp [legalIf]

theorem legalIf_eq_error {ok : Bool} {w : CommandWord} {i : Instr} {e : DecodeError} (h : legalIf ok w i = .error e) :
    e = .illegalCommand w := by
  cases ok <;> cases h
  rfl

/-- The one rejection of a command word (R91). -/
theorem decodeCommand_error {w : CommandWord} {e : DecodeError} (h : decodeCommand w = .error e) :
    e = .illegalCommand w := by
  simp only [decodeCommand] at h
  split at h
  case h_9 => cases h; rfl
  all_goals exact legalIf_eq_error h

/-- A legal word's reserved bit w[24] is zero, whatever its mnemonic (R92). -/
theorem fieldRsv_of_decodeCommand {w : CommandWord} {i : Instr} (h : decodeCommand w = .ok i) : fieldRsv w = 0 := by
  simp only [decodeCommand] at h
  split at h
  case h_9 => cases h
  all_goals
    simp only [legalIf_eq_ok, Bool.and_eq_true, beq_iff_eq] at h
    tauto

/-- A word put together from fields that decodes is the encoding of what it decodes to: every field is an operand of the
instruction or must be zero, and the opcode names the instruction (R89, R91). -/
theorem encode_of_decodeCommand_commandWord {val : Word} {op : BitVec 4} {idx : BarIdx} {bus : Bus} {dev : Dev} {fn : Fn}
    {off : Off} {i : Instr} (h : decodeCommand (commandWord val op idx bus dev fn off) = .ok i) :
    encode i = .command (commandWord val op idx bus dev fn off) := by
  have hop : ∀ n : Nat, (fieldOp (commandWord val op idx bus dev fn off)).toNat = n → op = BitVec.ofNat 4 n := by
    rintro n rfl
    simp
  simp only [decodeCommand] at h
  split at h
  case h_9 => cases h
  all_goals
    next hn =>
    obtain rfl := hop _ hn
    obtain ⟨hz, rfl⟩ := legalIf_eq_ok.1 h
    simp only [Bool.and_eq_true, beq_iff_eq, fieldVal_commandWord, fieldIdx_commandWord, fieldBus_commandWord,
      fieldDev_commandWord, fieldFn_commandWord, fieldOff_commandWord] at hz
    simp [encode, hz]

theorem encode_of_decodeCommand {w : CommandWord} {i : Instr} (h : decodeCommand w = .ok i) : encode i = .command w := by
  have hw := commandWord_fields w (fieldRsv_of_decodeCommand h)
  rw [← hw] at h ⊢
  exact encode_of_decodeCommand_commandWord h

/-- Settles O4: the decoder reads from a put-together word the fields it was put together from, and the three descriptors
are three. -/
theorem decodeEncodeRoundTrip : Obligations.DecodeEncodeRoundTrip := by
  intro i _
  cases i with
  | cfgrd | cfgwr | hasmf | probe | decbar | lsb | msb | enum => simp [encode, decode, decodeCommand]
  | outlAddr | inlData | outlData => rfl

/-- Settles O5: the word is put together from its fields, and every one of them counts. -/
theorem encodeDecodedCommandWord : Obligations.EncodeDecodedCommandWord := fun _ _ => encode_of_decodeCommand

/-- Settles O3, by evaluation of the decoder. -/
theorem specEncodingExamplesDecode : Obligations.SpecEncodingExamplesDecode := by
  unfold Obligations.SpecEncodingExamplesDecode
  decide

/-! ## The match/mask table (R90) -/

/-- A field the mask covers is left whole by it. -/
theorem extractLsb'_and_of_covered {w start len : Nat} (x : BitVec w) {m : BitVec w}
    (hm : m.extractLsb' start len = BitVec.allOnes len) : (x &&& m).extractLsb' start len = x.extractLsb' start len := by
  rw [BitVec.extractLsb'_and, hm, BitVec.and_allOnes]

/-- A word a row selects has the row's pattern in every field the row's mask covers. -/
theorem CommandRow.extractLsb'_of_selects {r : CommandRow} {w : CommandWord} (h : r.selects w = true) (start len : Nat)
    (hm : r.mask.extractLsb' start len = BitVec.allOnes len) :
    w.extractLsb' start len = r.pattern.extractLsb' start len := by
  rw [← extractLsb'_and_of_covered w hm, eq_of_beq h]

/-- A row selects only words of its own mnemonic: its mask covers the opcode and every field that must be zero. -/
theorem decodeCommand_of_selects {r : CommandRow} (hr : r ∈ commandRows) {w : CommandWord} (h : r.selects w = true) :
    ∃ i, decodeCommand w = .ok i ∧ mnemonicOf i = r.mnemonic := by
  have field := CommandRow.extractLsb'_of_selects h
  simp only [commandRows, List.mem_cons, List.not_mem_nil, or_false] at hr
  rcases hr with rfl | rfl | rfl | rfl | rfl | rfl | rfl | rfl
  all_goals
    simp (disch := decide) [decodeCommand, fieldVal, fieldOp, fieldIdx, fieldRsv, fieldBus, fieldDev, fieldFn, fieldOff,
      field, mnemonicOf]

/-- The row of a mnemonic selects the word of every instruction of that mnemonic. -/
theorem tableRow_statement (i : Instr) : Laws.TableRow.Statement i := by
  cases i with
  | cfgrd => exact Laws.TableRow.cfgrd _ _ _ _
  | cfgwr => exact Laws.TableRow.cfgwr _ _ _ _ _
  | hasmf => exact Laws.TableRow.hasmf _ _
  | probe => exact Laws.TableRow.probe _ _ _
  | decbar => exact Laws.TableRow.decbar _ _ _ _
  | lsb => exact Laws.TableRow.lsb _
  | msb => exact Laws.TableRow.msb _
  | enum => exact Laws.TableRow.enum
  | outlAddr => exact Laws.TableRow.outlAddr _
  | inlData => exact Laws.TableRow.inlData
  | outlData => exact Laws.TableRow.outlData _

/-- A legal word is selected by the row of its mnemonic. -/
theorem exists_row_of_decodeCommand {w : CommandWord} {i : Instr} (h : decodeCommand w = .ok i) :
    ∃ r ∈ commandRows, r.mnemonic = mnemonicOf i ∧ r.selects w = true := by
  have := tableRow_statement i
  rwa [Laws.TableRow.Statement, encode_of_decodeCommand h] at this

/-- A mnemonic has one row. -/
theorem eq_of_mnemonic_eq : ∀ r ∈ commandRows, ∀ q ∈ commandRows, r.mnemonic = q.mnemonic → r = q := by decide

theorem commandRows_nodup : commandRows.Nodup := by decide

/-- A row selects exactly the words that decode to its mnemonic. -/
theorem selects_iff_decodeCommand {r : CommandRow} (hr : r ∈ commandRows) (w : CommandWord) :
    r.selects w = true ↔ ∃ i, decodeCommand w = .ok i ∧ mnemonicOf i = r.mnemonic := by
  refine ⟨decodeCommand_of_selects hr, fun ⟨i, hd, hm⟩ => ?_⟩
  obtain ⟨q, hq, hqm, hsel⟩ := exists_row_of_decodeCommand hd
  rwa [eq_of_mnemonic_eq r hr q hq (hm.symm.trans hqm.symm)]

/-- Settles O6: a row selects a word exactly when the word decodes to the row's mnemonic, so that a word no row selects
decodes to none, and two rows that select one word have one mnemonic. -/
theorem decoderFollowsMatchMaskTable : Obligations.DecoderFollowsMatchMaskTable := by
  refine ⟨fun w r hr => ?_, fun w hno => ?_, ?_⟩
  · rw [selects_iff_decodeCommand hr]
    exact exists_congr fun i => ⟨fun ⟨hd, hm⟩ => ⟨hd, hm, encode_of_decodeCommand hd⟩, fun ⟨hd, hm, _⟩ => ⟨hd, hm⟩⟩
  · cases hd : decodeCommand w with
    | error e => rw [decodeCommand_error hd]
    | ok i =>
      obtain ⟨r, hr, -, hsel⟩ := exists_row_of_decodeCommand hd
      exact absurd hsel (by simp [hno r hr])
  · refine commandRows_nodup.imp_of_mem fun hr hq hne w ⟨hsr, hsq⟩ => hne ?_
    obtain ⟨i, hd, hm⟩ := decodeCommand_of_selects hr hsr
    obtain ⟨j, hd', hm'⟩ := decodeCommand_of_selects hq hsq
    cases hd.symm.trans hd'
    exact eq_of_mnemonic_eq _ hr _ hq (hm.symm.trans hm')

end Sys2Proof

/-! # Routing by the address latch, the pairs of a command's transactions, and the assembler -/

namespace Sys2Proof.Machine

/-! ## Routing (R81) -/

/-- Latches that agree under a mask agree in every field it covers. -/
theorem extractLsb'_eq_of_masked_eq {w : Nat} {a a' m : BitVec w} (h : a &&& m = a' &&& m) (start len : Nat)
    (hm : m.extractLsb' start len = BitVec.allOnes len) : a.extractLsb' start len = a'.extractLsb' start len := by
  rw [← extractLsb'_and_of_covered a hm, h, extractLsb'_and_of_covered a' hm]

section
variable {a a' : Word} (h : a &&& 0x80FFFFFC#32 = a' &&& 0x80FFFFFC#32)
include h

theorem caEnable_eq_of_masked_eq : caEnable a = caEnable a' := by
  simpa [caEnable] using congrArg (·.getLsbD 31) h

/-- The routing fields of R81 all lie under the mask. -/
theorem routing_eq_of_masked_eq : caBus a = caBus a' ∧ caDev a = caDev a' ∧ caFn a = caFn a' ∧ caDword a = caDword a' :=
  have field := extractLsb'_eq_of_masked_eq h
  ⟨field 16 8 rfl, field 11 5 rfl, field 8 3 rfl, field 2 6 rfl⟩

end

section
variable (s : State)

/-- INL_DATA, admitted (R112). -/
theorem exec_inlData_of_enabled (h : caEnable s.ca = true) : exec .inlData s = .next s.inlData := by
  simp only [exec, execInlData, State.dataEnabled, h, if_true]

/-- OUTL_DATA, admitted (R113). -/
theorem exec_outlData_of_enabled (h : caEnable s.ca = true) (v : Word) :
    exec (.outlData v) s = .next (s.outlData v) := by
  simp only [exec, execOutlData, State.dataEnabled, h, if_true]

end

/-- Settles O14: a data transaction looks at CA through E and the routing fields alone. -/
theorem routingIgnoresReservedBits : Obligations.RoutingIgnoresReservedBits := by
  intro s t a a' v h he
  have he' : caEnable a' = true := (caEnable_eq_of_masked_eq h).symm.trans he
  obtain ⟨hbus, hdev, hfn, hk⟩ := routing_eq_of_masked_eq h
  constructor
  · intro ht
    rw [exec_inlData_of_enabled { s with ca := a } he] at ht
    cases ht
    rw [exec_inlData_of_enabled { s with ca := a' } he']
    simp only [State.inlData, State.selected, hbus, hdev, hfn, hk]
  · intro ht
    rw [exec_outlData_of_enabled { s with ca := a } he] at ht
    cases ht
    rw [exec_outlData_of_enabled { s with ca := a' } he']
    simp only [State.outlData, hbus, hdev, hfn, hk]

/-! ## Pairs of transactions (R121, R291) -/

/-- From `s` to `t` TR has grown by pairs of an address word and a data transaction, `n` records at most. -/
def State.Paired (n : Nat) (s t : State) : Prop :=
  ∃ l, t.tr = s.tr ++ l ∧ pairedTrace l = true ∧ l.length ≤ n

section
variable {n m : Nat} {s t u : State}

theorem State.paired_of_tr_eq (h : t.tr = s.tr) : s.Paired n t := ⟨[], by simp [h], rfl, Nat.zero_le n⟩

/-- One access and what follows it. -/
theorem State.Paired.access {b : Bus} {d : Dev} {f : Fn} {o : Off} {r : PortRecord} (hr : (r.kind != .outlAddr) = true)
    (ht : t.tr = s.tr ++ [⟨.outlAddr, addrWord b d f o⟩, r]) (h : t.Paired n u) : s.Paired (n + 2) u := by
  obtain ⟨l, hl, hp, hn⟩ := h
  refine ⟨⟨.outlAddr, addrWord b d f o⟩ :: r :: l, by simp [hl, ht], ?_, Nat.add_le_add_right hn 2⟩
  simp only [pairedTrace, addressFormat_addrWord, hr, hp]
  rfl

end

/-- A program's register accesses append their pairs, and nothing else it does appends to TR. -/
theorem Prog.run_paired {p : Prog} {n : Nat} (h : p.Within n) (s : State) : s.Paired n (p.run s) := by
  induction p generalizing n s with
  | ret r => exact State.paired_of_tr_eq rfl
  | set a k ih =>
    have := ih h (s.assign a)
    rwa [State.Paired, State.assign_tr] at this
  | rd b d f o k ih =>
    obtain ⟨hn, hk⟩ := h
    rw [← Nat.sub_add_cancel hn]
    exact .access rfl (s.readReg_tr b d f o) (ih _ (hk _) _)
  | wr b d f o src k ih =>
    obtain ⟨hn, hk⟩ := h
    rw [← Nat.sub_add_cancel hn]
    exact .access rfl (s.writeReg_tr b d f o _) (ih hk _)
  | scan w v k ih =>
    obtain ⟨hn, hk⟩ := h
    simp only [Prog.run]
    cases bitScan w v with
    | none => exact State.paired_of_tr_eq rfl
    | some q =>
      obtain ⟨l, htr, hl, hlen⟩ := ih q (hk q) s.advance
      exact ⟨l, htr, hl, hlen.trans (Nat.sub_le n 1)⟩

/-- A bit scan as a command is no transaction. -/
theorem scan_run_tr (w : Scan) (v : Word) (r : BitPos → State → Result) (s : State) :
    ((Prog.scan w v fun p => .ret (r p)).run s).tr = s.tr := by
  simp only [Prog.run]
  cases bitScan w v <;> rfl

/-- Settles O42: every access is a pair; the steps of a command that are no transactions are its bit scans. -/
theorem engineTracePaired : Obligations.EngineTracePaired := by
  intro w i s t hd h
  obtain ⟨p, hp, hexec⟩ := decodeCommand_program hd
  rw [hexec] at h
  cases h
  change s.Paired (transactionBound i) (p.run s)
  cases i with
  | cfgrd | cfgwr | hasmf | probe | enum => exact Prog.run_paired (program_within hp) s
  | decbar b d f idx =>
    cases hp
    obtain ⟨r, t, l, hrun, htr, hl, -, hlen, -⟩ := decbarThen_run b d f s true idx
    rw [progDecbar, hrun]
    exact ⟨l, htr, hl, hlen⟩
  | lsb v => cases hp; exact State.paired_of_tr_eq (scan_run_tr .lsb v _ s)
  | msb v => cases hp; exact State.paired_of_tr_eq (scan_run_tr .msb v _ s)
  | outlAddr | inlData | outlData => cases hp

/-! ## The assembler (R94 to R96, R115) -/

/-- Bus, device, function and offset wrap into their widths (R115). -/
theorem withArgs_mod (bus dev fn off : Nat) (mk : Bus → Dev → Fn → Off → Instr) :
    withArgs (bus % 256) (dev % 32) (fn % 8) (off % 256) mk = withArgs bus dev fn off mk := by
  have wrap : ∀ w n : Nat, BitVec.ofNat w (n % 2 ^ w) = BitVec.ofNat w n := fun w n => BitVec.eq_of_toNat_eq (by simp)
  simp only [withArgs, maskArgs, ← wrap 8 bus, ← wrap 5 dev, ← wrap 3 fn, ← wrap 8 off]
  rfl

/-- An offset may be masked before or after it wraps (R96, R115). -/
theorem withArgs_and_off (bus dev fn off m : Nat) (mk : Bus → Dev → Fn → Off → Instr) :
    withArgs bus dev fn (off &&& m) mk = withArgs bus dev fn off fun b d f o => mk b d f (o &&& BitVec.ofNat 8 m) := by
  simp only [withArgs, maskArgs, BitVec.ofNat_and]

/-- What assembling does is refuse or expand (R94). -/
theorem assemble_eq_ite {a : Asm} {p : Prop} [Decidable p] (h : a.wellFormed = decide p) :
    assemble a = if p then some (encode (Asm.expand a)) else none := by
  simp only [assemble, h, decide_eq_true_eq]

theorem assemble_of_not_wellFormed {a : Asm} (h : a.wellFormed = false) : assemble a = none := by
  simp [assemble, h]

/-- Statements refused alike and expanded alike assemble alike. -/
theorem assemble_congr {a a' : Asm} (hw : a.wellFormed = a'.wellFormed) (he : Asm.expand a = Asm.expand a') :
    assemble a = assemble a' := by
  simp only [assemble, hw, he]

/-- Settles O54: each statement's expansion and the operands it is refused for; the wrapping is R115's. -/
theorem assemblerMasksAndRefuses : Obligations.AssemblerMasksAndRefuses := by
  refine ⟨fun _ _ _ _ => rfl, fun _ _ _ _ _ => assemble_eq_ite rfl, fun _ _ => rfl, fun _ _ _ => rfl,
    fun _ _ _ _ => assemble_eq_ite rfl, fun _ => assemble_eq_ite rfl, fun _ => assemble_eq_ite rfl, rfl,
    fun _ => assemble_eq_ite rfl, fun _ => assemble_eq_ite rfl, rfl, fun p v h8 hC => ?_, fun p hC => ?_,
    fun b d f o v i => ⟨?_, ?_, ?_, ?_, ?_⟩⟩
  · exact assemble_of_not_wellFormed (by simp [Asm.wellFormed, outPort, h8, hC])
  · exact assemble_of_not_wellFormed (by simp [Asm.wellFormed, inPort, hC])
  · exact assemble_congr rfl (withArgs_mod b d f o .cfgrd).symm
  · exact assemble_congr rfl (withArgs_mod b d f o fun b d f o => .cfgwr b d f o (BitVec.ofNat 32 v)).symm
  · exact assemble_congr rfl (withArgs_mod b d 0 0 fun b d _ _ => .hasmf b d).symm
  · exact assemble_congr rfl (withArgs_mod b d f 0 fun b d f _ => .probe b d f).symm
  · exact assemble_congr rfl (withArgs_mod b d f 0 fun b d f _ => .decbar b d f (BitVec.ofNat 3 i)).symm

/-- Truncation to a narrower width and back masks the low bits (R53). -/
theorem setWidth_setWidth_eq_and {w : Nat} (v : BitVec w) (n : Nat) :
    (v.setWidth n).setWidth w = v &&& BitVec.ofNat w (2 ^ n - 1) := by
  apply BitVec.eq_of_getLsbD_eq
  intro i hi
  simp only [BitVec.getLsbD_setWidth, BitVec.getLsbD_and, BitVec.getLsbD_ofNat, Nat.testBit_two_pow_sub_one, hi,
    decide_true, Bool.true_and, Bool.and_comm]

/-- Settles O55: an offset masked before it wraps is masked after, and the host's truncation masks the result. -/
theorem pseudoInstructionsExpand : Obligations.PseudoInstructionsExpand := by
  refine ⟨fun b d f o => ⟨rfl, rfl, ?_⟩, fun b d f o v => ?_, fun b d f o v => ⟨?_, ?_, rfl⟩, fun a r h8 h16 => ?_⟩
  · exact assemble_congr rfl (withArgs_and_off b d f o 0xFC .cfgrd).symm
  · exact assemble_congr rfl (withArgs_and_off b d f o 0xFC fun b d f o => .cfgwr b d f o (BitVec.ofNat 32 v)).symm
  · exact congrArg Result.u32 (setWidth_setWidth_eq_and v 8)
  · exact congrArg Result.u32 (setWidth_setWidth_eq_and v 16)
  · cases a with
    | cfgrd8 => exact absurd rfl (h8 _ _ _ _)
    | cfgrd16 => exact absurd rfl (h16 _ _ _ _)
    | _ => rfl

end Sys2Proof.Machine

/-! # The accessor family: refusals of the port target, its transactions, CFGRD and CFGWR with their frames -/

namespace Sys2Proof.Machine

/-! ## CFGRD and CFGWR (R118 to R121) -/

section
variable (s : State) (b : Bus) (d : Dev) (f : Fn) (o : Off) (r : Result)

/-- A register read that ends its command writes ADDRW and DATA and no other working register (R25, R118). -/
theorem State.accessFrame_readReg_finish : accessFrame s ((s.readReg b d f o).finish r) :=
  ⟨⟨rfl, rfl, rfl, rfl, rfl⟩, rfl, rfl, rfl, by rw [State.finish_regs, State.readReg_regs]⟩

/-- A register write that ends its command writes ADDRW and no other working register (R25, R119). -/
theorem State.accessFrame_writeReg_finish (v : Word) : accessFrame s ((s.writeReg b d f o v).finish r) :=
  ⟨⟨rfl, rfl, rfl, rfl, rfl⟩, rfl, rfl, rfl, by rw [State.finish_regs, State.writeReg_regs]⟩

end

/-- Settles O16: CFGRD is one register read, whose fields the access laws give, and a return of the shifted dword. -/
theorem cfgrdReturnsShiftedDword : Obligations.CfgrdReturnsShiftedDword := by
  intro s b d f o
  have hcfg := s.readReg_cfg b d f o
  exact ⟨_, exec_cfgrd b d f o s, rfl, s.readReg_tr b d f o, rfl, rfl,
    congrArg Regs.data (s.readReg_regs b d f o), rfl,
    fun hr => hcfg.trans (s.cfg.afterRead_of_repeatable b d f hr),
    fun p v m h => hcfg.trans (by rw [h, Backend.afterRead_reference]), s.accessFrame_readReg_finish b d f o _⟩

/-- Settles O18: CFGWR is one register write, whose fields the access laws give, and a return of Unit. -/
theorem cfgwrWritesWholeDword : Obligations.CfgwrWritesWholeDword := by
  intro s b d f o v
  exact ⟨_, exec_cfgwr b d f o s v, rfl, s.writeReg_cfg b d f o v, s.writeReg_tr b d f o v, rfl, rfl, rfl, rfl,
    s.accessFrame_writeReg_finish b d f o _ v⟩

/-! ## What the port target refuses (R112 to R114) -/

theorem decodePort_of_ne {d : Descriptor} (ha : d ≠ outlAddrDesc) (hr : d ≠ inlDataDesc) (hw : d ≠ outlDataDesc)
    (v : Word) : decodePort d v = .error (.unadmittedPortAccess d v) := by
  simp only [decodePort, ha, hr, hw, if_false]

/-- A port transaction lands in any mode (R62, R110). -/
theorem step_port {s : State} {d : Descriptor} {v : Word} {rest : List Input} (h : s.inputs = .port d v :: rest) :
    step s = State.runPort { s with inputs := rest } d v := by
  simp only [step, nextStep, h]

section
variable {s : State} (h : caEnable s.ca = false)
include h

/-- INL_DATA, refused (R112). -/
theorem exec_inlData_of_disabled : exec .inlData s = .next (s.refusePort inlDataDesc 0) := by
  simp only [exec, execInlData, State.dataEnabled, h, Bool.false_eq_true, if_false]

/-- OUTL_DATA, refused (R113). -/
theorem exec_outlData_of_disabled (v : Word) : exec (.outlData v) s = .next (s.refusePort outlDataDesc v) := by
  simp only [exec, execOutlData, State.dataEnabled, h, Bool.false_eq_true, if_false]

end

/-- No command refuses anything: its own address words have E = 1 (R114). -/
theorem Prog.run_refused (p : Prog) (s : State) : (p.run s).refused = s.refused := by
  obtain ⟨t, ht, ⟨r, e⟩ | ⟨w, e⟩⟩ := p.run_ends (·.refused = s.refused) (fun u a h => (u.assign_refused a).trans h)
    (fun _ _ _ _ _ h => h) (fun _ _ _ _ _ _ h => h) (fun _ h => h) s rfl
  all_goals rw [e]; exact ht

/-- Settles O8: each clause is a refusal by the port target, but the last: a command refuses nothing. -/
theorem portTargetRefusals : Obligations.PortTargetRefusals := by
  refine ⟨fun s d v rest hi ha hr hw => ?_, fun s he => exec_inlData_of_disabled he,
    fun s v he => exec_outlData_of_disabled he v, fun w i s t hd h => ?_⟩
  · rw [step_port hi, State.runPort, decodePort_of_ne ha hr hw]
    rfl
  · obtain ⟨p, -, hexec⟩ := decodeCommand_program hd
    rw [hexec] at h
    cases h
    exact p.run_refused s

/-! ## What the port target carries out (R111 to R113) -/

/-- Settles O11: 0x50CF8 is OUTL_ADDR's descriptor, and OUTL_ADDR is the store of CA with its record. -/
theorem outlAddrStoresLatch : Obligations.OutlAddrStoresLatch := fun _ _ => ⟨rfl, rfl⟩

/-- Settles O12: what an admitted INL_DATA leaves of the backend is what a read of the selected dword leaves. -/
theorem inlDataReadsSelectedDword : Obligations.InlDataReadsSelectedDword := fun s he =>
  ⟨_, exec_inlData_of_enabled s he, rfl, s.cfg.afterRead_of_repeatable _ _ _,
    fun p v m h => by rw [State.inlData_cfg, h, Backend.afterRead_reference]⟩

/-- Settles O13: an admitted OUTL_DATA is the backend's write at the selected dword with its record. -/
theorem outlDataWritesSelectedDword : Obligations.OutlDataWritesSelectedDword := fun s v he =>
  exec_outlData_of_enabled s he v

end Sys2Proof.Machine

/-! # The probe family: HASMF and PROBE, with their transactions and frames -/

namespace Sys2Proof.Machine

/-! ## PROBE's seven reads and the two commands as wholes (R140 to R143) -/

section
variable (b : Bus) (d : Dev) (f : Fn) (s : State)

/-- A read of one of R33's dwords leaves the backend as it was (R58). -/
theorem State.readReg_cfg_of_repeatable {o : Off} (h : repeatableDword (dwordOf o) = true) :
    (s.readReg b d f o).cfg = s.cfg :=
  (s.readReg_cfg b d f o).trans (s.cfg.afterRead_of_repeatable b d f h)

/-- PROBE's last read, of dword 15, is what ADDRW and DATA show (R25, R116). -/
theorem State.probed_regs : (s.probed b d f).regs =
    { s.regs with addrw := addrWord b d f offInterruptLine, data := s.cfg.read b d f 15 } := by
  have hdword : dwordOf offInterruptLine = 15 := rfl
  simp (disch := decide) only [State.probed, State.readReg_regs, State.readReg_cfg_of_repeatable, hdword]

/-- PROBE's reads write ADDRW and DATA and no other working register (R25, R142). -/
theorem State.accessFrame_probed_finish (r : Result) : accessFrame s ((s.probed b d f).finish r) :=
  ⟨⟨rfl, rfl, rfl, rfl, rfl⟩, rfl, rfl, rfl, by rw [State.finish_regs, State.probed_regs]⟩

theorem exec_hasmf : exec (.hasmf b d) s =
    .next ((s.readReg b d 0 offHeaderType).finish (.bool ((s.cfg.read b d 0 3).getLsbD 23))) := by
  simp only [exec, execHasmf, progHasmf, hasmfThen_run, Prog.run]

theorem exec_probe : exec (.probe b d f) s = .next ((s.probed b d f).finish (.idRecord (probed b d f s.cfg))) := by
  simp only [exec, execProbe, progProbe, probeThen_run, Prog.run, probed]

end

/-- Settles O21: HASMF is one register read at the header type's offset, whose fields the access laws give, and a return of
the multi-function flag. -/
theorem hasmfTestsMultiFunctionFlag : Obligations.HasmfTestsMultiFunctionFlag := by
  intro s b d
  exact ⟨_, exec_hasmf b d s, rfl, s.readReg_tr b d 0 offHeaderType, rfl, rfl,
    congrArg Regs.data (s.readReg_regs b d 0 offHeaderType), rfl,
    State.readReg_cfg_of_repeatable b d 0 s rfl, s.accessFrame_readReg_finish b d 0 offHeaderType _⟩

/-- Settles O22: PROBE is its seven reads, whose trace, registers and backend the laws of State.probed give, and a return of
the record built of three dwords. -/
theorem probeReadsIdentification : Obligations.ProbeReadsIdentification := by
  rintro s b d f _ _ _ rfl rfl rfl
  have hregs := State.probed_regs b d f s
  refine ⟨_, exec_probe b d f s, rfl, ?_, rfl, congrArg Regs.addrw hregs, congrArg Regs.data hregs, rfl,
    State.probed_cfg b d f s, s.accessFrame_probed_finish b d f _⟩
  simp only [List.append_assoc]
  exact State.probed_tr b d f s

/-- Settles O23: both results and both commands' records are functions of the backend alone, and every dword read is one of
R33's, so the backend stays. -/
theorem hasmfAndProbeRepeatable : Obligations.HasmfAndProbeRepeatable := by
  rintro i s s' t t' (⟨b, d, rfl⟩ | ⟨b, d, f, rfl⟩) hcfg h h'
  · rw [exec_hasmf] at h h'
    cases h; cases h'
    exact ⟨State.readReg_cfg_of_repeatable b d 0 s rfl, s.accessFrame_readReg_finish b d 0 offHeaderType _,
      by rw [State.finish_res, State.finish_res, hcfg], _, s.readReg_tr b d 0 offHeaderType,
      hcfg ▸ s'.readReg_tr b d 0 offHeaderType⟩
  · rw [exec_probe] at h h'
    cases h; cases h'
    exact ⟨State.probed_cfg b d f s, s.accessFrame_probed_finish b d f _,
      by rw [State.finish_res, State.finish_res, hcfg], _, State.probed_tr b d f s, hcfg ▸ State.probed_tr b d f s'⟩

end Sys2Proof.Machine

/-! # DECBAR: its answers, its transactions and writes, and the configuration space it leaves behind -/

namespace Sys2Proof.Machine

/-! ## What the classification of a read-back says (R168, R169) -/

section
variable {rb : Word} {lo hi : BitPos}

/-- Bit 31 decides what MSB finds (R169, R201). -/
theorem eq_31_of_highestSetBit (hhi : highestSetBit rb = some hi) : hi = 31 ↔ rb.getLsbD 31 = true := by
  obtain ⟨hset, habove⟩ := highestSetBit_eq_some.1 hhi
  have hlt := hi.isLt
  constructor
  · rintro rfl
    exact hset
  · intro h31
    have hge : ¬ hi.toNat < 31 := fun h => by rw [habove 31 h] at h31; cases h31
    exact BitVec.eq_of_toNat_eq (show hi.toNat = 31 by omega)

/-- The mask leaves bits 3:0 clear, so LSB finds position 4 or above (R166, R205). -/
theorem four_le_of_lowestSetBit {back : Word} (hlo : lowestSetBit (back &&& sizingPattern) = some lo) :
    4 ≤ lo.toNat := by
  obtain ⟨hset, -⟩ := lowestSetBit_eq_some.1 hlo
  by_contra hlt
  have hclear : ∀ j < 4, sizingPattern.getLsbD j = false := by decide
  rw [BitVec.getLsbD_and, hclear _ (Nat.lt_of_not_le hlt), Bool.and_false] at hset
  cases hset

variable (pf : Bool)

/-- The highest set bit below 31: a bad pattern (R169). -/
theorem classifyNonzero_of_ne (hhi : hi ≠ 31) : classifyNonzero pf lo hi = .malformed .badPattern :=
  if_pos (.inl hhi)

/-- The highest set bit at 31 and the lowest at 4 or above: a size (R169). -/
theorem classifyNonzero_of_bounds (hlo : 4 ≤ lo.toNat) : classifyNonzero pf lo 31 = .mem32 pf lo := by
  have hlow : ¬ lo < 4#5 := Nat.not_lt.2 hlo
  have hhigh : ¬ 31#5 < lo := Nat.not_lt.2 (Nat.le_of_lt_succ lo.isLt)
  exact if_neg (by rintro (h | h | h) <;> contradiction)

end

/-! ## The registers and the frame after DECBAR's accesses (R25, R116, R161) -/

section
variable (b : Bus) (d : Dev) (f : Fn) (idx : BarIdx) (s : State)

/-- After the header read (R161). -/
theorem decbarRegs_headed :
    decbarRegs s (s.headed b d f) b d f offHeaderType (s.cfg.read b d f 3) :=
  ⟨rfl, rfl, rfl, rfl, congrArg Regs.data (s.readReg_regs b d f offHeaderType)⟩

theorem State.barRead_data : (s.barRead b d f idx).regs.data = s.cfg.read b d f (4 + idx.setWidth 6) := by
  have hdata := congrArg Regs.data ((s.headed b d f).readReg_regs b d f (barOffset idx))
  rwa [State.headed_cfg, dwordOf_barOffset] at hdata

/-- After the BAR read, of the backend the header read has left as it was (R162). -/
theorem decbarRegs_barRead :
    decbarRegs s (s.barRead b d f idx) b d f (barOffset idx) (s.cfg.read b d f (4 + idx.setWidth 6)) :=
  ⟨rfl, rfl, rfl, rfl, State.barRead_data b d f idx s⟩

theorem State.sized_data (raw rb : Word) : (s.sized b d f idx raw rb).regs.data =
    (s.cfg.write b d f (4 + idx.setWidth 6) sizingPattern).read b d f (4 + idx.setWidth 6) := by
  have hdata := congrArg Regs.data ((((s.assign (.save raw)).writeReg b d f (barOffset idx) sizingPattern).assign
    (.probeOpen true)).readReg_regs b d f (barOffset idx))
  simp only [State.assign_cfg, State.writeReg_cfg, dwordOf_barOffset] at hdata
  exact hdata

variable {idx s}
variable (h : idx.toNat < (if (s.cfg.read b d f 3).extractLsb' 16 7 = 0 then 6 else 2)) (raw rb : Word)
include h

/-- After the probe: DATA holds the read-back of the pattern (R166). -/
theorem decbarRegs_sized :
    decbarRegs s ((s.barRead b d f idx).sized b d f idx raw rb) b d f (barOffset idx)
      ((s.cfg.write b d f (4 + idx.setWidth 6) sizingPattern).read b d f (4 + idx.setWidth 6)) :=
  ⟨rfl, rfl, rfl, rfl, by rw [State.sized_data, State.barRead_cfg b d f s idx (repeatable_of_lt_maxBar h.not_ge)]⟩

/-- Both writes go to the BAR's dword of the backend as it was (R166, R167). -/
theorem State.barRead_sized_cfg : ((s.barRead b d f idx).sized b d f idx raw rb).cfg =
    (s.cfg.write b d f (4 + idx.setWidth 6) sizingPattern).write b d f (4 + idx.setWidth 6) raw := by
  have hrep := repeatable_of_lt_maxBar h.not_ge
  rw [State.sized_cfg b d f _ idx raw rb hrep, State.barRead_cfg b d f s idx hrep]

/-- The ten transactions of a sized BAR (R173). -/
theorem State.barRead_sized_tr : ((s.barRead b d f idx).sized b d f idx raw rb).tr =
    s.tr ++ readRecords b d f offHeaderType (s.cfg.read b d f 3)
      ++ readRecords b d f (barOffset idx) (s.cfg.read b d f (4 + idx.setWidth 6))
      ++ writeRecords b d f (barOffset idx) sizingPattern
      ++ readRecords b d f (barOffset idx)
        ((s.cfg.write b d f (4 + idx.setWidth 6) sizingPattern).read b d f (4 + idx.setWidth 6))
      ++ writeRecords b d f (barOffset idx) raw := by
  rw [State.sized_tr, State.barRead_tr, State.barRead_cfg b d f s idx (repeatable_of_lt_maxBar h.not_ge)]
  rfl

end

/-! ## DECBAR as a whole -/

/-- DECBAR returns what its pseudocode hands on (R160). -/
theorem exec_decbar_of_run {b : Bus} {d : Dev} {f : Fn} {idx : BarIdx} {s t : State} {r : DecodeResult}
    (h : ∀ k, (decbarThen true b d f idx k).run s = (k r).run t) :
    exec (.decbar b d f idx) s = .next (t.finish (.decode r)) :=
  congrArg Host.Outcome.next (h _)

/-- Settles O24: an index at or above the BAR count ends DECBAR after its header read. -/
theorem decbarAbsentAfterHeaderRead : Obligations.DecbarAbsentAfterHeaderRead := by
  intro s b d f idx h
  exact ⟨_, exec_decbar_of_run fun k => decbarThen_run_absent b d f s true idx k h, rfl, State.headed_tr b d f s,
    State.headed_cfg b d f s, decbarRegs_headed b d f s, rfl, rfl, rfl, rfl, rfl, rfl, rfl,
    ⟨rfl, rfl, rfl, rfl, rfl⟩, rfl, rfl⟩

/-- Settles O25: an I/O BAR ends DECBAR after its two reads. -/
theorem decbarIoBar : Obligations.DecbarIoBar := by
  rintro s b d f idx _ h rfl hio
  exact ⟨_, exec_decbar_of_run fun k => decbarThen_run_io b d f s true idx k h.not_ge hio, rfl,
    State.barRead_tr b d f s idx, State.barRead_cfg b d f s idx (repeatable_of_lt_maxBar h.not_ge),
    decbarRegs_barRead b d f idx s, rfl, rfl, rfl, rfl, rfl, rfl, rfl, ⟨rfl, rfl, rfl, rfl, rfl⟩, rfl, rfl⟩

/-- Settles O26: a memory BAR of another type than 0 ends DECBAR after its two reads too. -/
theorem decbarUnsizedMemoryBar : Obligations.DecbarUnsizedMemoryBar := by
  rintro s b d f idx _ h rfl hio hty
  exact ⟨_, exec_decbar_of_run fun k =>
      decbarThen_run_unsized b d f s true idx k h.not_ge _ hio (unsizedWidth_of_ne hty), rfl,
    State.barRead_tr b d f s idx, State.barRead_cfg b d f s idx (repeatable_of_lt_maxBar h.not_ge),
    decbarRegs_barRead b d f idx s, rfl, rfl, rfl, rfl, rfl, rfl, rfl, ⟨rfl, rfl, rfl, rfl, rfl⟩, rfl, rfl⟩

/-! ## The sizing probe (R166 to R169) -/

/-- The state after DECBAR's bit scans, if it makes any: `n` steps of SEQ, and what LO and HI then hold (R169). -/
def State.scanned (s : State) (n : Nat) (lo hi : BitPos) : State :=
  { s with seq := s.seq + n, regs := { s.regs with lo := lo, hi := hi } }

/-- What a masked read-back `rb` makes of LO and HI, which held `lo₀` and `hi₀`, and of the result (R168, R169). -/
inductive Classified (pf : Bool) (rb : Word) (lo₀ hi₀ : BitPos) : BitPos → BitPos → DecodeResult → Prop
  /-- no scan is made -/
  | zero (hrb : rb = 0) : Classified pf rb lo₀ hi₀ lo₀ hi₀ (classifyZero pf)
  /-- both scans find a position -/
  | nonzero {lo hi : BitPos} (hrb : rb ≠ 0) (hlo : lowestSetBit rb = some lo) (hhi : highestSetBit rb = some hi) :
    Classified pf rb lo₀ hi₀ lo hi (classifyNonzero pf lo hi)

/-- DECBAR of a type-0 memory BAR: its two reads, the sizing probe, the scans and the classification. -/
theorem exec_decbar_sized {s : State} {b : Bus} {d : Dev} {f : Fn} {idx : BarIdx} {raw rb : Word}
    (h : idx.toNat < (if (s.cfg.read b d f 3).extractLsb' 16 7 = 0 then 6 else 2))
    (hraw : raw = s.cfg.read b d f (4 + idx.setWidth 6)) (hio : raw.getLsbD 0 = false) (hty : raw.extractLsb' 1 2 = 0)
    (hrb : rb = (s.cfg.write b d f (4 + idx.setWidth 6) sizingPattern).read b d f (4 + idx.setWidth 6) &&&
      sizingPattern) :
    ∃ n lo hi r, Classified (raw.getLsbD 3) rb s.regs.lo s.regs.hi lo hi r ∧ exec (.decbar b d f idx) s =
      .next ((((s.barRead b d f idx).sized b d f idx raw rb).scanned n lo hi).finish (.decode r)) := by
  have hrun := fun k => decbarThen_run_sized b d f s true idx k h.not_ge raw rb hraw hio hty hrb
  by_cases hz : rb = 0#32
  · exact ⟨0, _, _, _, .zero hz, exec_decbar_of_run fun k => (hrun k).trans (by rw [if_pos hz]; rfl)⟩
  · obtain ⟨lo, hlo⟩ := bitScan_of_ne (w := .lsb) hz
    obtain ⟨hi, hhi⟩ := bitScan_of_ne (w := .msb) hz
    refine ⟨2, lo, hi, _, .nonzero hz hlo hhi, exec_decbar_of_run fun k => (hrun k).trans ?_⟩
    rw [if_neg hz, scanThen_run _ _ hlo, run_set, scanThen_run _ _ hhi]
    rfl

/-- Settles O28: the accesses' laws give trace, backend and registers; the two ways a read-back is classified give the
rest. -/
theorem decbarSizingProbe : Obligations.DecbarSizingProbe := by
  rintro s b d f idx raw _ _ rb h hraw hio hty rfl rfl hrb
  obtain ⟨n, lo, hi, r, hclass, hexec⟩ := exec_decbar_sized h hraw hio hty hrb
  refine ⟨_, r, hexec, rfl, State.barRead_sized_cfg b d f h raw rb, hraw ▸ State.barRead_sized_tr b d f h raw rb,
    decbarRegs_sized b d f h raw rb, hraw.symm, rfl, rfl, rfl, rfl, ⟨⟨rfl, rfl, rfl, rfl, rfl⟩, rfl, rfl⟩, ?_⟩
  cases hclass with
  | zero hz =>
    exact ⟨fun _ => rfl, fun hne => absurd hz hne, fun _ => ⟨rfl, rfl⟩, fun hne => absurd hz hne,
      fun hne => absurd hz hne⟩
  | nonzero hne hlo hhi =>
    have hlow := lowestSetBit_eq_some.1 hlo
    have hhigh := highestSetBit_eq_some.1 hhi
    refine ⟨fun hz => absurd hz hne, fun _ => ⟨hlow.1, hlow.2, hhigh⟩, fun hz => absurd hz hne, fun _ h31 => ?_,
      fun _ h31 => ?_⟩
    · exact classifyNonzero_of_ne _ fun heq => by rw [(eq_31_of_highestSetBit hhi).1 heq] at h31; cases h31
    · have h4 : 4 ≤ lo.toNat := four_le_of_lowestSetBit (hrb ▸ hlo)
      obtain rfl := (eq_31_of_highestSetBit hhi).2 h31
      have hmem := classifyNonzero_of_bounds (raw.getLsbD 3) h4
      exact ⟨lo, hmem, rfl, rfl, by rw [hmem]; rfl, h4, hlow⟩

/-- Settles O27: a zero read-back is classified without a scan. -/
theorem decbarZeroReadBack : Obligations.DecbarZeroReadBack := by
  intro s b d f idx raw h hraw hio hty hback
  obtain ⟨n, lo, hi, r, hclass, hexec⟩ := exec_decbar_sized h hraw hio hty hback.symm
  cases hclass with
  | zero _ =>
    exact ⟨_, hexec, fun hpf => by rw [State.finish_res, hpf]; rfl, fun hpf => by rw [State.finish_res, hpf]; rfl,
      rfl, rfl, rfl, decbarRegs_sized b d f h raw 0⟩
  | nonzero hne _ _ => exact absurd rfl hne

/-! ## DECBAR whatever it finds (R160, R167, R173, R177) -/

/-- Settles O29: the three traces of DECBAR, cut behind the header read, and what each writes. -/
theorem decbarWritesPatternThenRaw : Obligations.DecbarWritesPatternThenRaw := by
  intro s b d f idx
  obtain ⟨r, t, l, hrun, htr, -, -, -, hl, hopen, -⟩ := decbarThen_run b d f s true idx
  have hexec := exec_decbar_of_run hrun
  obtain rfl | ⟨raw, back, hraw, rfl | rfl⟩ := hl
  · exact ⟨_, r, [], hexec, rfl, htr.trans (List.append_nil _).symm, .inl rfl, .inl rfl, hopen⟩
  · exact ⟨_, r, readRecords b d f (barOffset idx) raw, hexec, rfl, htr.trans (List.append_assoc ..).symm,
      .inr ⟨raw, 0, hraw, .inl rfl⟩, .inl rfl, hopen⟩
  · refine ⟨_, r, readRecords b d f (barOffset idx) raw ++ writeRecords b d f (barOffset idx) sizingPattern ++
      readRecords b d f (barOffset idx) back ++ writeRecords b d f (barOffset idx) raw, hexec, rfl, ?_,
      .inr ⟨raw, back, hraw, .inr rfl⟩, .inr ⟨raw, rfl⟩, hopen⟩
    simp only [State.finish_tr, htr, List.append_assoc]
    rfl

/-- Settles O30: DECBAR restores the reference backend, and what it answers depends on the backend alone. -/
theorem decbarKeepsReferenceBackend : Obligations.DecbarKeepsReferenceBackend := by
  intro s b d f idx present values masks hs hw
  obtain ⟨r, t, l, hrun, -, -, -, -, -, -, hkeep, -, -, -, -, hagain⟩ := decbarThen_run b d f s true idx
  have hcfg : t.cfg = s.cfg := hkeep present values masks hs hw
  obtain ⟨u, hrun', -, hcfg', -⟩ := hagain (t.finish (.decode r)) hcfg
  exact ⟨_, _, exec_decbar_of_run hrun, hcfg, exec_decbar_of_run hrun', rfl, hcfg'.trans hcfg⟩

/-- Settles O37: every piece of a sweep keeps the reference backend, and so does the sweep. -/
theorem enumKeepsReferenceBackend : Obligations.EnumKeepsReferenceBackend := by
  intro s t present values masks hs hw h
  obtain ⟨u, ⟨-, hkeep⟩, hrun⟩ := progEnum_run s
  cases h
  rw [hrun]
  exact hkeep present values masks hs hw

end Sys2Proof.Machine

/-! # The bit scans as commands, and their laws (43_bitscan.md) -/

namespace Sys2Proof.Machine

/-! ## What LSB and MSB do (R200 to R202) -/

section
variable {v : Word} {p : BitPos} (w : Scan) (s : State)

/-- LSB of a nonzero value is one step of SEQ, then `return` (R200). -/
theorem exec_lsb (h : lowestSetBit v = some p) : exec (.lsb v) s = .next (s.advance.finish (.bitPos p)) :=
  congrArg Host.Outcome.next (scanThen_run s true (w := .lsb) h _)

/-- MSB of a nonzero value is one step of SEQ, then `return` (R201). -/
theorem exec_msb (h : highestSetBit v = some p) : exec (.msb v) s = .next (s.advance.finish (.bitPos p)) :=
  congrArg Host.Outcome.next (scanThen_run s true (w := .msb) h _)

/-- A scan of zero is the fault entry, whatever was to follow it (R202, R251). -/
theorem scan_zero_run (k : BitPos → Prog) : (Prog.scan w 0#32 k).run s = s.raise w := by
  simp only [Prog.run, bitScan_eq_none.2 rfl]

theorem exec_lsb_zero : exec (.lsb 0#32) s = .next (s.raise .lsb) := congrArg Host.Outcome.next (scan_zero_run .lsb s _)

theorem exec_msb_zero : exec (.msb 0#32) s = .next (s.raise .msb) := congrArg Host.Outcome.next (scan_zero_run .msb s _)

theorem scanFrame_raise : scanFrame s (s.raise w) := ⟨rfl, rfl, rfl, rfl, rfl, rfl, rfl, rfl, rfl, rfl, rfl⟩

theorem scanFrame_advance_finish (r : Result) : scanFrame s (s.advance.finish r) :=
  ⟨rfl, rfl, rfl, rfl, rfl, rfl, rfl, rfl, rfl, rfl, rfl⟩

end

/-- Settles O9: both scans of zero are the fault entry. -/
theorem zeroScanTakesFault : Obligations.ZeroScanTakesFault := by
  intro s
  exact ⟨⟨_, exec_lsb_zero s, s.raise_fault .lsb, s.raise_mode .lsb, s.raise_res .lsb, s.raise_seq .lsb,
      scanFrame_raise .lsb s⟩,
    ⟨_, exec_msb_zero s, s.raise_fault .msb, s.raise_mode .msb, s.raise_res .msb, s.raise_seq .msb,
      scanFrame_raise .msb s⟩, rfl⟩

/-- Settles O31: a nonzero operand has a lowest and a highest set bit, and a scan that finds a position returns it. -/
theorem scansReturnBitPositions : Obligations.ScansReturnBitPositions := by
  intro s v hv
  obtain ⟨lo, hlo⟩ := bitScan_of_ne (w := .lsb) hv
  obtain ⟨hi, hhi⟩ := bitScan_of_ne (w := .msb) hv
  obtain ⟨hloSet, hbelow⟩ := lowestSetBit_eq_some.1 hlo
  obtain ⟨hhiSet, habove⟩ := highestSetBit_eq_some.1 hhi
  exact ⟨⟨_, lo, exec_lsb s hlo, rfl, hloSet, hbelow, rfl, rfl, scanFrame_advance_finish s _⟩,
    ⟨_, hi, exec_msb s hhi, rfl, hhiSet, habove, rfl, rfl, scanFrame_advance_finish s _⟩⟩

/-! ## The masks of R205 -/

/-- The bits of the mask `(1 << n) - 1`. -/
theorem getLsbD_lowMask {w n : Nat} (hn : n < w) (j : Nat) :
    ((1#w <<< n) - 1#w).getLsbD j = decide (j < n) := by
  have hone : 1 < 2 ^ w := Nat.one_lt_two_pow (by omega)
  have hpow : 1#w <<< n = BitVec.ofNat w (2 ^ n) :=
    BitVec.eq_of_toNat_eq (by rw [← BitVec.twoPow_eq, BitVec.toNat_twoPow, BitVec.toNat_ofNat])
  rw [hpow, BitVec.ofNat_sub_ofNat_of_le _ _ hone Nat.one_le_two_pow, BitVec.getLsbD_ofNat,
    Nat.testBit_two_pow_sub_one, Bool.and_eq_right_iff_imp, decide_eq_true_iff, decide_eq_true_iff]
  exact fun hj => hj.trans hn

/-- A word whose bits below `n` are clear has none in common with the mask. -/
theorem and_lowMask_eq_zero_of_clear {w n : Nat} {v : BitVec w} (hn : n < w) (h : ∀ j < n, v.getLsbD j = false) :
    v &&& ((1#w <<< n) - 1#w) = 0#w := by
  refine BitVec.eq_of_getLsbD_eq fun j _ => ?_
  rw [BitVec.getLsbD_and, getLsbD_lowMask hn, BitVec.getLsbD_zero]
  by_cases hj : j < n
  · rw [h j hj, Bool.false_and]
  · rw [decide_eq_false hj, Bool.and_false]

/-- A word shifted right by `n` is zero when its bits from `n` up are clear. -/
theorem ushiftRight_eq_zero_of_clear {w n : Nat} {v : BitVec w} (h : ∀ j, n ≤ j → v.getLsbD j = false) :
    v >>> n = 0#w :=
  BitVec.eq_of_getLsbD_eq fun j _ => by simp [h]

/-! ## The two scans against each other (R205) -/

section
variable {v : Word} {lo hi p : BitPos}

theorem lowestSetBit_le_highestSetBit (hlo : lowestSetBit v = some lo) (hhi : highestSetBit v = some hi) : lo ≤ hi := by
  obtain ⟨-, hbelow⟩ := lowestSetBit_eq_some.1 hlo
  obtain ⟨hset, -⟩ := highestSetBit_eq_some.1 hhi
  by_contra hlt
  rw [hbelow hi.toNat (Nat.lt_of_not_le hlt)] at hset
  cases hset

/-- Both scans find `p` exactly in the word whose one set bit is `p`. -/
theorem scans_eq_iff : (lowestSetBit v = some p ∧ highestSetBit v = some p) ↔ v = 1#32 <<< p.toNat := by
  rw [lowestSetBit_eq_some, highestSetBit_eq_some, ← BitVec.twoPow_eq]
  have hp : p.toNat < 32 := p.isLt
  constructor
  · rintro ⟨⟨hset, hbelow⟩, -, habove⟩
    refine BitVec.eq_of_getLsbD_eq fun j _ => ?_
    rw [BitVec.getLsbD_twoPow]
    obtain hj | rfl | hj := Nat.lt_trichotomy j p.toNat
    · simp [hbelow j hj, hj.ne']
    · simp [hset, hp]
    · simp [habove j hj, hj.ne]
  · rintro rfl
    simp only [BitVec.getLsbD_twoPow]
    exact ⟨⟨by simp [hp], fun j hj => by simp [hj.ne']⟩, by simp [hp], fun j hj => by simp [hj.ne]⟩

/-- LSB and MSB agree exactly on the powers of two. -/
theorem scans_agree_iff (hlo : lowestSetBit v = some lo) (hhi : highestSetBit v = some hi) :
    lo = hi ↔ ∃ n < 32, v = 1#32 <<< n := by
  constructor
  · rintro rfl
    exact ⟨lo.toNat, lo.isLt, scans_eq_iff.1 ⟨hlo, hhi⟩⟩
  · rintro ⟨n, hn, hv⟩
    have hp : (BitVec.ofNat 5 n).toNat = n := Nat.mod_eq_of_lt hn
    obtain ⟨hlo', hhi'⟩ := scans_eq_iff.2 (hp.symm ▸ hv)
    exact Option.some.inj (hlo.symm.trans (hlo'.trans (hhi'.symm.trans hhi)))

end

/-- Settles O32: each law from what the two scans find. -/
theorem bitScanLaws : Obligations.BitScanLaws := by
  intro v hv
  obtain ⟨lo, hlo⟩ := bitScan_of_ne (w := .lsb) hv
  obtain ⟨hi, hhi⟩ := bitScan_of_ne (w := .msb) hv
  obtain ⟨hloSet, hbelow⟩ := lowestSetBit_eq_some.1 hlo
  obtain ⟨hhiSet, habove⟩ := highestSetBit_eq_some.1 hhi
  refine ⟨lo, hi, hlo, hhi, lowestSetBit_le_highestSetBit hlo hhi, hloSet, hhiSet,
    and_lowMask_eq_zero_of_clear lo.isLt hbelow, fun _ => ushiftRight_eq_zero_of_clear habove, scans_agree_iff hlo hhi,
    ?_, fun hne => ?_⟩
  · rintro rfl
    exact scans_eq_iff.1 ⟨hlo, hhi⟩
  · obtain ⟨p, hp⟩ := bitScan_of_ne (w := .lsb) hne
    exact ⟨p, hp, four_le_of_lowestSetBit hp⟩

end Sys2Proof.Machine

/-! # ENUM: what a sweep lists, reports and transacts (R220 to R232) -/

namespace Sys2Proof.Machine

/-! ## The port base of a descriptor (R225) -/

theorem DecodeResult.ioBase?_eq_some {r : DecodeResult} {v : Word} : r.ioBase? = some v ↔ r = .io v := by
  cases r <;> simp [DecodeResult.ioBase?]

theorem DecodeResult.ioBase?_eq_none {r : DecodeResult} : r.ioBase? = none ↔ ∀ v, r ≠ .io v := by
  cases r <;> simp [DecodeResult.ioBase?]

/-- The six results in slot order. -/
def Bars.slots (b : Bars) : List DecodeResult := [b.bar0, b.bar1, b.bar2, b.bar3, b.bar4, b.bar5]

theorem Bars.portBase_eq (b : Bars) : b.portBase = b.slots.findSome? DecodeResult.ioBase? :=
  (List.findSome?_map (l := b.indexed) (f := Prod.snd) (p := DecodeResult.ioBase?)).symm

/-- The first base in a list of results stands at the lowest index with an I/O BAR. -/
theorem findSome?_ioBase?_eq_some {slots : List DecodeResult} {v : Word} :
    slots.findSome? DecodeResult.ioBase? = some v ↔
      ∃ i : Nat, slots[i]? = some (.io v) ∧ ∀ j < i, ∀ w, slots[j]? ≠ some (.io w) := by
  rw [List.findSome?_eq_some_iff]
  constructor
  · rintro ⟨before, r, after, rfl, hr, hnone⟩
    obtain rfl := DecodeResult.ioBase?_eq_some.1 hr
    refine ⟨before.length, by simp, fun j hj w hw => ?_⟩
    rw [List.getElem?_append_left hj] at hw
    exact DecodeResult.ioBase?_eq_none.1 (hnone _ (List.mem_of_getElem? hw)) w rfl
  · rintro ⟨i, hi, hfirst⟩
    obtain ⟨hlt, hget⟩ := List.getElem?_eq_some_iff.1 hi
    refine ⟨slots.take i, .io v, slots.drop (i + 1), ?_, rfl, fun r hr => DecodeResult.ioBase?_eq_none.2 ?_⟩
    · rw [← hget, List.getElem_cons_drop, List.take_append_drop]
    · rintro w rfl
      obtain ⟨j, hj, e⟩ := List.mem_take_iff_getElem.1 hr
      exact hfirst j (by omega) w (List.getElem?_eq_some_iff.2 ⟨by omega, e⟩)

/-- Presence is a matter of the vendor alone (R146). -/
theorem IdRecord.present_iff (r : IdRecord) :
    r.present = true ↔ r.vendorId ≠ 0x0000#16 ∧ r.vendorId ≠ 0xFFFF#16 := by
  simp [IdRecord.present, vendorPresent]

/-! ## What a stretch of a sweep does -/

/-- A reference backend with canonical memories, which DECBAR leaves as it was (R167). -/
def Backend.Canonical (c : Backend) : Prop := ∃ p v m, c = .reference p v m ∧ c.wf = true

/-- From `s` to `t` the descriptors `l` are listed and reported, in at least `c` port transactions: no fault, no
refusal, no window left open, and a canonical reference backend as it was. -/
structure Lists (c : Nat) (l : List DeviceDescriptor) (s t : State) : Prop where
  devList : t.sweep.devList = s.sweep.devList ++ l
  devCount : t.sweep.devCount = s.sweep.devCount + l.length
  evt : t.evt = s.evt ++ l.flatMap deviceEvents
  frame : commandFrame s t
  closed : s.probeOpen = false → t.probeOpen = false
  tr : s.tr.length + c ≤ t.tr.length
  cfg : s.cfg.Canonical → t.cfg = s.cfg

theorem commandFrame.trans {s t u : State} (h : commandFrame s t) (h' : commandFrame t u) : commandFrame s u := by
  obtain ⟨hcmd, hfault, hrefused, hinputs, hresets⟩ := h
  obtain ⟨hcmd', hfault', hrefused', hinputs', hresets'⟩ := h'
  exact ⟨hcmd'.trans hcmd, hfault'.trans hfault, hrefused'.trans hrefused, hinputs'.trans hinputs,
    hresets'.trans hresets⟩

section
variable {c c' : Nat} {l l' : List DeviceDescriptor} {s t u : State}

/-- A stretch that lists nothing: of the enumeration state it may move the cursor. -/
theorem Lists.of_nil (hlist : t.sweep.devList = s.sweep.devList) (hcount : t.sweep.devCount = s.sweep.devCount)
    (hevt : t.evt = s.evt) (hframe : commandFrame s t) (hclosed : s.probeOpen = false → t.probeOpen = false)
    (htr : s.tr.length + c ≤ t.tr.length) (hcfg : s.cfg.Canonical → t.cfg = s.cfg) : Lists c [] s t :=
  ⟨by simp [hlist], hcount, by simp [hevt], hframe, hclosed, htr, hcfg⟩

theorem Lists.refl (s : State) : Lists 0 [] s s :=
  .of_nil rfl rfl rfl ⟨rfl, rfl, rfl, rfl, rfl⟩ id (Nat.le_refl _) fun _ => rfl

theorem Lists.trans (h : Lists c l s t) (h' : Lists c' l' t u) : Lists (c + c') (l ++ l') s u where
  devList := by rw [h'.devList, h.devList, List.append_assoc]
  devCount := by rw [h'.devCount, h.devCount, List.length_append, Nat.add_assoc]
  evt := by rw [h'.evt, h.evt, List.flatMap_append, List.append_assoc]
  frame := h.frame.trans h'.frame
  closed := h'.closed ∘ h.closed
  tr := by have := h.tr; have := h'.tr; omega
  cfg := fun hc => (h'.cfg ((h.cfg hc).symm ▸ hc)).trans (h.cfg hc)

theorem Lists.mono (h : Lists c l s t) (hc : c' ≤ c) : Lists c' l s t :=
  { h with tr := (Nat.add_le_add_left hc _).trans h.tr }

end

/-- Descriptors of present functions with places from `lo` up to `hi`, ascending, each with the port base of its slots
(R222, R223, R225). -/
structure InOrder (lo hi : Nat) (l : List DeviceDescriptor) : Prop where
  ascending : l.Pairwise fun x y => x.id.place < y.id.place
  bounds : ∀ x ∈ l, lo ≤ x.id.place ∧ x.id.place < hi
  present : ∀ x ∈ l, x.id.present = true
  portBase : ∀ x ∈ l, x.portBase = x.bars.portBase

section
variable {lo mid hi : Nat} {l l' : List DeviceDescriptor}

theorem InOrder.nil : InOrder lo hi [] := by
  constructor <;> simp

theorem InOrder.singleton {x : DeviceDescriptor} (hlo : lo ≤ x.id.place) (hhi : x.id.place < hi)
    (hp : x.id.present = true) (hb : x.portBase = x.bars.portBase) : InOrder lo hi [x] := by
  constructor <;> simp [hlo, hhi, hp, hb]

theorem InOrder.mono {lo' hi' : Nat} (h : InOrder lo hi l) (hlo : lo' ≤ lo) (hhi : hi ≤ hi') : InOrder lo' hi' l :=
  { h with bounds := fun x hx => ⟨hlo.trans (h.bounds x hx).1, (h.bounds x hx).2.trans_le hhi⟩ }

theorem InOrder.append (h : InOrder lo mid l) (h' : InOrder mid hi l') (hlo : lo ≤ mid) (hhi : mid ≤ hi) :
    InOrder lo hi (l ++ l') where
  ascending := List.pairwise_append.2 ⟨h.ascending, h'.ascending, fun x hx y hy =>
    (h.bounds x hx).2.trans_le (h'.bounds y hy).1⟩
  bounds := fun x hx => (List.mem_append.1 hx).elim ((h.mono (Nat.le_refl lo) hhi).bounds x)
    ((h'.mono hlo (Nat.le_refl hi)).bounds x)
  present := fun x hx => (List.mem_append.1 hx).elim (h.present x) (h'.present x)
  portBase := fun x hx => (List.mem_append.1 hx).elim (h.portBase x) (h'.portBase x)

/-- Places are numbers, so an interval holds no more of them than it is long. -/
theorem InOrder.length_le (h : InOrder lo hi l) : l.length ≤ hi - lo := by
  have hnodup : (l.map (·.id.place)).Nodup :=
    List.Pairwise.map _ (fun _ _ hlt => Nat.ne_of_lt hlt) h.ascending
  have hsub : (l.map (·.id.place)).toFinset ⊆ Finset.Ico lo hi := fun n hn => by
    obtain ⟨x, hx, rfl⟩ := by simpa using hn
    exact Finset.mem_Ico.2 (h.bounds x hx)
  simpa [List.toFinset_card_of_nodup hnodup] using Finset.card_le_card hsub

end

/-- A stretch of the sweep over the places from `lo` up to `hi`, in at least `c` port transactions; from a canonical
reference backend it lists exactly what `F` says of that backend. -/
def Sweeps (lo hi c : Nat) (F : Backend → List DeviceDescriptor) (s t : State) : Prop :=
  ∃ l, Lists c l s t ∧ InOrder lo hi l ∧ (s.cfg.Canonical → l = F s.cfg)

theorem Sweeps.trans {lo mid hi c c' : Nat} {F F' : Backend → List DeviceDescriptor} {s t u : State}
    (h : Sweeps lo mid c F s t) (h' : Sweeps mid hi c' F' t u) (hlo : lo ≤ mid) (hhi : mid ≤ hi) :
    Sweeps lo hi (c + c') (fun b => F b ++ F' b) s u := by
  obtain ⟨l, hl, ho, hF⟩ := h
  obtain ⟨l', hl', ho', hF'⟩ := h'
  refine ⟨l ++ l', hl.trans hl', ho.append ho' hlo hhi, fun hc => ?_⟩
  have hcfg := hl.cfg hc
  rw [hF hc, hF' (hcfg.symm ▸ hc), hcfg]

theorem Sweeps.mono {lo lo' hi hi' c c' : Nat} {F F' : Backend → List DeviceDescriptor} {s t : State}
    (h : Sweeps lo hi c F s t) (hlo : lo' ≤ lo) (hhi : hi ≤ hi') (hc : c' ≤ c) (hF : F s.cfg = F' s.cfg) :
    Sweeps lo' hi' c' F' s t := by
  obtain ⟨l, hl, ho, hl'⟩ := h
  exact ⟨l, hl.mono hc, ho.mono hlo hhi, fun hcan => (hl' hcan).trans hF⟩

/-- What comes before a stretch without listing anything belongs to it. -/
theorem Sweeps.after {lo hi c c' : Nat} {F : Backend → List DeviceDescriptor} {s t u : State}
    (h : Lists c [] s t) (h' : Sweeps lo hi c' F t u) : Sweeps lo hi (c + c') F s u := by
  obtain ⟨l, hl, ho, hF⟩ := h'
  refine ⟨l, h.trans hl, ho, fun hc => ?_⟩
  have hcfg := h.cfg hc
  rw [hF (hcfg.symm ▸ hc), hcfg]

/-- A loop whose rounds sweep adjacent intervals of `width` places sweeps them all (R222). -/
theorem forEach_sweeps {w : Nat} {body : BitVec w → Prog → Prog} {base width c : Nat}
    {F : BitVec w → Backend → List DeviceDescriptor}
    (h : ∀ x s, ∃ t, (∀ rest, (body x rest).run s = rest.run t) ∧
      Sweeps (base + x.toNat * width) (base + (x.toNat + 1) * width) c (F x) s t)
    {xs : List (BitVec w)} (hxs : ∀ (n : Nat) x, xs[n]? = some x → x.toNat = n) (s : State) :
    ∃ t, (∀ k, (forEach xs body k).run s = k.run t) ∧
      Sweeps base (base + xs.length * width) (xs.length * c) (fun b => xs.flatMap (F · b)) s t := by
  obtain ⟨t, hrun, hS⟩ := forEach_run body _ h
    (fun n => Sweeps base (base + n * width) (n * c) fun b => (xs.take n).flatMap (F · b))
    (fun s => ⟨[], by simpa using Lists.refl s, .nil, fun _ => rfl⟩) xs (fun n x s t u hn hst htu => by
      rw [hxs n x hn] at htu
      have := hst.trans htu (Nat.le_add_right ..) (Nat.add_le_add_left (Nat.mul_le_mul_right _ (Nat.le_succ n)) _)
      simpa [List.take_add_one, hn, Nat.add_mul] using this) s
  exact ⟨t, hrun, by simpa using hS⟩

/-! ## What DECBAR answers, by the backend alone (R160 to R172) -/

/-- The classification of a masked read-back: zero is the one value the scans find nothing in (R168, R169). -/
def classify (pf : Bool) (rb : Word) : DecodeResult :=
  match lowestSetBit rb, highestSetBit rb with
  | some lo, some hi => classifyNonzero pf lo hi
  | _, _ => classifyZero pf

theorem classify_zero (pf : Bool) : classify pf 0#32 = classifyZero pf := rfl

theorem classify_of_scans {pf : Bool} {rb : Word} {lo hi : BitPos} (hlo : lowestSetBit rb = some lo)
    (hhi : highestSetBit rb = some hi) : classify pf rb = classifyNonzero pf lo hi := by
  rw [classify, hlo, hhi]

section
variable (c : Backend) (bus : Bus) (dev : Dev) (fn : Fn) (idx : BarIdx)

/-- What the sizing write leaves to be read back of a BAR, under the mask (R166). -/
def sizedReadBack : Word :=
  (c.write bus dev fn (4 + idx.setWidth 6) sizingPattern).read bus dev fn (4 + idx.setWidth 6) &&& sizingPattern

/-- The result of a slot whose register reads `raw` (R163 to R172). -/
def decodedRaw (raw : Word) : DecodeResult :=
  if raw.getLsbD 0 = true then .io (ioBase raw)
  else
    match unsizedWidth (raw.extractLsb' 1 2) with
    | some width => .memUnsized width (raw.getLsbD 3)
    | none => classify (raw.getLsbD 3) (sizedReadBack c bus dev fn idx)

/-- DECBAR's result. -/
def decoded : DecodeResult :=
  if (if (c.read bus dev fn 3).extractLsb' 16 7 = 0 then 6 else 2) ≤ idx.toNat then .absent
  else decodedRaw c bus dev fn idx (c.read bus dev fn (4 + idx.setWidth 6))

end

section
variable (bus : Bus) (dev : Dev) (fn : Fn) (s : State)

/-- DECBAR goes on with that result, whether or not its scans are steps of SEQ (log 7). -/
theorem decbarThen_run_decoded (counted : Bool) (idx : BarIdx) : ∃ t, ∀ k,
    (decbarThen counted bus dev fn idx k).run s = (k (decoded s.cfg bus dev fn idx)).run t := by
  by_cases h : (if (s.cfg.read bus dev fn 3).extractLsb' 16 7 = 0 then 6 else 2) ≤ idx.toNat
  · exact ⟨_, fun k => by rw [decbarThen_run_absent _ _ _ _ _ _ k h, decoded, if_pos h]⟩
  rw [decoded, if_neg h, decodedRaw]
  by_cases hio : (s.cfg.read bus dev fn (4 + idx.setWidth 6)).getLsbD 0 = true
  · exact ⟨_, fun k => by rw [decbarThen_run_io _ _ _ _ _ _ k h hio, if_pos hio]⟩
  rw [if_neg hio]
  rw [Bool.not_eq_true] at hio
  cases hw : unsizedWidth ((s.cfg.read bus dev fn (4 + idx.setWidth 6)).extractLsb' 1 2) with
  | some width => exact ⟨_, fun k => decbarThen_run_unsized _ _ _ _ _ _ k h width hio hw⟩
  | none =>
    have hty : (s.cfg.read bus dev fn (4 + idx.setWidth 6)).extractLsb' 1 2 = 0 := by
      by_contra hne
      rw [unsizedWidth_of_ne hne] at hw
      cases hw
    have hrun := fun k =>
      decbarThen_run_sized bus dev fn s counted idx k h _ (sizedReadBack s.cfg bus dev fn idx) rfl hio hty rfl
    change ∃ t, ∀ k : DecodeResult → Prog, _ = (k (classify _ (sizedReadBack s.cfg bus dev fn idx))).run t
    by_cases hz : sizedReadBack s.cfg bus dev fn idx = 0#32
    · exact ⟨_, fun k => by rw [hrun, if_pos hz, hz, classify_zero]⟩
    · obtain ⟨lo, hlo⟩ := bitScan_of_ne (w := .lsb) hz
      obtain ⟨hi, hhi⟩ := bitScan_of_ne (w := .msb) hz
      exact ⟨_, fun k => by
        rw [hrun, if_neg hz, classify_of_scans hlo hhi, scanThen_run _ _ hlo, run_set, scanThen_run _ _ hhi, run_set]⟩

theorem exec_decbar_decoded (idx : BarIdx) : ∃ u, exec (.decbar bus dev fn idx) s = .next u ∧
    u.res = some (.decode (decoded s.cfg bus dev fn idx)) := by
  obtain ⟨t, ht⟩ := decbarThen_run_decoded bus dev fn s true idx
  exact ⟨_, exec_decbar_of_run ht, rfl⟩

/-! ## The pieces of a sweep -/

/-- One slot lists nothing and goes on with DECBAR's result. -/
theorem slotThen_run_lists (i : Fin 6) {idx : BarIdx} (hidx : BitVec.ofNat 3 i.val = idx) : ∃ t,
    (∀ k, (slotThen bus dev fn i k).run s = (k (decoded s.cfg bus dev fn idx)).run t) ∧ Lists 0 [] s t := by
  subst hidx
  obtain ⟨r, t, l, hrun, htr, -, -, -, -, hclosed, hcfg, -, ⟨hframe, hsweep, hevt⟩, -⟩ :=
    decbarThen_run bus dev fn (s.assign (.barc i)) false (BitVec.ofNat 3 i.val)
  obtain ⟨t', ht'⟩ := decbarThen_run_decoded bus dev fn (s.assign (.barc i)) false (BitVec.ofNat 3 i.val)
  obtain rfl : r = decoded s.cfg bus dev fn (BitVec.ofNat 3 i.val) := by
    have := congrArg State.res ((hrun decodeResult).symm.trans (ht' decodeResult))
    simpa [decodeResult, Prog.run] using this
  refine ⟨t, fun k => by rw [slotThen, run_set, hrun], .of_nil (by rw [hsweep]; rfl) (by rw [hsweep]; rfl) hevt hframe
    hclosed (by simp [htr]) ?_⟩
  rintro ⟨p, v, m, hs, hw⟩
  exact hcfg p v m hs hw

/-- The results of a function's six slots. -/
def decodedBars (c : Backend) : Bars :=
  ⟨decoded c bus dev fn 0, decoded c bus dev fn 1, decoded c bus dev fn 2, decoded c bus dev fn 3,
    decoded c bus dev fn 4, decoded c bus dev fn 5⟩

theorem decodedBars_indexed (c : Backend) :
    (decodedBars bus dev fn c).indexed = [0, 1, 2, 3, 4, 5].map fun idx => (idx, decoded c bus dev fn idx) := rfl

/-- The six slots list nothing; on a backend that DECBAR leaves as it was, each is decoded from the same one (R224). -/
theorem barsThen_run_lists : ∃ bars t, (∀ k, (barsThen bus dev fn k).run s = (k bars).run t) ∧ Lists 0 [] s t ∧
    (s.cfg.Canonical → bars = decodedBars bus dev fn s.cfg) := by
  obtain ⟨t0, h0, l0⟩ := slotThen_run_lists bus dev fn s 0 (idx := 0) rfl
  obtain ⟨t1, h1, l1⟩ := slotThen_run_lists bus dev fn t0 1 (idx := 1) rfl
  obtain ⟨t2, h2, l2⟩ := slotThen_run_lists bus dev fn t1 2 (idx := 2) rfl
  obtain ⟨t3, h3, l3⟩ := slotThen_run_lists bus dev fn t2 3 (idx := 3) rfl
  obtain ⟨t4, h4, l4⟩ := slotThen_run_lists bus dev fn t3 4 (idx := 4) rfl
  obtain ⟨t5, h5, l5⟩ := slotThen_run_lists bus dev fn t4 5 (idx := 5) rfl
  have l1 := l0.trans l1
  have l2 := l1.trans l2
  have l3 := l2.trans l3
  have l4 := l3.trans l4
  refine ⟨_, t5, fun k => (h0 _).trans <| (h1 _).trans <| (h2 _).trans <| (h3 _).trans <| (h4 _).trans (h5 _),
    l4.trans l5, fun hc => ?_⟩
  rw [l0.cfg hc, l1.cfg hc, l2.cfg hc, l3.cfg hc, l4.cfg hc]
  rfl

/-- What a sweep over a backend that keeps its values lists of one function (R223, R224). -/
def found (c : Backend) : List DeviceDescriptor :=
  if (probed bus dev fn c).present = true then [describe (probed bus dev fn c) (decodedBars bus dev fn c)] else []

/-- PROBE's reads list nothing. -/
theorem lists_probed : Lists 14 [] s ((s.assign (.fnc fn)).probed bus dev fn) :=
  .of_nil rfl rfl rfl ⟨rfl, rfl, rfl, rfl, rfl⟩ id (by simp [State.probed_tr]) fun _ => by simp [State.probed_cfg]

theorem lists_report (id : IdRecord) (bars : Bars) : Lists 0 [describe id bars] s (s.assign (.report id bars)) where
  devList := rfl
  devCount := rfl
  evt := by simp [← deviceEvents_eq, State.assign]
  frame := ⟨rfl, rfl, rfl, rfl, rfl⟩
  closed := fun h => h
  tr := Nat.le_refl _
  cfg := fun _ => rfl

/-- A present function has its slots decoded and is reported (R223, R224). -/
theorem sweepFn_run_present (hp : (probed bus dev fn s.cfg).present = true) (rest : Prog) :
    (sweepFn bus dev fn rest).run s =
      (barsThen bus dev fn fun bars => .set (.report (probed bus dev fn s.cfg) bars) rest).run
        ((s.assign (.fnc fn)).probed bus dev fn) := by
  rw [sweepFn, run_set, probeThen_run, State.assign_cfg]
  exact congrArg (Prog.run · _) (if_pos hp)

/-- An absent function is skipped after its PROBE (R223). -/
theorem sweepFn_run_absent (hp : (probed bus dev fn s.cfg).present = false) (rest : Prog) :
    (sweepFn bus dev fn rest).run s = rest.run ((s.assign (.fnc fn)).probed bus dev fn) := by
  rw [sweepFn, run_set, probeThen_run, State.assign_cfg]
  exact congrArg (Prog.run · _) (if_neg (Bool.eq_false_iff.1 hp))

/-- A device is its HASMF, then its functions (R220, R232). -/
theorem sweepDev_run_flagged (rest : Prog) : (sweepDev bus dev rest).run s =
    (forEach (fnCount ((s.cfg.read bus dev 0 3).getLsbD 23)).fns (sweepFn bus dev) rest).run (s.flagged bus dev) := by
  rw [sweepDev, run_set, hasmfThen_run, run_set, State.assign_cfg]
  rfl

/-- One function. -/
theorem sweepFn_run_sweeps : ∃ t, (∀ rest, (sweepFn bus dev fn rest).run s = rest.run t) ∧
    Sweeps ((bus.toNat * 32 + dev.toNat) * 8 + fn.toNat) ((bus.toNat * 32 + dev.toNat) * 8 + fn.toNat + 1) 14
      (found bus dev fn) s t := by
  have hprobe := lists_probed bus dev fn s
  cases hp : (probed bus dev fn s.cfg).present with
  | true =>
    obtain ⟨bars, t, hrun, hbars, hdec⟩ := barsThen_run_lists bus dev fn ((s.assign (.fnc fn)).probed bus dev fn)
    refine ⟨_, fun rest => (sweepFn_run_present bus dev fn s hp rest).trans (hrun _), _,
      (hprobe.trans hbars).trans (lists_report t _ bars),
      InOrder.singleton (Nat.le_refl _) (Nat.lt_succ_self _) hp rfl, fun hc => ?_⟩
    have hcfg := hprobe.cfg hc
    rw [found, if_pos hp, hdec (hcfg.symm ▸ hc), hcfg]
    rfl
  | false =>
    exact ⟨_, sweepFn_run_absent bus dev fn s hp, [], hprobe, .nil, fun _ => (if_neg (Bool.eq_false_iff.1 hp)).symm⟩

/-- What such a sweep lists of one device: HASMF is done once and says which functions are probed (R220, R232). -/
def foundDev (c : Backend) : List DeviceDescriptor :=
  (fnCount ((c.read bus dev 0 3).getLsbD 23)).fns.flatMap fun fn => found bus dev fn c

/-- What such a sweep lists of one bus (R222). -/
def foundBus (c : Backend) : List DeviceDescriptor := allDevs.flatMap fun dev => foundDev bus dev c

/-- What such a sweep lists (R222). -/
def foundAll (c : Backend) : List DeviceDescriptor := allBuses.flatMap fun bus => foundBus bus c

/-- HASMF's read and the assignments around it list nothing. -/
theorem lists_flagged : Lists 2 [] s (s.flagged bus dev) :=
  .of_nil rfl rfl rfl ⟨rfl, rfl, rfl, rfl, rfl⟩ id (by simp [State.flagged]) fun _ => State.flagged_cfg bus dev s

/-! ## The loops of a sweep (R220, R222) -/

theorem FnCount.toNat_of_getElem? {n : FnCount} {i : Nat} {fn : Fn} (h : n.fns[i]? = some fn) : fn.toNat = i := by
  cases n with
  | one => match i, h with
    | 0, h => cases h; rfl
  | eight => match i, h with
    | 0, h | 1, h | 2, h | 3, h | 4, h | 5, h | 6, h | 7, h => cases h; rfl

theorem toNat_of_getElem?_range {w n i : Nat} (hn : n ≤ 2 ^ w) {x : BitVec w}
    (h : ((List.range n).map (BitVec.ofNat w))[i]? = some x) : x.toNat = i := by
  obtain ⟨hi, rfl⟩ := List.getElem?_eq_some_iff.1 h
  have hi : i < n := by simpa using hi
  rw [List.getElem_map, List.getElem_range, BitVec.toNat_ofNat, Nat.mod_eq_of_lt (hi.trans_le hn)]

theorem fnCount_fns_length (mf : Bool) : 1 ≤ (fnCount mf).fns.length ∧ (fnCount mf).fns.length ≤ 8 := by
  cases mf <;> decide

theorem allDevs_length : allDevs.length = 32 := by simp [allDevs]

theorem allBuses_length : allBuses.length = 256 := by simp [allBuses]

/-- One device: HASMF's two transactions and PROBE's fourteen for each of its one or eight functions. -/
theorem sweepDev_run_sweeps : ∃ t, (∀ rest, (sweepDev bus dev rest).run s = rest.run t) ∧
    Sweeps (bus.toNat * 256 + dev.toNat * 8) (bus.toNat * 256 + (dev.toNat + 1) * 8) 16 (foundDev bus dev) s t := by
  have hn := fnCount_fns_length ((s.cfg.read bus dev 0 3).getLsbD 23)
  obtain ⟨t, hrun, hfns⟩ := forEach_sweeps (body := sweepFn bus dev) (base := (bus.toNat * 32 + dev.toNat) * 8)
    (width := 1) (c := 14) (F := found bus dev)
    (fun fn s =>
      let ⟨t, hrun, h⟩ := sweepFn_run_sweeps bus dev fn s
      ⟨t, hrun, h.mono (by omega) (by omega) (Nat.le_refl _) rfl⟩)
    (fun _ _ => FnCount.toNat_of_getElem?) (s.flagged bus dev)
  exact ⟨t, fun rest => (sweepDev_run_flagged bus dev s rest).trans (hrun rest),
    (hfns.after (lists_flagged bus dev s)).mono (by omega) (by omega) (by omega) rfl⟩

/-- One bus. -/
theorem sweepBus_run_sweeps : ∃ t, (∀ rest, (sweepBus bus rest).run s = rest.run t) ∧
    Sweeps (bus.toNat * 256) ((bus.toNat + 1) * 256) 512 (foundBus bus) s t := by
  obtain ⟨t, hrun, hdevs⟩ := forEach_sweeps (sweepDev_run_sweeps bus) (xs := allDevs)
    (fun _ _ => toNat_of_getElem?_range (by decide)) (s.assign (.busc bus))
  have hcursor : Lists 0 [] s (s.assign (.busc bus)) :=
    .of_nil rfl rfl rfl ⟨rfl, rfl, rfl, rfl, rfl⟩ id (Nat.le_refl _) fun _ => rfl
  refine ⟨t, hrun, (hdevs.after hcursor).mono (Nat.le_refl _) ?_ ?_ rfl⟩ <;> rw [allDevs_length]
  omega

/-- The whole sweep, up to its Total event. -/
theorem progEnum_run_sweeps : ∃ t,
    progEnum.run s = (t.assign .total).finish (.sweep t.sweep.devList t.sweep.devCount) ∧
    Sweeps 0 65536 131072 foundAll (s.assign .startSweep) t := by
  obtain ⟨t, hrun, hbuses⟩ := forEach_sweeps (body := sweepBus) (base := 0) (width := 256) (c := 512) (F := foundBus)
    (fun bus s =>
      let ⟨t, hrun, h⟩ := sweepBus_run_sweeps bus s
      ⟨t, hrun, h.mono (by omega) (by omega) (Nat.le_refl _) rfl⟩)
    (xs := allBuses) (fun _ _ => toNat_of_getElem?_range (by decide)) (s.assign .startSweep)
  refine ⟨t, hrun _, hbuses.mono (Nat.le_refl _) ?_ ?_ rfl⟩ <;> rw [allBuses_length]

end

/-! ## What ENUM answers, lists, reports and transacts -/

/-- Everything a sweep can do, once: what it lists is DEVLIST, and its length is DEVCOUNT (R220, R221, R229). -/
theorem exec_enum_sweeps (s : State) : ∃ l u,
    exec .enum s = .next ((u.assign .total).finish (.sweep u.sweep.devList u.sweep.devCount)) ∧
    u.sweep.devList = l ∧ u.sweep.devCount = l.length ∧ Lists 131072 l (s.assign .startSweep) u ∧ InOrder 0 65536 l ∧
    (s.cfg.Canonical → l = foundAll s.cfg) := by
  obtain ⟨u, hrun, l, hl, ho, hF⟩ := progEnum_run_sweeps s
  exact ⟨l, u, congrArg Host.Outcome.next hrun, hl.devList, hl.devCount.trans (Nat.zero_add _), hl, ho, hF⟩

/-- Settles O33: DEVLIST starts empty and DEVCOUNT at 0, and every piece of the sweep keeps the frame. -/
theorem enumCompletes : Obligations.EnumCompletes := by
  intro s
  obtain ⟨l, u, hexec, hlist, hcount, hl, -⟩ := exec_enum_sweeps s
  exact ⟨_, hexec, rfl, rfl, hcount.trans (congrArg List.length hlist.symm), hl.frame, hl.closed⟩

/-- Settles O34: the places swept are those from 0 up to 65536. -/
theorem enumListsPresentFunctionsInOrder : Obligations.EnumListsPresentFunctionsInOrder := by
  intro s t h
  obtain ⟨l, u, hexec, hlist, -, -, ho, -⟩ := exec_enum_sweeps s
  cases hexec.symm.trans h
  change (∀ x ∈ u.sweep.devList, _) ∧ u.sweep.devList.Pairwise _ ∧ u.sweep.devList.length ≤ _
  rw [hlist]
  refine ⟨fun x hx => ?_, ho.ascending, ho.length_le⟩
  obtain ⟨hzero, hones⟩ := (IdRecord.present_iff x.id).1 (ho.present x hx)
  exact ⟨hzero, hones, ho.portBase x hx⟩

/-- Settles O35: every piece of the sweep reports what it lists, and the total follows. -/
theorem enumReportsEveryDevice : Obligations.EnumReportsEveryDevice := by
  intro s t h
  obtain ⟨l, u, hexec, hlist, -, hl, -⟩ := exec_enum_sweeps s
  cases hexec.symm.trans h
  change u.evt ++ [_] = s.evt ++ u.sweep.devList.flatMap deviceEvents ++ [_]
  rw [hl.evt, hlist]
  rfl

/-- Settles O36: at least 16 transactions for each device; at most what ENUM's pseudocode has steps. -/
theorem enumTransactionBounds : Obligations.EnumTransactionBounds := by
  intro s t h
  obtain ⟨l, u, hexec, -, -, hl, -⟩ := exec_enum_sweeps s
  obtain ⟨r, htr, -, hr⟩ := Prog.run_paired progEnum_within s
  have hrun : t = progEnum.run s := by cases h; rfl
  rw [← hrun] at htr
  cases hexec.symm.trans h
  exact ⟨hl.tr, by rw [htr, List.length_append]; exact Nat.add_le_add_left hr _⟩

/-- Settles O38: a search of the six slots in order, and ENUM's descriptors are built by `describe`. -/
theorem portBaseIsFirstIoSlot : Obligations.PortBaseIsFirstIoSlot := by
  refine ⟨?_, fun s t h x hx => ((enumListsPresentFunctionsInOrder s t h).1 x hx).2.2⟩
  rintro bars _ rfl
  rw [Bars.portBase_eq]
  refine ⟨fun v => findSome?_ioBase?_eq_some, ?_⟩
  rw [List.findSome?_eq_none_iff]
  simp only [DecodeResult.ioBase?_eq_none]
  exact ⟨fun h v hv => h _ hv v rfl, fun h r hr v e => h v (e ▸ hr)⟩

/-! ## Against a backend that keeps its values (R220, R223, R224, R232) -/

theorem mem_allBuses (bus : Bus) : bus ∈ allBuses :=
  List.mem_map.2 ⟨bus.toNat, List.mem_range.2 bus.isLt, BitVec.ofNat_toNat ..⟩

theorem mem_allDevs (dev : Dev) : dev ∈ allDevs :=
  List.mem_map.2 ⟨dev.toNat, List.mem_range.2 dev.isLt, BitVec.ofNat_toNat ..⟩

theorem mem_fns_fnCount {mf : Bool} {fn : Fn} : fn ∈ (fnCount mf).fns ↔ fn = 0 ∨ mf = true := by
  revert mf fn; decide

/-- What is listed: the functions below NFN whose PROBE shows a vendor. -/
theorem mem_foundAll {c : Backend} {x : DeviceDescriptor} : x ∈ foundAll c ↔ ∃ bus dev fn,
    (fn = 0 ∨ (c.read bus dev 0 3).getLsbD 23 = true) ∧ (probed bus dev fn c).present = true ∧
      x = describe (probed bus dev fn c) (decodedBars bus dev fn c) := by
  simp only [foundAll, foundBus, foundDev, found, List.mem_flatMap, mem_allBuses, mem_allDevs, mem_fns_fnCount,
    true_and, List.mem_ite_nil_right, List.mem_singleton]

theorem exec_hasmf_true_iff {s : State} {bus : Bus} {dev : Dev} :
    (∃ u, exec (.hasmf bus dev) s = .next u ∧ u.res = some (.bool true)) ↔
      (s.cfg.read bus dev 0 3).getLsbD 23 = true := by
  simp [exec_hasmf]

/-- Settles O40: DEVLIST is `foundAll` of the backend, whose members are what the three commands answer from it. -/
theorem enumListsWhatItsCommandsAnswer : Obligations.EnumListsWhatItsCommandsAnswer := by
  intro s t present values masks hs hw h
  obtain ⟨l, u, hexec, hlist, -, -, -, hF⟩ := exec_enum_sweeps s
  cases hexec.symm.trans h
  change (∀ x ∈ u.sweep.devList, _) ∧ ∀ _ _ _ _ _, _ → _ → _ → _ → _ → ∃ x ∈ u.sweep.devList, _
  rw [hlist, hF ⟨present, values, masks, hs, hw⟩]
  refine ⟨fun x hx => ?_, fun b d f w r hprobe hr hzero hones hfn => ?_⟩
  · obtain ⟨bus, dev, fn, hfn, -, rfl⟩ := mem_foundAll.1 hx
    refine ⟨⟨_, exec_probe bus dev fn s, rfl⟩, fun p hp => ?_, hfn.imp_right exec_hasmf_true_iff.2⟩
    rw [describe, decodedBars_indexed] at hp
    obtain ⟨idx, -, rfl⟩ := List.mem_map.1 hp
    exact exec_decbar_decoded bus dev fn s idx
  · cases (exec_probe b d f s).symm.trans hprobe
    cases hr
    have hpresent := (IdRecord.present_iff _).2 ⟨hzero, hones⟩
    exact ⟨_, mem_foundAll.2 ⟨b, d, f, hfn.imp_right exec_hasmf_true_iff.1, hpresent, rfl⟩, rfl⟩

end Sys2Proof.Machine

/-! # The first worked example: a sweep that finds nothing (R223, R228) -/

namespace Sys2Proof.Machine

/-- A reference backend without a present function. -/
def Backend.Empty (c : Backend) : Prop := ∃ v m, c = .reference [] v m

theorem Backend.Empty.read {c : Backend} (hc : c.Empty) (bus : Bus) (dev : Dev) (fn : Fn) (k : DwordNo) :
    c.read bus dev fn k = absentRead := by
  obtain ⟨v, m, rfl⟩ := hc
  rfl

theorem Backend.Empty.probed_present {c : Backend} (hc : c.Empty) (bus : Bus) (dev : Dev) (fn : Fn) :
    (probed bus dev fn c).present = false := by
  rw [probed, hc.read, hc.read, hc.read]
  rfl

/-- From `s` to `t` nothing is listed or reported, in exactly `n` port transactions, and CA ends at `a`. -/
structure FindsNothing (n : Nat) (a : Word) (s t : State) : Prop where
  cfg : t.cfg = s.cfg
  devList : t.sweep.devList = s.sweep.devList
  devCount : t.sweep.devCount = s.sweep.devCount
  evt : t.evt = s.evt
  tr : t.tr.length = s.tr.length + n
  ca : t.ca = a

theorem FindsNothing.trans {n n' : Nat} {a a' : Word} {s t u : State} (h : FindsNothing n a s t)
    (h' : FindsNothing n' a' t u) : FindsNothing (n + n') a' s u where
  cfg := h'.cfg.trans h.cfg
  devList := h'.devList.trans h.devList
  devCount := h'.devCount.trans h.devCount
  evt := h'.evt.trans h.evt
  tr := by rw [h'.tr, h.tr, Nat.add_assoc]
  ca := h'.ca

/-- A loop whose rounds find nothing finds nothing, and CA ends where its last round leaves it. -/
theorem forEach_findsNothing {α : Type} {body : α → Prog → Prog} {n : Nat} {a : α → Word}
    (h : ∀ x s, s.cfg.Empty → ∃ t, (∀ rest, (body x rest).run s = rest.run t) ∧ FindsNothing n (a x) s t) (xs : List α)
    (x : α) {s : State} (hs : s.cfg.Empty) :
    ∃ t, (∀ k, (forEach (xs ++ [x]) body k).run s = k.run t) ∧ FindsNothing ((xs ++ [x]).length * n) (a x) s t := by
  induction xs generalizing s with
  | nil =>
    obtain ⟨t, hrun, ht⟩ := h x s hs
    exact ⟨t, hrun, by simpa using ht⟩
  | cons y ys ih =>
    obtain ⟨t, hrun, ht⟩ := h y s hs
    obtain ⟨u, hrun', hu⟩ := ih (ht.cfg.symm ▸ hs)
    refine ⟨u, fun k => (hrun _).trans (hrun' k), ?_⟩
    rw [List.cons_append, List.length_cons, Nat.succ_mul, Nat.add_comm]
    exact ht.trans hu

section
variable (bus : Bus) (dev : Dev) (fn : Fn) {s : State} (hs : s.cfg.Empty)
include hs

/-- One function: PROBE's fourteen transactions. -/
theorem sweepFn_run_empty : ∃ t, (∀ rest, (sweepFn bus dev fn rest).run s = rest.run t) ∧
    FindsNothing 14 (addrWord bus dev fn offInterruptLine) s t :=
  ⟨_, fun rest => sweepFn_run_absent bus dev fn s (hs.probed_present bus dev fn) rest,
    State.probed_cfg .., rfl, rfl, rfl, by simp [State.probed_tr], rfl⟩

/-- One device: HASMF reads all ones and so shows eight functions. -/
theorem sweepDev_run_empty : ∃ t, (∀ rest, (sweepDev bus dev rest).run s = rest.run t) ∧
    FindsNothing 114 (addrWord bus dev 7 offInterruptLine) s t := by
  have hflagged : FindsNothing 2 (addrWord bus dev 0 offHeaderType) s (s.flagged bus dev) :=
    ⟨State.flagged_cfg bus dev s, rfl, rfl, rfl, by simp [State.flagged], rfl⟩
  have hmf : (s.cfg.read bus dev 0 3).getLsbD 23 = true := by rw [hs.read]; rfl
  obtain ⟨t, hrun, ht⟩ := forEach_findsNothing (fun fn _ => sweepFn_run_empty bus dev fn) [0, 1, 2, 3, 4, 5, 6] 7
    (hflagged.cfg.symm ▸ hs)
  refine ⟨t, fun rest => ?_, hflagged.trans ht⟩
  rw [sweepDev_run_flagged, hmf]
  exact hrun rest

/-- One bus. -/
theorem sweepBus_run_empty : ∃ t, (∀ rest, (sweepBus bus rest).run s = rest.run t) ∧
    FindsNothing 3648 (addrWord bus 31 7 offInterruptLine) s t := by
  obtain ⟨l, hl⟩ := allDevs_eq
  have hcursor : FindsNothing 0 s.ca s (s.assign (.busc bus)) := ⟨rfl, rfl, rfl, rfl, rfl, rfl⟩
  obtain ⟨t, hrun, ht⟩ := forEach_findsNothing (fun dev _ => sweepDev_run_empty bus dev) l 31
    (s := s.assign (.busc bus)) hs
  rw [← hl, allDevs_length] at ht
  rw [← hl] at hrun
  exact ⟨t, hrun, hcursor.trans ht⟩

/-- The whole sweep, up to its Total event. -/
theorem exec_enum_empty : ∃ u,
    exec .enum s = .next ((u.assign .total).finish (.sweep u.sweep.devList u.sweep.devCount)) ∧
    FindsNothing 933888 (addrWord 255 31 7 offInterruptLine) (s.assign .startSweep) u := by
  obtain ⟨l, hl⟩ := allBuses_eq
  obtain ⟨t, hrun, ht⟩ := forEach_findsNothing (fun bus _ => sweepBus_run_empty bus) l 255
    (s := s.assign .startSweep) hs
  rw [← hl, allBuses_length] at ht
  rw [← hl] at hrun
  exact ⟨t, congrArg Host.Outcome.next (hrun _), ht⟩

end

/-- Settles O39: each of the 8192 devices takes 114 transactions, the last of them PROBE's read at offset 0x3C of
(255, 31, 7). -/
theorem enumOfEmptySpace : Obligations.EnumOfEmptySpace := by
  intro s t values masks hs h
  obtain ⟨u, hexec, hu⟩ := exec_enum_empty ⟨values, masks, hs⟩
  cases hexec.symm.trans h
  refine ⟨hu.devList, hu.devCount, ?_, hu.tr, hu.ca⟩
  change u.evt ++ [.total u.sweep.devCount] = s.evt ++ [.total 0]
  rw [hu.evt, hu.devCount]
  rfl

end Sys2Proof.Machine

/-! # Refused words, and a next state for every step (R114, R250, R251) -/

namespace Sys2Proof.Machine

/-! ## An illegal command word (R250) -/

/-- An idle engine refuses a word without a meaning, whichever way the host writes it (R250). -/
theorem step_of_illegal {s : State} {w : CommandWord} {rest : List Input} {e : DecodeError} (hm : s.mode = .idle)
    (hi : s.inputs = .command w :: rest ∨ s.inputs = .issue w :: rest) (hd : decodeCommand w = .error e) :
    step s = .next ((State.writeCmd { s with inputs := rest } w).refuseCommand w) := by
  obtain hi | hi := hi
  · simp only [step, nextStep, hi, hm, State.runCommand, hd]
  · simp only [step, nextStep, hi, hm, State.issue, hd]

/-- Settles O7: no row selects the word, so it decodes to none (O6), and a refusal after the host's write touches only
MODE, CMD, SEQ, the locals and REFUSED. -/
theorem illegalWordIsRefused : Obligations.IllegalWordIsRefused := by
  intro s w x rest hm hi hx hno
  have hd : decodeCommand w = .error (.illegalCommand w) := decoderFollowsMatchMaskTable.2.1 w hno
  have hi' : s.inputs = .command w :: rest ∨ s.inputs = .issue w :: rest :=
    hx.imp (fun e => by rw [hi, e]) (fun e => by rw [hi, e])
  exact ⟨_, step_of_illegal hm hi' hd, rfl, rfl, rfl, rfl, rfl, rfl, rfl, rfl, rfl, rfl, rfl, rfl, rfl, rfl⟩

/-! ## Every step has a next state (R114, R250, R251) -/

/-- A host's write is carried out or refused (R22, R250). -/
theorem State.runCommand_next (s : State) (w : CommandWord) : ∃ t, s.runCommand w = .next t := by
  unfold State.runCommand
  split
  · exact ⟨_, rfl⟩
  · exact exec_next _ _

/-- A transaction is performed or refused (R110, R114). -/
theorem State.runPort_next (s : State) (d : Descriptor) (v : Word) : ∃ t, s.runPort d v = .next t := by
  unfold State.runPort
  split
  · exact ⟨_, rfl⟩
  · exact exec_next _ _

/-- A foreign transaction or a reset lands in any mode (R62, R280). -/
theorem step_next_of_disturbed {s : State} (hu : s.undisturbed = false) : ∃ t, step s = .next t := by
  match hi : s.inputs, hu with
  | .port d v :: _, _ => rw [step_port hi]; exact State.runPort_next _ d v
  | .reset :: _, _ => exact ⟨_, step_reset hi⟩
  | [], hu | .command _ :: _, hu | .issue _ :: _, hu | .turn :: _, hu => simp [State.undisturbed, hi] at hu

/-- An undisturbed idle engine waits or takes in the host's write (R22, R250). -/
theorem step_next_of_idle {s : State} (hm : s.mode = .idle) (hu : s.undisturbed = true) : ∃ t, step s = .next t := by
  match hi : s.inputs, hu with
  | [], _ | .issue _ :: _, _ | .turn :: _, _ => simp only [step, nextStep, hi, hm]; exact ⟨_, rfl⟩
  | .command w :: _, _ => simp only [step, nextStep, hi, hm]; exact State.runCommand_next _ w
  | .port _ _ :: _, hu | .reset :: _, hu => simp [State.undisturbed, hi] at hu

/-- Settles O47: only a BUSY engine at no step of its command could stop, and the invariant places every BUSY engine. -/
theorem stepNeverStops : Obligations.StepNeverStops := by
  intro s ⟨_, _, _, _, hplaced, _⟩
  cases hu : s.undisturbed with
  | false => exact step_next_of_disturbed hu
  | true =>
    cases hm : s.mode with
    | idle => exact step_next_of_idle hm hu
    | busy =>
      obtain ⟨p, b, hp⟩ := State.position_of_placed hm hplaced
      obtain ⟨_, h⟩ := step_of_position hm hu hp
      exact ⟨_, h⟩

end Sys2Proof.Machine

/-! # The bound of SEQ and the reset event (R24, R280, R281, R291) -/

namespace Sys2Proof.Machine

/-! ## SEQ against a command's number of steps (R24, R291) -/

section
variable {p : Prog} {n : Nat}

/-- A program of at most `n` steps has no step numbered `n` or above. -/
theorem Prog.Within.resume_lt (hn : p.Within n) {m : Nat} {got : List Word} {x : Prog × Bool}
    (h : p.resume m got = some x) : m < n := by
  induction p generalizing n m got with
  | ret r => cases h
  | set a k ih => exact ih hn h
  | rd b d f o k ih =>
    obtain ⟨hle, hk⟩ := hn
    match m, got, h with
    | 0, _, _ | 1, _, _ => omega
    | m + 2, v :: got, h => have := ih _ (hk _) h; omega
  | wr b d f o src k ih =>
    obtain ⟨hle, hk⟩ := hn
    match m, got, h with
    | 0, _, _ | 1, _, _ => omega
    | m + 2, got, h => have := ih hk h; omega
  | scan w v k ih =>
    obtain ⟨hle, hk⟩ := hn
    match m, got, h with
    | 0, _, _ => omega
    | m + 1, got, h =>
      simp only [Prog.resume] at h
      split at h
      · cases h
      · have := ih _ (hk _) h; omega

/-- Carried out whole, a program of at most `n` steps moves SEQ on by at most `n`. -/
theorem Prog.Within.run_seq (hn : p.Within n) (s : State) : s.seq ≤ (p.run s).seq ∧ (p.run s).seq ≤ s.seq + n := by
  induction p generalizing n s with
  | ret r => exact ⟨Nat.le_refl _, Nat.le_add_right _ _⟩
  | set a k ih => simpa [run_set] using ih hn (s.assign a)
  | rd b d f o k ih =>
    obtain ⟨hle, hk⟩ := hn
    have := ih _ (hk ((s.readReg b d f o).readValue o)) (s.readReg b d f o)
    simp only [Prog.run, State.readReg_seq] at this ⊢
    omega
  | wr b d f o src k ih =>
    obtain ⟨hle, hk⟩ := hn
    have := ih hk (s.writeReg b d f o (src.get s))
    simp only [Prog.run, State.writeReg_seq] at this ⊢
    omega
  | scan w v k ih =>
    obtain ⟨hle, hk⟩ := hn
    simp only [Prog.run]
    cases bitScan w v with
    | none => exact ⟨Nat.le_refl _, Nat.le_add_right _ _⟩
    | some q =>
      have := ih q (hk q) s.advance
      simp only [State.advance_seq] at this ⊢
      omega

end

/-- Settles O59: the command stays within its number of steps, so SEQ names one of them and moves on by no more. -/
theorem sequencerStaysBelowItsBound : Obligations.SequencerStaysBelowItsBound := by
  constructor
  · intro s i hm hplaced hd
    obtain ⟨p, hp, -⟩ := decodeCommand_program hd
    obtain ⟨q, b, hpos⟩ := State.position_of_placed hm hplaced
    rw [State.position_eq hd hp] at hpos
    exact (program_within hp).resume_lt hpos
  · intro w i s t hd ht
    obtain ⟨p, hp, hexec⟩ := decodeCommand_program hd
    rw [hexec] at ht; cases ht
    exact (program_within hp).run_seq s

/-! ## A reset (R280, R281) -/

/-- The block does not reset configuration space (R281). -/
@[simp] theorem Backend.afterReset_reference (p : List FnAddr) (v m : Memory) :
    (Backend.reference p v m).afterReset = .reference p v m := rfl

/-- A platform notes the reset; what it then answers is its own (log 14). -/
@[simp] theorem Backend.afterReset_platform (log : List CfgOp) :
    (Backend.platform log).afterReset = .platform (.reset :: log) := rfl

/-- Settles O51: the step is the reset of the block, whose state the laws of `resetBlock` give. -/
theorem resetAbandonsCommand : Obligations.ResetAbandonsCommand := by
  intro s rest hi
  refine ⟨_, step_reset hi, rfl, rfl, rfl, rfl, rfl, rfl, rfl, rfl, rfl, rfl, rfl, rfl, ?_, ?_⟩
  · intro p v m hc
    simp only [State.resetBlock_cfg, hc, Backend.afterReset_reference]
  · intro log hc
    simp only [State.resetBlock_cfg, hc, Backend.afterReset_platform]

end Sys2Proof.Machine
